-- ==== Sys2Proof/Word.lean ====
section
/-! DEFINITION. The two word types of the block: the received byte (R13, R51) and the 16-bit word of the header fields and of the checksum (R22, R29). -/

namespace Sys2Proof

/-- A byte is 8 bits (R13). -/
abbrev Byte := BitVec 8

/-- A 16-bit header field or checksum word (R22, R171). -/
abbrev Word16 := BitVec 16

end Sys2Proof
end

