-- ==== Sys2Proof/Config.lean ====
section
/-! DEFINITION. The named constants of R10, each read by every definition that uses its value, so that an audit changes one line (R8, R337), and the two values the spec leaves open that a step of the model writes into the state (free values, without a body). The open parameters CORR and ANGLE_EPS of R11 are arguments of the reading of an angle (Machine/AngleReal.lean). READ_TIMEOUT (R11) is the environment's: a `Timeout` event stands wherever the environment puts it. OUT_FORMAT (R11) is not fixed: the item's content is modelled, not its wires. -/

namespace Sys2Proof.Config

/-- PREAMBLE (R10): the frame marker, read little-endian. -/
def preamble : Word16 := 0x5AA5
/-- PRE_B0 (R10): the first byte on the wire, the low byte of PREAMBLE. -/
def preB0 : Byte := preamble.extractLsb' 0 8
/-- PRE_B1 (R10): the second byte on the wire, the high byte of PREAMBLE. -/
def preB1 : Byte := preamble.extractLsb' 8 8
/-- HDR_LEN (R10). -/
def hdrLen : Nat := 10
/-- SAMPLE_LEN (R10). -/
def sampleLen : Nat := 3
/-- TYPE_MASK (R10). -/
def typeMask : Byte := 0x01
/-- FREQ_SHIFT (R10). -/
def freqShift : Nat := 1
/-- FREQ_MASK (R10). -/
def freqMask : Byte := 0x7F
/-- FREQ_DIV (R10): frequency code units per hertz. -/
def freqDiv : Nat := 10
/-- ANGLE_SHIFT (R10). -/
def angleShift : Nat := 1
/-- ANGLE_DIV (R10): angle code units per degree. -/
def angleDiv : Nat := 64
/-- INT_HI_MASK (R10). -/
def intHiMask : Byte := 0x03
/-- INT_HI_WEIGHT (R10). -/
def intHiWeight : Nat := 256
/-- DIST_HI_SHIFT (R10). -/
def distHiShift : Nat := 6
/-- DIST_LO_SHIFT (R10). -/
def distLoShift : Nat := 2
/-- CORR_A = 21.8 (R10), as the exact rational. -/
def corrA : Rat := mkRat 218 10
/-- CORR_B = 155.3 (R10), as the exact rational. -/
def corrB : Rat := mkRat 1553 10
/-- FULL_TURN (R10): degrees in a revolution. -/
def fullTurn : Nat := 360
/-- MAX_COUNT (R10). -/
def maxCount : Nat := 255
/-- PBUF_LEN (R10): MAX_COUNT * SAMPLE_LEN. -/
def pbufLen : Nat := maxCount * sampleLen
/-- BAUD (R10). The block does not see the line (R231): no step uses it. -/
def baud : Nat := 230400
/-- CMD_SYNC (R10). -/
def cmdSync : Byte := 0xA5
/-- OP_HEALTH (R10). -/
def opHealth : Byte := 0x92
/-- OP_DEVINFO (R10). -/
def opDevinfo : Byte := 0x90
/-- OP_RESET (R10). -/
def opReset : Byte := 0x40
/-- OP_STOP (R10). -/
def opStop : Byte := 0x65
/-- OP_START (R10). -/
def opStart : Byte := 0x60
/-- RSP_LEN (R10). -/
def rspLen : Nat := 7
/-- PAYSIZE_MASK (R10). -/
def paysizeMask : Byte := 0x3F
/-- TYPE_HEALTH (R10). -/
def typeHealth : Byte := 0x06
/-- TYPE_DEVINFO (R10). -/
def typeDevinfo : Byte := 0x04
/-- TYPE_SCANACK (R10). -/
def typeScanack : Byte := 0x81
/-- MODE_CONTINUOUS (R10), as the two-bit field of R87. -/
def modeContinuous : BitVec 2 := 1

/-- Whether the sensor is in continuous scan mode after it has obeyed a CMD.RESET. R238 says that the command
resets the sensor and gives no effect: a FREE VALUE, read at the state's counter `freeIdx` (log entry 9). -/
opaque sensorScanAfterReset : Nat → Bool

/-- Whether a `stopScan()` in progress returns `Ok(())` where the run ended by `Closed`. R278 says that the stop duties
do not apply then and states no result of the call: a FREE VALUE, read at the state's counter `freeIdx` (log entry 18). -/
opaque stopScanOkAfterClosed : Nat → Bool

end Sys2Proof.Config
end

