-- ==== Sys2Proof/Syntax.lean ====
section
/-! DEFINITION. The encoded units of the opcode table (R89), one constructor a row, with the operands of the encoding tables (R81 to R87). Every bit of an encoding is an operand or is fixed by the row: the ignored and reserved bits (R95, R96) are operands too, so that an encoding can be given back whole. -/

namespace Sys2Proof

/-- One raw sample: three bytes in wire order (R54, R85). -/
structure RawSample where
  b0 : Byte
  b1 : Byte
  b2 : Byte
deriving DecidableEq, Repr

/-- The fields of a scan packet header (R81 to R83) but the preamble and the type bit, which the row fixes. -/
structure ScanHeader where
  /-- bits 7:1 of freqAndType (R82) -/
  freqCode : BitVec 7
  /-- N (R81, R143) -/
  sampleCount : Byte
  /-- bit 0 of startAngleCode, ignored (R83, R95) -/
  startFlag : BitVec 1
  /-- bits 15:1 of startAngleCode: the angle in 1/64 degree (R83) -/
  startAngle : BitVec 15
  /-- bit 0 of endAngleCode, ignored (R83, R95) -/
  endFlag : BitVec 1
  /-- bits 15:1 of endAngleCode (R83) -/
  endAngle : BitVec 15
  /-- the checksum field CS (R22) -/
  checksum : Word16
deriving DecidableEq, Repr

/-- The fields of a simple response header (R87) but the preamble and the type code, which the row fixes. -/
structure RspFields where
  /-- bits 7:6 of offset 2: not significant (R96) -/
  sizeHi : BitVec 2
  /-- bits 5:0 of offset 2 (R87) -/
  payloadSize : BitVec 6
  /-- offset 3, reserved (R96) -/
  reserved3 : Byte
  /-- offset 4, reserved (R96) -/
  reserved4 : Byte
  /-- bits 7:6 of offset 5 (R87, conflict C3) -/
  responseMode : BitVec 2
  /-- bits 5:0 of offset 5: no meaning given (R96) -/
  modeLo : BitVec 6
deriving DecidableEq, Repr

/-- The encoded units, one constructor per row of the opcode table (R89). -/
inductive Instr where
  /-- SCAN.PC: a PointCloud frame with its payload (R84, R146). -/
  | scanPc (h : ScanHeader) (samples : List RawSample)
  /-- SCAN.HM: a HeadingMarker frame, ten bytes and no payload (R84, R150). -/
  | scanHm (h : ScanHeader)
  /-- SAMPLE: one 3-byte group of a SCAN.PC payload (R85, R188). -/
  | sample (raw : RawSample)
  /-- CMD.START (R234). -/
  | cmdStart
  /-- CMD.STOP (R235). -/
  | cmdStop
  /-- CMD.DEVINFO (R236). -/
  | cmdDevinfo
  /-- CMD.HEALTH (R237). -/
  | cmdHealth
  /-- CMD.RESET (R238). -/
  | cmdReset
  /-- RSP.SCANACK (R242). -/
  | rspScanack (f : RspFields)
  /-- RSP.DEVINFO (R243). -/
  | rspDevinfo (f : RspFields)
  /-- RSP.HEALTH (R244). -/
  | rspHealth (f : RspFields)
deriving DecidableEq, Repr

end Sys2Proof
end

