-- ==== Sys2Proof/WellFormed.lean ====
section
/-! DEFINITION. Which terms of `Instr` are frames: the one relation between operands that the types do not carry. -/

namespace Sys2Proof

/-- A PointCloud frame carries exactly `sampleCount` samples (R84, R88). Every other term is well formed: each
operand has exactly the width its encoding gives it. -/
def Instr.wellFormed : Instr → Bool
  | .scanPc h samples => samples.length == h.sampleCount.toNat
  | .scanHm _ => true
  | .sample _ => true
  | .cmdStart => true
  | .cmdStop => true
  | .cmdDevinfo => true
  | .cmdHealth => true
  | .cmdReset => true
  | .rspScanack _ => true
  | .rspDevinfo _ => true
  | .rspHealth _ => true

/-- `i` is a well-formed instruction. -/
abbrev Instr.WellFormed (i : Instr) : Prop := i.wellFormed = true

end Sys2Proof
end

