-- ==== Sys2Proof/Decode.lean ====
section
/-! DEFINITION. From bytes to encoded units and back (30_encoding.md). A unit's FORMAT is chosen by the place where its bytes stand (R80, R89): the received stream while the block scans, a group of a SCAN.PC payload, the host's command line, the received stream while the host reads a response. Within a format the bytes choose the row. Total on any bytes, rejecting by name; the encoder stands after it. -/

namespace Sys2Proof

/-! ### Bytes and fields -/

/-- A 16-bit field, low byte first on the wire (R52). -/
def le16 (lo hi : Byte) : Word16 := hi ++ lo

/-- Bits 7:0 of a 16-bit field: its first byte on the wire (R52). -/
def loByte (w : Word16) : Byte := w.extractLsb' 0 8

/-- Bits 15:8 of a 16-bit field: its second byte on the wire (R52). -/
def hiByte (w : Word16) : Byte := w.extractLsb' 8 8

/-- Bit 0 of an angle code: the flag the block ignores (R83). -/
def codeFlag (code : Word16) : BitVec 1 := code.extractLsb' 0 1

/-- Bits 15:1 of an angle code: the code shifted by ANGLE_SHIFT (R83, R144). -/
def codeAngle (code : Word16) : BitVec 15 := code.extractLsb' Config.angleShift 15

/-- An angle code from its two fields (R83). -/
def angleCode (angle : BitVec 15) (flag : BitVec 1) : Word16 := angle ++ flag

/-- Bit 0 of the frequency-and-type byte: 0 PointCloud, 1 HeadingMarker (R82). -/
def typeBit (ft : Byte) : BitVec 1 := (ft &&& Config.typeMask).setWidth 1

/-- Bits 7:1 of the frequency-and-type byte: `(ft >> FREQ_SHIFT) & FREQ_MASK` (R82, R142). -/
def freqField (ft : Byte) : BitVec 7 := ((ft >>> Config.freqShift) &&& Config.freqMask).setWidth 7

/-- The low six bits of a response's size byte, PAYSIZE_MASK (R87, R240). -/
def sizeField (b : Byte) : BitVec 6 := (b &&& Config.paysizeMask).setWidth 6

/-- The top two bits of a byte of a response (R87, conflict C3). -/
def topField (b : Byte) : BitVec 2 := b.extractLsb' 6 2

/-! ### Decoding -/

/-- The place where a unit's bytes stand, which chooses the format (R80, R89). -/
inductive Place where
  /-- received bytes while the block scans: format SCAN -/
  | scan
  /-- a 3-byte group of a SCAN.PC payload: format SAMPLE (R84) -/
  | payload
  /-- bytes the host sends: format CMD -/
  | command
  /-- received bytes the host reads as a response: format RSP -/
  | response
deriving DecidableEq, Repr

/-- Why bytes are no unit of a format. -/
inductive DecodeError where
  /-- fewer than ten bytes of a scan header -/
  | shortHeader (got : Nat)
  /-- the first two bytes are not `A5 5A` (R92, R240) -/
  | badPreamble
  /-- fewer than `expected` payload bytes after a SCAN.PC header -/
  | shortPayload (expected got : Nat)
  /-- fewer than three bytes of a sample -/
  | shortSample (got : Nat)
  /-- fewer than two bytes of a command -/
  | shortCommand (got : Nat)
  /-- a command whose first byte is not CMD_SYNC (R86) -/
  | badSync (b : Byte)
  /-- a command opcode the source does not list (R97) -/
  | unlistedOpcode (op : Byte)
  /-- fewer than seven bytes of a response header -/
  | shortResponse (got : Nat)
  /-- a response type code the source does not list (R97) -/
  | unlistedTypeCode (t : Byte)
deriving DecidableEq, Repr

/-- The header fields of a scan frame from its bytes at offsets 2 to 9 (R81, R91). -/
def scanHeaderOf (b2 b3 b4 b5 b6 b7 b8 b9 : Byte) : ScanHeader :=
  { freqCode := freqField b2
    sampleCount := b3
    startFlag := codeFlag (le16 b4 b5)
    startAngle := codeAngle (le16 b4 b5)
    endFlag := codeFlag (le16 b6 b7)
    endAngle := codeAngle (le16 b6 b7)
    checksum := le16 b8 b9 }

/-- The first `n` 3-byte groups of a byte string, and what follows them (R84). -/
def takeSamples : Nat → List Byte → Option (List RawSample × List Byte)
  | 0, bs => some ([], bs)
  | n + 1, b0 :: b1 :: b2 :: bs =>
    match takeSamples n bs with
    | some (ss, rest) => some (⟨b0, b1, b2⟩ :: ss, rest)
    | none => none
  | _ + 1, _ => none

/-- Format SCAN (R81, R84, R88, R89): the ten header bytes are looked at as a unit, the preamble first. -/
def decodeScan : List Byte → Except DecodeError (Instr × List Byte)
  | b0 :: b1 :: b2 :: b3 :: b4 :: b5 :: b6 :: b7 :: b8 :: b9 :: rest =>
    if le16 b0 b1 ≠ Config.preamble then .error .badPreamble
    else
      let h := scanHeaderOf b2 b3 b4 b5 b6 b7 b8 b9
      if typeBit b2 = 1 then .ok (.scanHm h, rest)
      else
        match takeSamples b3.toNat rest with
        | some (ss, rest') => .ok (.scanPc h ss, rest')
        | none => .error (.shortPayload (Config.sampleLen * b3.toNat) rest.length)
  | bs => .error (.shortHeader bs.length)

/-- Format SAMPLE (R85): every byte triple is legal. -/
def decodeSample : List Byte → Except DecodeError (Instr × List Byte)
  | b0 :: b1 :: b2 :: rest => .ok (.sample ⟨b0, b1, b2⟩, rest)
  | bs => .error (.shortSample bs.length)

/-- Format CMD (R86, R89). -/
def decodeCommand : List Byte → Except DecodeError (Instr × List Byte)
  | b0 :: b1 :: rest =>
    if b0 ≠ Config.cmdSync then .error (.badSync b0)
    else if b1 = Config.opStart then .ok (.cmdStart, rest)
    else if b1 = Config.opStop then .ok (.cmdStop, rest)
    else if b1 = Config.opDevinfo then .ok (.cmdDevinfo, rest)
    else if b1 = Config.opHealth then .ok (.cmdHealth, rest)
    else if b1 = Config.opReset then .ok (.cmdReset, rest)
    else .error (.unlistedOpcode b1)
  | bs => .error (.shortCommand bs.length)

/-- The operands of a response header from its bytes at offsets 2 to 5 (R87). -/
def rspFieldsOf (b2 b3 b4 b5 : Byte) : RspFields :=
  { sizeHi := topField b2
    payloadSize := sizeField b2
    reserved3 := b3
    reserved4 := b4
    responseMode := topField b5
    modeLo := b5.extractLsb' 0 6 }

/-- Format RSP (R87, R89): the seven header bytes; the payload that may follow is not part of the unit. -/
def decodeResponse : List Byte → Except DecodeError (Instr × List Byte)
  | b0 :: b1 :: b2 :: b3 :: b4 :: b5 :: b6 :: rest =>
    if le16 b0 b1 ≠ Config.preamble then .error .badPreamble
    else
      let f := rspFieldsOf b2 b3 b4 b5
      if b6 = Config.typeScanack then .ok (.rspScanack f, rest)
      else if b6 = Config.typeDevinfo then .ok (.rspDevinfo f, rest)
      else if b6 = Config.typeHealth then .ok (.rspHealth f, rest)
      else .error (.unlistedTypeCode b6)
  | bs => .error (.shortResponse bs.length)

/-- The unit at the head of a byte string standing at a place, and the bytes after it. -/
def decode : Place → List Byte → Except DecodeError (Instr × List Byte)
  | .scan => decodeScan
  | .payload => decodeSample
  | .command => decodeCommand
  | .response => decodeResponse

/-! ### Encoding -/

/-- The place where a unit stands (R80). -/
def Instr.place : Instr → Place
  | .scanPc _ _ => .scan
  | .scanHm _ => .scan
  | .sample _ => .payload
  | .cmdStart => .command
  | .cmdStop => .command
  | .cmdDevinfo => .command
  | .cmdHealth => .command
  | .cmdReset => .command
  | .rspScanack _ => .response
  | .rspDevinfo _ => .response
  | .rspHealth _ => .response

/-- A raw sample's bytes in wire order (R85). -/
def RawSample.bytes (r : RawSample) : List Byte := [r.b0, r.b1, r.b2]

/-- A payload's bytes: its samples back to back, sample 0 first (R84). -/
def payloadBytes : List RawSample → List Byte
  | [] => []
  | r :: rs => r.bytes ++ payloadBytes rs

/-- The ten header bytes of a scan frame with type bit `t` (R81). -/
def encodeHeader (t : BitVec 1) (h : ScanHeader) : List Byte :=
  [loByte Config.preamble, hiByte Config.preamble, h.freqCode ++ t, h.sampleCount,
    loByte (angleCode h.startAngle h.startFlag), hiByte (angleCode h.startAngle h.startFlag),
    loByte (angleCode h.endAngle h.endFlag), hiByte (angleCode h.endAngle h.endFlag),
    loByte h.checksum, hiByte h.checksum]

/-- The seven bytes of a response header with type code `t` (R87). -/
def encodeResponse (t : Byte) (f : RspFields) : List Byte :=
  [loByte Config.preamble, hiByte Config.preamble, f.sizeHi ++ f.payloadSize, f.reserved3, f.reserved4,
    f.responseMode ++ f.modeLo, t]

/-- The bytes of a unit in wire order (R81 to R87). -/
def encode : Instr → List Byte
  | .scanPc h ss => encodeHeader 0 h ++ payloadBytes ss
  | .scanHm h => encodeHeader 1 h
  | .sample raw => raw.bytes
  | .cmdStart => [Config.cmdSync, Config.opStart]
  | .cmdStop => [Config.cmdSync, Config.opStop]
  | .cmdDevinfo => [Config.cmdSync, Config.opDevinfo]
  | .cmdHealth => [Config.cmdSync, Config.opHealth]
  | .cmdReset => [Config.cmdSync, Config.opReset]
  | .rspScanack f => encodeResponse Config.typeScanack f
  | .rspDevinfo f => encodeResponse Config.typeDevinfo f
  | .rspHealth f => encodeResponse Config.typeHealth f

/-- How many bytes a unit has on the wire (R80, R88). -/
def Instr.lengthBytes : Instr → Nat
  | .scanPc h _ => Config.hdrLen + Config.sampleLen * h.sampleCount.toNat
  | .scanHm _ => Config.hdrLen
  | .sample _ => Config.sampleLen
  | .cmdStart => 2
  | .cmdStop => 2
  | .cmdDevinfo => 2
  | .cmdHealth => 2
  | .cmdReset => 2
  | .rspScanack _ => Config.rspLen
  | .rspDevinfo _ => Config.rspLen
  | .rspHealth _ => Config.rspLen

/-! ### The opcode table's numbering -/

/-- The first `n` bytes of an instruction whose bits are `w`: byte k contributes `byte << (8*k)` (R90). -/
def wordBytes : Nat → Nat → List Byte
  | 0, _ => []
  | n + 1, w => BitVec.ofNat 8 w :: wordBytes n (w / 256)

/-- The longest unit: a SCAN.PC frame of 255 samples (R88). -/
def longestBytes : Nat := Config.hdrLen + Config.pbufLen

/-- The place at which a table row of `nbits` bits stands: the four formats of R80 have rows of different
lengths, but that a SCAN row whose table bits end after byte 2 (R90) is as long as a SAMPLE, and is told from it
by its preamble (log entry 16). -/
def tablePlace (nbits w : Nat) : Place :=
  if nbits = 16 then .command
  else if nbits = 56 then .response
  else if nbits ≤ 24 ∧ w % 65536 ≠ Config.preamble.toNat then .payload
  else .scan

/-- The bytes a table word stands for: the `nbits` bits of `w`, every bit above them 0. -/
def tableBytes (nbits w : Nat) : List Byte := wordBytes longestBytes (w % 2 ^ nbits)

/-- The instruction the decoder reads from a table word. -/
def decodeTableWord (nbits w : Nat) : Option Instr :=
  match decode (tablePlace nbits w) (tableBytes nbits w) with
  | .ok (i, _) => some i
  | .error _ => none

end Sys2Proof
end

