-- ==== Sys2Proof/Machine/State.lean ====
section
/-! DEFINITION. The state of the block (10_state.md) and of the agents around it (R17, R6), as plain data, and the state right after reset (R36, R320). -/

namespace Sys2Proof.Machine

/-! ### Positions, events, agents -/

/-- PHASE (R24). -/
inductive Phase where
  /-- not scanning: the block consumes no received byte -/
  | idle
  /-- the ten-byte header read -/
  | header
  /-- the payload read of a PointCloud frame -/
  | payload
deriving DecidableEq, Repr

/-- What SOURCE offers (R17, R34). -/
inductive SrcEvent where
  /-- one received byte (R51) -/
  | byte (b : Byte)
  /-- the bound of the read in progress has expired (R276) -/
  | timeout
  /-- a device failure that leaves the stream open (R277) -/
  | ioFail
  /-- the stream has been closed (R278) -/
  | closed
deriving DecidableEq, Repr

/-- Whose turn it is: the interleaving of the agents' actions (R282), as the environment chooses it. -/
inductive Turn where
  /-- the next event of the line arrives: SOURCE has received it (R17, R50) -/
  | arrive
  /-- the sensor has obeyed the stop command: what arrives from here on it has sent afterwards (R252; the moment is the
  environment's, log entry 13) -/
  | stopObeyed
  /-- SOURCE offers its next event -/
  | source
  /-- CONTROL offers `Start` (R248) -/
  | start
  /-- CONTROL offers `StopReq` (R250) -/
  | stopReq
  /-- SINK performs `Take` (R35) -/
  | take
  /-- the host's caller calls `stopScan()` (R256) -/
  | stopScan
  /-- the host sends its next command frame (R233) -/
  | hostSend
  /-- the host tries to send its next command frame, and the device's write fails (R252, `IoError`) -/
  | hostSendFails
  /-- the host reads the next received event for itself (R246) -/
  | hostRead
deriving DecidableEq, Repr

/-! ### Items (R32) -/

/-- Kind (R32). -/
inductive Kind where
  | pointCloud
  | headingMarker
deriving DecidableEq, Repr

/-- An angle in degrees, exactly: the arithmetic of R207 as a finite expression over rationals and values of the
open parameter CORR (R11, R209). `Deg.eval` (Machine/AngleReal.lean) gives the real number it stands for. An
expression in which no CORR value is left is always one `rat` (log entry 4). -/
inductive Deg where
  /-- a rational number of degrees -/
  | rat (q : Rat)
  /-- CORR(d), for a distance d other than 0 (R201) -/
  | corr (d : BitVec 14)
  /-- a + b -/
  | add (a b : Deg)
  /-- a - b -/
  | sub (a b : Deg)
  /-- (a / n) * i -/
  | frac (a : Deg) (i n : Nat)
  /-- a mod 360, the floor-modulo of R14 -/
  | mod360 (a : Deg)
deriving DecidableEq, Repr

/-- Sample (R32). -/
structure Sample where
  /-- millimetres, 0..16383 -/
  distance : BitVec 14
  /-- 0..1023 -/
  intensity : BitVec 10
  /-- degrees, in [0, 360) -/
  angle : Deg
deriving DecidableEq, Repr

/-- Anomaly (R32, R151). -/
inductive Anomaly where
  | headingCountNotOne (count : Byte)
deriving DecidableEq, Repr

/-- Err (R32, R271). -/
inductive Err where
  /-- `expected` is the size of the read that fell short, `got` the bytes that had arrived (R272) -/
  | shortRead (expected got : Nat)
  | badPreamble
  | checksumError
  | ioError
  | emptyPointCloud
deriving DecidableEq, Repr

/-- Packet (R32). -/
structure Packet where
  kind : Kind
  samples : List Sample
  freqCode : Option (BitVec 7)
  anomaly : Option Anomaly
deriving DecidableEq, Repr

/-- Item (R32): one value handed to the consumer. -/
inductive Item where
  | packet (p : Packet)
  | error (e : Err)
  | endOfStream
deriving DecidableEq, Repr

/-! ### The host's side (R6, 45_session_host.md) -/

/-- A call of the host's interface that is in progress (R245, R256). -/
inductive HostCall where
  | startScan
  /-- `StopReq` has been given; CMD.STOP follows when the block has reached IDLE (R252, R256) -/
  | stopScan
  | deviceInfo
  | healthStatus
deriving DecidableEq, Repr

/-- What `parse_rsp` returns (R240). -/
structure RspHeader where
  payloadSize : BitVec 6
  responseMode : BitVec 2
  typeCode : Byte
deriving DecidableEq, Repr

/-- What a request of the host surfaces to its caller (R249, R256). -/
inductive CallResult where
  /-- `startScan()` passed the negotiation and gave `Start` (R245) -/
  | started
  /-- ProtocolNegotiationError (R249) -/
  | protocolNegotiationError
  /-- `Ok(())` of `stopScan()`: the stop command is sent and the stop duties are done (R252, R256) -/
  | stopped
  /-- `IoError`: the command could not be sent (R252, R256; for the other commands log entry 18) -/
  | ioError
  /-- a response header and the payload that followed it (R240, R256) -/
  | response (h : RspHeader) (payload : List Byte)
  /-- a response that could not be read or has no preamble, outside `startScan()` (log entry 11) -/
  | responseFailed
deriving DecidableEq, Repr

/-- The host's side of the serial link, the block's environment (R6, R232). -/
structure HostSide where
  /-- bytes of command frames not yet sent -/
  cmds : List Byte
  /-- the request in progress -/
  call : Option HostCall
  /-- response header bytes read so far -/
  rspBuf : List Byte
  /-- the response header whose payload is being read -/
  rsp : Option RspHeader
  /-- payload bytes read so far -/
  payload : List Byte
  /-- what the last request surfaced to its caller -/
  result : Option CallResult
deriving DecidableEq, Repr

/-! ### Faults and refusals -/

/-- Why the machine stops with a fault. None can be reached from reset: the spec's rules exclude each (R33, R57,
R93 treatment `fault` of U4). -/
inductive Fault where
  /-- Raised by the byte read and the byte write of PBUF on an address above 764, which does not exist (R57). Safe. -/
  | pbufAddress (a : Nat)
  /-- Raised by the byte read of PBUF on a byte that nothing has written since reset (R36, U4). Safe. -/
  | pbufUnwritten (a : Nat)
  /-- Raised by the header capture when HCNT is above 9, so that there is no HDR[HCNT] (R23). Safe. -/
  | hcntRange (k : Nat)
  /-- Raised when a frame's captured bytes do not decode: excluded by the preamble check and by the payload's
  length (R33 item 3). Safe. -/
  | frameUndecodable
deriving DecidableEq, Repr

/-- Why the machine gives an action no meaning. -/
inductive Refusal where
  /-- Raised by an arm of `exec` whose instruction has no meaning yet; no arm does. Safe. -/
  | notModelled (mnemonic : String)
  /-- Raised when the host is made to send two bytes that are none of the five commands: the spec has no such
  command (R97, R239, treatment `refuse` of U7). Safe. -/
  | unlistedCommand (b0 b1 : Byte)
deriving DecidableEq, Repr

/-! ### The state -/

/-- PBUF as (address, byte) pairs in one canonical form: addresses strictly rising, and none above 764. An
address not listed holds no value (R36). -/
abbrev Memory := List Host.Cell

/-- The whole state: the spec's tuple (R20) first, then the model's own fields (log entries 6 to 9). -/
structure State where
  /-- PHASE (R24) -/
  phase : Phase
  /-- HCNT, 4 bits (R23) -/
  hcnt : BitVec 4
  /-- PCNT, 10 bits (R25) -/
  pcnt : BitVec 10
  /-- HDR[0..9] (R21) -/
  hdr : Vector Byte 10
  /-- PBUF[0..764] (R28) -/
  pbuf : Memory
  /-- XACC (R29) -/
  xacc : Word16
  /-- STOP_PENDING (R30) -/
  stopPending : Bool
  /-- OUT (R31) -/
  out : Option Item
  /-- the arrays intensity[] and distance[] of R146's loop, empty between two steps (log entry 7) -/
  decoded : List (BitVec 10 × BitVec 14)
  /-- RX: what SOURCE has received and nobody has consumed yet, in order (R50, R61) -/
  rx : List SrcEvent
  /-- what SOURCE has still to receive, in order: the event sequence of the run (R18, log entry 6) -/
  line : List SrcEvent
  /-- the agents' turns still to come, in order (R282) -/
  sched : List Turn
  /-- the items SINK has taken, in order (R35, R257) -/
  sink : List Item
  /-- TX: the bytes the host has sent to the sensor, in order (R50) -/
  tx : List Byte
  /-- whether the sensor has been put into continuous scan mode (R234) -/
  sensorScan : Bool
  /-- whether the block last went to IDLE by `Closed` (R278) and not by the stop step (R251): the host's stop duties
  follow the stop step alone (R252, log entry 18) -/
  idleByClosed : Bool
  /-- whether the block has taken a stop step after which the host has not done its stop duties yet (R252, log entry 18) -/
  stopOwed : Bool
  /-- whether the host discards the bytes that arrive: it has sent the stop command, and the sensor has not obeyed it yet
  (R252, log entry 13) -/
  draining : Bool
  /-- the counter at which the next free value is read (log entries 9 and 18) -/
  freeIdx : Nat
  /-- the host's side of the link (R6) -/
  host : HostSide
deriving DecidableEq, Repr

/-- The host's side at reset: no request, nothing to send. -/
def HostSide.initial : HostSide :=
  { cmds := [], call := none, rspBuf := [], rsp := none, payload := [], result := none }

/-- The state right after reset (R36, R320). HDR and XACC, to which the spec gives no reset value, hold 0 (log
entry 1); no byte of PBUF holds a value (R36, log entry 2). -/
def State.reset : State :=
  { phase := .idle
    hcnt := 0
    pcnt := 0
    hdr := #v[0, 0, 0, 0, 0, 0, 0, 0, 0, 0]
    pbuf := []
    xacc := 0
    stopPending := false
    out := none
    decoded := []
    rx := []
    line := []
    sched := []
    sink := []
    tx := []
    sensorScan := false
    idleByClosed := false
    stopOwed := false
    draining := false
    freeIdx := 0
    host := HostSide.initial }

end Sys2Proof.Machine
end

