-- ==== Sys2Proof/Machine/Ops.lean ====
section
/-! DEFINITION. The named operations on PBUF, on OUT and on the block's position (R15): MemRead, MemWrite, `emit`, and `raise`, the one way an error is reported (R280). -/

namespace Sys2Proof.Machine

/-! ### PBUF (R28, R57, R58) -/

/-- What a byte of PBUF that nothing has written holds: no value (R36, log entry 2). -/
def Memory.unlisted : Option Byte := none

/-- The byte at an address, `unlisted` where nothing has been written. -/
def Memory.read : Memory → Nat → Option Byte
  | [], _ => Memory.unlisted
  | (b, v) :: m, a => if a = b then some v else Memory.read m a

/-- `PBUF[a] <- v`, keeping the addresses rising. -/
def Memory.write : Memory → Nat → Byte → Memory
  | [], a, v => [(a, v)]
  | (b, w) :: m, a, v =>
    if a < b then (a, v) :: (b, w) :: m
    else if a = b then (a, v) :: m
    else (b, w) :: Memory.write m a v

/-- The canonical form: addresses strictly rising and inside the buffer (R28). No listed byte can equal what an
unlisted address reads as, which is no value. -/
abbrev Memory.wf (m : Memory) : Prop :=
  m.Pairwise (fun x y => x.1 < y.1) ∧ ∀ c ∈ m, c.1 < Config.pbufLen

/-- One byte of PBUF (R58), or the fault that the spec asks of a model (R36, U4). -/
def memReadByte (m : Memory) (a : Nat) : Except Fault Byte :=
  if a < Config.pbufLen then
    match m.read a with
    | some v => .ok v
    | none => .error (.pbufUnwritten a)
  else .error (.pbufAddress a)

/-- `MemRead(a, 3)` (R58): the three bytes at a, a+1, a+2. -/
def memRead3 (m : Memory) (a : Nat) : Except Fault RawSample :=
  match memReadByte m a with
  | .error f => .error f
  | .ok b0 =>
    match memReadByte m (a + 1) with
    | .error f => .error f
    | .ok b1 =>
      match memReadByte m (a + 2) with
      | .error f => .error f
      | .ok b2 => .ok ⟨b0, b1, b2⟩

/-- The part of PBUF from an address upward, in the canonical form: it reads as PBUF does from there on. -/
def Memory.above (m : Memory) (a : Nat) : Memory := m.dropWhile (fun c => c.1 < a)

/-- `MemRead(3*i, 3)` for `n` values of i, from i upward (R189). The bytes of a sample already read are passed over
before the next one is looked for: it stands above them. -/
def memReadSamples (m : Memory) : Nat → Nat → Except Fault (List RawSample)
  | _, 0 => .ok []
  | i, n + 1 =>
    match memRead3 m (Config.sampleLen * i) with
    | .error f => .error f
    | .ok r =>
      match memReadSamples (m.above (Config.sampleLen * (i + 1))) (i + 1) n with
      | .error f => .error f
      | .ok rs => .ok (r :: rs)

/-- `MemWrite(a, 1, v)` (R57), the only write to PBUF. -/
def memWrite (m : Memory) (a : Nat) (v : Byte) : Except Fault Memory :=
  if a < Config.pbufLen then .ok (m.write a v) else .error (.pbufAddress a)

/-! ### OUT and the position -/

/-- `emit item` (R15): `OUT <- item`. -/
def emit (it : Item) (s : State) : State := { s with out := some it }

/-- The frame boundary (R27): `PHASE <- HEADER ; HCNT <- 0 ; PCNT <- 0`. -/
def toBoundary (s : State) : State := { s with phase := .header, hcnt := 0, pcnt := 0 }

/-- `raise E(info)` (R280): the block's taking of an exception. Nothing is saved (R283); the cause and its operands
travel in the item; control goes to the frame boundary; HDR, PBUF, XACC and STOP_PENDING are left as they are. There
is no return operation (R284): the block goes on with the next frame once SINK has taken the item. -/
def raiseErr (e : Err) (s : State) : State := toBoundary (emit (.error e) s)

/-! ### The sample arrays of R146's loop -/

/-- The arrays intensity[] and distance[] made empty. -/
def clearDecoded (s : State) : State := { s with decoded := [] }

/-- One more pair (intensity, distance) at the end of the arrays. -/
def pushDecoded (p : BitVec 10 × BitVec 14) (s : State) : State := { s with decoded := s.decoded ++ [p] }

end Sys2Proof.Machine
end

