-- ==== Sys2Proof/Machine/Operands.lean ====
section
/-! DEFINITION. Field views of the header registers (R22, R91, R141 to R144) and of a response header (R240), by the formulas of the spec, and the views of an item that its content implies (R142, R271). -/

namespace Sys2Proof.Machine

/-! ### Header fields -/

/-- PRE = HDR[1] and HDR[0] as one 16-bit value (R22). -/
def hdrPreamble (s : State) : Word16 := le16 s.hdr[0] s.hdr[1]

/-- packetType = HDR[2] & TYPE_MASK (R141). -/
def packetType (s : State) : Byte := s.hdr[2] &&& Config.typeMask

/-- freqCode = (HDR[2] >> FREQ_SHIFT) & FREQ_MASK (R142). -/
def freqCode (s : State) : Nat := (freqField s.hdr[2]).toNat

/-- sampleCount = HDR[3] (R143). -/
def sampleCount (s : State) : Nat := s.hdr[3].toNat

/-- PLEN = SAMPLE_LEN * sampleCount (R26): the payload length a PointCloud header announces. -/
def plen (s : State) : Nat := Config.sampleLen * sampleCount s

/-- CS = HDR[9] and HDR[8] as one 16-bit value (R22). -/
def hdrChecksum (s : State) : Word16 := le16 s.hdr[8] s.hdr[9]

/-- An angle code's degrees, `(code >> 1) / 64` exactly (R144), from its bits 15:1. -/
def degOfAngle (a : BitVec 15) : Rat := mkRat a.toNat Config.angleDiv

/-- startAngleDeg of a header (R144). -/
def startAngleDeg (h : ScanHeader) : Rat := degOfAngle h.startAngle

/-- endAngleDeg of a header (R144). -/
def endAngleDeg (h : ScanHeader) : Rat := degOfAngle h.endAngle

/-- frequencyHz = freqCode / FREQ_DIV, exactly (R142). -/
def frequencyHz (f : BitVec 7) : Rat := mkRat f.toNat Config.freqDiv

/-- The scan frequency of a packet: absent for a HeadingMarker (R142, conflict C5). -/
def Packet.frequencyHz (p : Packet) : Option Rat := p.freqCode.map Machine.frequencyHz

/-- The numeric code of an error (R271). -/
def Err.code : Err → Nat
  | .shortRead _ _ => 1
  | .badPreamble => 2
  | .checksumError => 3
  | .ioError => 4
  | .emptyPointCloud => 5

/-- The numeric code of an item where an output format needs one: 0 is "no error", a Packet, and 1 to 5 are the
errors (R271). DESIGN CHOICE (log entry 19): R271 names no code for EndOfStream; the model gives it 0, since it is no
error. No step reads the code. -/
def Item.code : Item → Nat
  | .packet _ => 0
  | .error e => e.code
  | .endOfStream => 0

/-! ### Response headers -/

/-- The response header that a decoded RSP unit of type `t` stands for (R240). -/
def rspHeaderOf (t : Byte) (f : RspFields) : RspHeader :=
  { payloadSize := f.payloadSize, responseMode := f.responseMode, typeCode := t }

/-- `parse_rsp` on seven bytes (R240): generic, it does not depend on the type code. -/
def parseRsp : List Byte → Option RspHeader
  | r0 :: r1 :: r2 :: _ :: _ :: r5 :: r6 :: _ =>
    if r0 ≠ Config.preB0 ∨ r1 ≠ Config.preB1 then none
    else some { payloadSize := sizeField r2
                responseMode := topField r5
                typeCode := r6 }
  | _ => none

end Sys2Proof.Machine
end

