-- ==== Sys2Proof/Machine/Flags.lean ====
section
/-! DEFINITION. STOP_PENDING, the only flag (R30), and the conditions under which the block's steps are enabled (R34). No operation of the block has a carry, an overflow or a condition code (R30). -/

namespace Sys2Proof.Machine

/-- STOP_PENDING <- 1 (R250). -/
def setStopPending (s : State) : State := { s with stopPending := true }

/-- STOP_PENDING <- 0 (R248, R251, R278). -/
def clearStopPending (s : State) : State := { s with stopPending := false }

/-- The frame boundary (R27): PHASE = HEADER and HCNT = 0. -/
def atBoundary (s : State) : Bool := s.phase == .header && s.hcnt == 0

/-- The stop step is enabled (R251): OUT empty, frame boundary, STOP_PENDING = 1. -/
def stopEnabled (s : State) : Bool := s.out.isNone && atBoundary s && s.stopPending

/-- PARSER may take an event from SOURCE (R34): OUT empty, PHASE HEADER or PAYLOAD, the stop step not enabled. -/
def sourceEnabled (s : State) : Bool := s.out.isNone && s.phase != .idle && !stopEnabled s

end Sys2Proof.Machine
end

