-- ==== Sys2Proof/Machine/Checksum.lean ====
section
/-! DEFINITION. The ChecksumValidator (42_checksum.md): the covered bytes of a frame, their 16-bit exclusive-or, its running form in XACC, and the comparison. -/

namespace Sys2Proof.Machine

/-- A byte in its lane: bits 7:0 at an even position, bits 15:8 at an odd one (R172, R174). -/
def lane (odd : Bool) (b : Byte) : Word16 :=
  if odd then b.setWidth 16 <<< (8 : Nat) else b.setWidth 16

/-- The exclusive-or of bytes in their lanes, the first one standing at an odd position or not. -/
def xorFrom : Bool → List Byte → Word16
  | _, [] => 0
  | odd, b :: bs => lane odd b ^^^ xorFrom (!odd) bs

/-- `xor16(C)` (R172): even positions into the low byte, odd positions into the high byte. -/
def xor16 (c : List Byte) : Word16 := xorFrom false c

/-- The covered bytes of a frame (R171): the frame with offsets 8 and 9, the checksum field, cut out. -/
def covered (frame : List Byte) : List Byte := frame.take 8 ++ frame.drop Config.hdrLen

/-- `xacc_update_header(X, k, b)` (R174). -/
def xaccUpdateHeader (x : Word16) (k : Nat) (b : Byte) : Word16 :=
  let x0 := if k = 0 then 0 else x
  if 8 ≤ k then x0 else x0 ^^^ lane (k % 2 == 1) b

/-- `xacc_update_payload(X, j, b)` (R174). -/
def xaccUpdatePayload (x : Word16) (j : Nat) (b : Byte) : Word16 :=
  x ^^^ lane (j % 2 == 1) b

/-- CHK.COMPARE (R176): all 16 bits of `xor16(C)` against the checksum field. -/
def checksumGood (frame : List Byte) (cs : Word16) : Bool := xor16 (covered frame) == cs

end Sys2Proof.Machine
end

