-- ==== Sys2Proof/Machine/Sample.lean ====
section
/-! DEFINITION. The SampleDecoder (43_sample_decoder.md) and the meaning of SAMPLE. -/

namespace Sys2Proof.Machine

/-- `intensity = b0 + (b1 & 0x03) * 256` (R186), an integer. -/
def sampleIntensity (r : RawSample) : Nat :=
  r.b0.toNat + (r.b1 &&& Config.intHiMask).toNat * Config.intHiWeight

/-- `distanceRaw = (b2 << 6) + (b1 >> 2)` (R187), an integer; the distance in millimetres is the same number (R190). -/
def sampleDistance (r : RawSample) : Nat :=
  (r.b2.toNat <<< Config.distHiShift) + (r.b1 >>> Config.distLoShift).toNat

/-- `sample_decode(b0, b1, b2)` (R188): the pair (intensity, distance), in 10 and 14 bits, which hold every value
the two formulas can give (R191). -/
def sampleDecode (r : RawSample) : BitVec 10 × BitVec 14 :=
  (BitVec.ofNat 10 (sampleIntensity r), BitVec.ofNat 14 (sampleDistance r))

/-- The inverse map (R193). -/
def sampleEncode (q : BitVec 10) (d : BitVec 14) : RawSample :=
  { b0 := BitVec.ofNat 8 (q.toNat % Config.intHiWeight)
    b1 := BitVec.ofNat 8 (((d.toNat % 2 ^ Config.distHiShift) <<< Config.distLoShift) + q.toNat / Config.intHiWeight)
    b2 := BitVec.ofNat 8 (d.toNat >>> Config.distHiShift) }

/-- SAMPLE decoded into the arrays of R146's loop: shared by SAMPLE and by SCAN.PC. -/
def decodeInto (raw : RawSample) (s : State) : State := pushDecoded (sampleDecode raw) s

/-- The loop of R146: sample i for i = 0 .. N-1, in index order (R189). -/
def decodeAll : List RawSample → State → State
  | [], s => s
  | r :: rs, s => decodeAll rs (decodeInto r s)

/-- SAMPLE (R188): the pair (intensity, distance) of its three bytes becomes the next element of the arrays
intensity[] and distance[] of R146's loop. Nothing else is read or written; every byte triple is legal. -/
def execSample (raw : RawSample) (s : State) : Host.Outcome State Fault Refusal :=
  .next (decodeInto raw s)

end Sys2Proof.Machine
end

