-- ==== Sys2Proof/Machine/Angle.lean ====
section
/-! DEFINITION. The AngleCalculator (44_angle_calculator.md): R207 on exact angles. Each operation on `Deg` computes where its operands are rational and is kept as an expression where a CORR value is involved. Sums and quotients of rationals are formed with `mkRat` from exact integers, so that the kernel evaluates them. -/

namespace Sys2Proof.Machine

/-- a + b on rationals. -/
def ratAdd (a b : Rat) : Rat := mkRat (a.num * b.den + b.num * a.den) (a.den * b.den)

/-- a - b on rationals. -/
def ratSub (a b : Rat) : Rat := mkRat (a.num * b.den - b.num * a.den) (a.den * b.den)

/-- (a / n) * i on rationals, n not 0. -/
def ratFrac (a : Rat) (i n : Nat) : Rat := mkRat (a.num * i) (a.den * n)

/-- a mod 360 on rationals, the floor-modulo of R14: `a - 360 * floor(a / 360)`. -/
def ratMod360 (a : Rat) : Rat := mkRat (a.num % (Config.fullTurn * a.den : Nat)) a.den

/-- CORR(d) (R201): 0 for d = 0, the open parameter's value otherwise. -/
def Deg.ofCorr (d : BitVec 14) : Deg := if d = 0 then .rat 0 else .corr d

/-- a + b. -/
def Deg.plus : Deg → Deg → Deg
  | .rat a, .rat b => .rat (ratAdd a b)
  | a, b => .add a b

/-- a - b. -/
def Deg.minus : Deg → Deg → Deg
  | .rat a, .rat b => .rat (ratSub a b)
  | a, b => .sub a b

/-- (a / n) * i, n not 0. -/
def Deg.share : Deg → Nat → Nat → Deg
  | .rat a, i, n => .rat (ratFrac a i n)
  | a, i, n => .frac a i n

/-- a mod 360 (R14, R206). -/
def Deg.wrap : Deg → Deg
  | .rat a => .rat (ratMod360 a)
  | a => .mod360 a

/-- The angles of samples i, i+1, … (R204, R206): `(FSA + (span / (N-1)) * i + CORR(d[i])) mod 360`. -/
def interpolate (fsa span : Deg) (steps : Nat) : Nat → List (BitVec 14) → List Deg
  | _, [] => []
  | i, d :: ds =>
    Deg.wrap (Deg.plus (Deg.plus fsa (Deg.share span i steps)) (Deg.ofCorr d)) ::
      interpolate fsa span steps (i + 1) ds

/-- ANGLE (R207): `angles(s, e, d[0..N-1])`, one angle a sample. N = 1 has no interpolation (R205). -/
def angles (s e : Rat) : List (BitVec 14) → List Deg
  | [] => []
  | [d] => [Deg.wrap (Deg.plus (.rat s) (Deg.ofCorr d))]
  | d :: d' :: ds =>
    let fsa := Deg.plus (.rat s) (Deg.ofCorr d)
    let lsa := Deg.plus (.rat e) (Deg.ofCorr ((d' :: ds).getLast (List.cons_ne_nil _ _)))
    let span := Deg.wrap (Deg.minus lsa fsa)
    interpolate fsa span (ds.length + 1) 0 (d :: d' :: ds)

end Sys2Proof.Machine
end

