-- ==== Sys2Proof/Machine/Scan.lean ====
section
/-! DEFINITION. The two frame kinds (41_packet_decoder.md): the meanings of SCAN.PC and SCAN.HM, what the block does in the step that has a whole frame captured. -/

namespace Sys2Proof.Machine

/-- The samples of a packet from the decoded pairs and the angles, in index order (R146, R189). -/
def attachAngles (pairs : List (BitVec 10 × BitVec 14)) (as : List Deg) : List Sample :=
  List.zipWith (fun p a => { distance := p.2, intensity := p.1, angle := a }) pairs as

/-- The packet of a PointCloud frame (R146). -/
def pointCloudPacket (h : ScanHeader) (pairs : List (BitVec 10 × BitVec 14)) : Packet :=
  { kind := .pointCloud
    samples := attachAngles pairs (angles (startAngleDeg h) (endAngleDeg h) (pairs.map (·.2)))
    freqCode := some h.freqCode
    anomaly := none }

/-- The count anomaly of a HeadingMarker (R151). -/
def countAnomaly (h : ScanHeader) : Option Anomaly :=
  if h.sampleCount = 1 then none else some (.headingCountNotOne h.sampleCount)

/-- The packet of a HeadingMarker frame (R150): one sample of distance 0 and intensity 0 (R153). -/
def headingMarkerPacket (h : ScanHeader) : Packet :=
  { kind := .headingMarker
    samples := attachAngles [(0, 0)] (angles (startAngleDeg h) (endAngleDeg h) [0])
    freqCode := none
    anomaly := countAnomaly h }

/-- SCAN.PC (R146, R152): no sample announced raises EmptyPointCloud before the checksum is looked at; a wrong
checksum raises ChecksumError; else every sample is decoded, the angles are computed and the packet is emitted. -/
def execScanPc (h : ScanHeader) (ss : List RawSample) (s : State) : Host.Outcome State Fault Refusal :=
  if h.sampleCount = 0 then .next (raiseErr .emptyPointCloud s)
  else if checksumGood (encode (.scanPc h ss)) h.checksum then
    let s1 := decodeAll ss (clearDecoded s)
    .next (toBoundary (clearDecoded (emit (.packet (pointCloudPacket h s1.decoded)) s1)))
  else .next (raiseErr .checksumError s)

/-- SCAN.HM (R150, R151): a wrong checksum raises ChecksumError; else the marker's packet is emitted, with the count
anomaly where the count is not 1. PHASE stays as it is. -/
def execScanHm (h : ScanHeader) (s : State) : Host.Outcome State Fault Refusal :=
  if checksumGood (encode (.scanHm h)) h.checksum then
    .next (emit (.packet (headingMarkerPacket h)) s)
  else .next (raiseErr .checksumError s)

end Sys2Proof.Machine
end

