-- ==== Sys2Proof/Machine/Control.lean ====
section
/-! DEFINITION. The control steps of ScanSession inside the block (45_session_host.md): `Start`, `StopReq`, the stop step, and SINK's `Take` (R35). -/

namespace Sys2Proof.Machine

/-- Control step `Start` (R248): accepted in IDLE with OUT empty, else ignored. HDR, PBUF and XACC are not cleared. -/
def acceptStart (s : State) : State :=
  if s.phase = .idle ∧ s.out = none then clearStopPending (toBoundary s) else s

/-- Control step `StopReq` (R250): latched in HEADER and PAYLOAD, whatever OUT holds; ignored in IDLE. -/
def acceptStopReq (s : State) : State :=
  if s.phase = .idle then s else setStopPending s

/-- `Closed` (R278): the block enters Idle from whatever read it is in and closes the output stream. The host's stop
duties do not apply then. -/
def endStream (s : State) : State :=
  clearStopPending (emit .endOfStream { s with phase := .idle, hcnt := 0, pcnt := 0, idleByClosed := true, stopOwed := false })

/-- The stop step (R251), taken where `stopEnabled`. HCNT and PCNT are 0 already. From here on
the host owes its stop duties (R252). -/
def stopStep (s : State) : State :=
  clearStopPending (emit .endOfStream { s with phase := .idle, idleByClosed := false, stopOwed := true })

/-- SINK's `Take` (R35): the consumer receives the item and OUT becomes empty; not enabled while OUT is empty. -/
def takeItem (s : State) : State :=
  match s.out with
  | some it => { s with out := none, sink := s.sink ++ [it] }
  | none => s

end Sys2Proof.Machine
end

