-- ==== Sys2Proof/Machine/Command.lean ====
section
/-! DEFINITION. The host's commands (R233 to R239): the meanings of CMD.START, CMD.STOP, CMD.DEVINFO, CMD.HEALTH and CMD.RESET. A command travels from the host to the sensor and leaves the block's own state as it is, in whatever mode it is sent (R233, R334). -/

namespace Sys2Proof.Machine

/-- The two bytes of a command frame put on the line to the sensor (R86, R233). -/
def transmit (op : Byte) (s : State) : State := { s with tx := s.tx ++ [Config.cmdSync, op] }

/-- A call of the host begins: it has read nothing of a response and surfaced nothing yet. A call that was in
progress is replaced (log entry 14). -/
def setCall (c : HostCall) (s : State) : State :=
  { s with host := { s.host with call := some c, rspBuf := [], rsp := none, payload := [], result := none } }

/-- The host waits on a request. It does so only in Idle, where the received bytes are its own (R246); while the block
scans the response would arrive as frame bytes (R334, log entry 15). -/
def beginCall (c : HostCall) (s : State) : State := if s.phase = .idle then setCall c s else s

/-- A call of the host ends and surfaces its result to the caller. Nothing of a response is being read any more. -/
def finishCall (r : CallResult) (s : State) : State :=
  { s with host := { s.host with call := none, rspBuf := [], rsp := none, payload := [], result := some r } }

/-- The host drops a request and what it has read of its response. -/
def dropCall (s : State) : State :=
  { s with host := { s.host with call := none, rspBuf := [], rsp := none, payload := [] } }

/-- Is the event a received byte? -/
def SrcEvent.isByte : SrcEvent → Bool
  | .byte _ => true
  | .timeout => false
  | .ioFail => false
  | .closed => false

/-- The host clears the read buffering of the stream (R252): every byte received and not yet consumed is discarded.
What has still to arrive on the line is not touched: it is discarded as it arrives, until the sensor obeys (`draining`).
DESIGN CHOICE (log entry 13): bytes only, and at once. -/
def flushRx (s : State) : State := { s with rx := s.rx.filter (fun e => !e.isByte) }

/-- The host's stop duties are due (R252): the block is in Idle, where the host owns the device, and has not gone there by
`Closed`, after which they do not apply (R278). -/
def stopDutiesDue (s : State) : Bool := s.phase == .idle && !s.idleByClosed

/-- The host owes its stop duties and can do them: the block has taken the stop step and is still in Idle (R252). -/
def stopDutiesOwed (s : State) : Bool := stopDutiesDue s && s.stopOwed

/-- The stop duties are done. Where the stop command has been sent (`drain`), every byte the sensor still sends until it
obeys is discarded as well (R252). -/
def stopDutiesDone (drain : Bool) (s : State) : State := { s with stopOwed := false, draining := drain || s.draining }

/-- The stop duties that follow the sending of the stop command (R252), where they are due: the read in flight is
released, the stream's buffering is cleared, and `stopScan()` surfaces its result. DESIGN CHOICE (log entry
13): of "clear any read/write buffering" the model has the read half alone. A command is on the line as soon as it is
sent, so that no written byte is buffered; the commands that the host has not begun to send (`host.cmds`) are kept. -/
def stopDuties (r : CallResult) (drain : Bool) (s : State) : State :=
  if stopDutiesDue s then stopDutiesDone drain (flushRx (finishCall r s)) else s

/-- The sensor's mode (R234, R235). -/
def setSensor (scan : Bool) (s : State) : State := { s with sensorScan := scan }

/-- One free value used up. -/
def nextFree (s : State) : State := { s with freeIdx := s.freeIdx + 1 }

/-- CMD.START (R234, R245 step 1): `A5 60` goes to the sensor, which enters continuous scan mode; in Idle the host
then waits for one response header. -/
def execCmdStart (s : State) : Host.Outcome State Fault Refusal :=
  .next (beginCall .startScan (setSensor true (transmit Config.opStart s)))

/-- CMD.STOP (R235, R252): `A5 65` goes to the sensor, which leaves continuous scan mode (DEDUCED, log entry 13); no
response is read. In Idle the host, which owns the device then, does its stop duties, discards what arrives until
the sensor obeys, and `stopScan()` returns `Ok(())` (R256). DESIGN CHOICE (log entry 18): the result is surfaced whatever
call is in progress, and after `Closed`, where there are no duties (R278), the command is no more than its two bytes.
DESIGN CHOICE (log entry 13): what the host has not begun to send is not discarded with the buffering, and where the block scans (R247
forbids it) there are no duties. -/
def execCmdStop (s : State) : Host.Outcome State Fault Refusal :=
  .next (stopDuties .stopped true (setSensor false (transmit Config.opStop s)))

/-- CMD.DEVINFO (R236): `A5 90` goes to the sensor; in Idle the host then waits for the response. -/
def execCmdDevinfo (s : State) : Host.Outcome State Fault Refusal :=
  .next (beginCall .deviceInfo (transmit Config.opDevinfo s))

/-- CMD.HEALTH (R237): `A5 92` goes to the sensor; in Idle the host then waits for the response. -/
def execCmdHealth (s : State) : Host.Outcome State Fault Refusal :=
  .next (beginCall .healthStatus (transmit Config.opHealth s))

/-- CMD.RESET (R238): `A5 40` goes to the sensor. It resets the sensor, not the block; the sensor's mode afterwards
is not given: a free value (log entry 9). -/
def execCmdReset (s : State) : Host.Outcome State Fault Refusal :=
  .next (nextFree (setSensor (Config.sensorScanAfterReset s.freeIdx) (transmit Config.opReset s)))

end Sys2Proof.Machine
end

