-- ==== Sys2Proof/Machine/Response.lean ====
section
/-! DEFINITION. The host's reading of response headers (R240 to R249): the meanings of RSP.SCANACK, RSP.DEVINFO and RSP.HEALTH, and the other ends of a request. -/

namespace Sys2Proof.Machine

/-- A start negotiation that succeeded (R245 step 4): the host gives the block `Start` (R248). -/
def negotiated (s : State) : State := acceptStart (finishCall .started s)

/-- A start negotiation that failed (R249): the error goes to the caller, the block receives no `Start`. DESIGN CHOICE
(log entry 20): R249 says that it is not in the source whether the host sends CMD.STOP then; here the failure sends nothing
by itself, and the sensor's mode stays as CMD.START left it. -/
def negotiationFailed (s : State) : State := finishCall .protocolNegotiationError s

/-- The host goes on to read the payload that follows a response header (R240); none follows where the size is 0. -/
def expectPayload (hdr : RspHeader) (s : State) : State :=
  if hdr.payloadSize = 0 then finishCall (.response hdr []) s
  else { s with host := { s.host with rspBuf := [], rsp := some hdr, payload := [] } }

/-- One payload byte of a response (R240): the request ends with the last of them. -/
def payloadByte (hdr : RspHeader) (b : Byte) (s : State) : State :=
  let p := s.host.payload ++ [b]
  if p.length < hdr.payloadSize.toNat then { s with host := { s.host with payload := p } }
  else finishCall (.response hdr p) s

/-- A response header of a type that `startScan()` does not want (R249), read generically by any other request
(R240, R256). -/
def otherResponse (hdr : RspHeader) (s : State) : State :=
  if s.host.call = some .startScan then negotiationFailed s else expectPayload hdr s

/-- A response that the host cannot read or whose preamble is wrong: a failed negotiation where a start is in
progress (R245, R249), the failure of the request elsewhere (log entry 11), nothing where no response is awaited. -/
def responseFailed (s : State) : State :=
  match s.host.call with
  | some .startScan => negotiationFailed s
  | some .stopScan => s
  | some .deviceInfo => finishCall .responseFailed s
  | some .healthStatus => finishCall .responseFailed s
  | none => dropCall s

/-- RSP.SCANACK (R242): where a start is in progress, mode Continuous makes it succeed and any other mode makes it
fail (R249). Elsewhere the header is read generically; its payload size is not used. -/
def execRspScanack (f : RspFields) (s : State) : Host.Outcome State Fault Refusal :=
  if s.host.call = some .startScan then
    if f.responseMode = Config.modeContinuous then .next (negotiated s) else .next (negotiationFailed s)
  else .next (finishCall (.response (rspHeaderOf Config.typeScanack f) []) s)

/-- RSP.DEVINFO (R243): `payloadSize` bytes of payload follow; where a start is in progress it is the wrong type (R249). -/
def execRspDevinfo (f : RspFields) (s : State) : Host.Outcome State Fault Refusal :=
  .next (otherResponse (rspHeaderOf Config.typeDevinfo f) s)

/-- RSP.HEALTH (R244): `payloadSize` bytes of payload follow; where a start is in progress it is the wrong type (R249). -/
def execRspHealth (f : RspFields) (s : State) : Host.Outcome State Fault Refusal :=
  .next (otherResponse (rspHeaderOf Config.typeHealth f) s)

end Sys2Proof.Machine
end

