-- ==== Sys2Proof/Machine/Dispatch.lean ====
section
/-! DEFINITION. exec: one arm per constructor of Instr, each one direct call of the instruction's meaning. -/

namespace Sys2Proof.Machine

def exec (i : Instr) (s : State) : Host.Outcome State Fault Refusal :=
  match i with
  | .scanPc h ss => Sys2Proof.Machine.execScanPc h ss s
  | .scanHm h => Sys2Proof.Machine.execScanHm h s
  | .sample raw => Sys2Proof.Machine.execSample raw s
  | .cmdStart => Sys2Proof.Machine.execCmdStart s
  | .cmdStop => Sys2Proof.Machine.execCmdStop s
  | .cmdDevinfo => Sys2Proof.Machine.execCmdDevinfo s
  | .cmdHealth => Sys2Proof.Machine.execCmdHealth s
  | .cmdReset => Sys2Proof.Machine.execCmdReset s
  | .rspScanack f => Sys2Proof.Machine.execRspScanack f s
  | .rspDevinfo f => Sys2Proof.Machine.execRspDevinfo f s
  | .rspHealth f => Sys2Proof.Machine.execRspHealth f s

end Sys2Proof.Machine
end

