-- ==== Sys2Proof/Machine/Parser.lean ====
section
/-! DEFINITION. PARSER's steps (R34): what the block does with each event SOURCE offers. The block fetches a frame byte by byte into HDR and PBUF; the step that captures the last byte decodes the frame and runs it. -/

namespace Sys2Proof.Machine

/-- The captured frame as an instruction: the ten header bytes, and for a PointCloud its N samples read from PBUF
(R189), through the decoder. -/
def fetchFrame (s : State) : Except Fault Instr :=
  let n := if packetType s = 1 then 0 else sampleCount s
  match memReadSamples s.pbuf 0 n with
  | .error f => .error f
  | .ok ss =>
    match decode .scan (s.hdr.toList ++ payloadBytes ss) with
    | .ok (i, _) => .ok i
    | .error _ => .error .frameUndecodable

/-- The whole frame is captured: run it. -/
def runFrame (s : State) : Host.Outcome State Fault Refusal :=
  match fetchFrame s with
  | .ok i => exec i s
  | .error f => .fault f

/-- DISPATCH (R145): a HeadingMarker whatever its count, and a PointCloud of count 0, are whole with their header;
any other PointCloud begins its payload read. -/
def dispatch (s : State) : Host.Outcome State Fault Refusal :=
  if packetType s = 1 then runFrame s
  else if sampleCount s = 0 then runFrame s
  else .next { s with phase := .payload, pcnt := 0 }

/-- HDR.COMPLETE (R123, R124): the preamble is checked before any other field. -/
def headerComplete (s : State) : Host.Outcome State Fault Refusal :=
  if hdrPreamble s ≠ Config.preamble then .next (raiseErr .badPreamble s) else dispatch s

/-- HDR.CAPTURE's writes (R122): `HDR[k] <- b` and XACC, for k = HCNT. -/
def captureHeader (k : Nat) (hk : k < Config.hdrLen) (b : Byte) (s : State) : State :=
  { s with hdr := s.hdr.set k b hk, xacc := xaccUpdateHeader s.xacc k b }

/-- HDR.CAPTURE (R122): a byte arrives in PHASE = HEADER. -/
def hdrCapture (b : Byte) (s : State) : Host.Outcome State Fault Refusal :=
  if hk : s.hcnt.toNat < Config.hdrLen then
    let s1 := captureHeader s.hcnt.toNat hk b s
    if s.hcnt.toNat + 1 < Config.hdrLen then .next { s1 with hcnt := s.hcnt + 1 }
    else headerComplete { s1 with hcnt := 0 }
  else .fault (.hcntRange s.hcnt.toNat)

/-- PAY.CAPTURE (R148): a byte arrives in PHASE = PAYLOAD. -/
def payCapture (b : Byte) (s : State) : Host.Outcome State Fault Refusal :=
  match memWrite s.pbuf s.pcnt.toNat b with
  | .error f => .fault f
  | .ok m =>
    let s1 := { s with pbuf := m, xacc := xaccUpdatePayload s.xacc s.pcnt.toNat b }
    if s.pcnt.toNat < plen s - 1 then .next { s1 with pcnt := s.pcnt + 1 }
    else runFrame { s1 with pcnt := 0 }

/-- How many bytes the read in progress wants, and how many it has (R272). -/
def readProgress (s : State) : Nat × Nat :=
  match s.phase with
  | .payload => (plen s, s.pcnt.toNat)
  | .header => (Config.hdrLen, s.hcnt.toNat)
  | .idle => (Config.hdrLen, s.hcnt.toNat)

/-- `Timeout` (R276): HDR.SHORT (R125) or PAY.SHORT (R149). -/
def shortRead (s : State) : State := raiseErr (.shortRead (readProgress s).1 (readProgress s).2) s

/-- A received byte, by the read in progress (R34). In IDLE no byte is given to the block. -/
def byteArrives (b : Byte) (s : State) : Host.Outcome State Fault Refusal :=
  match s.phase with
  | .header => hdrCapture b s
  | .payload => payCapture b s
  | .idle => .next s

/-- An event of SOURCE that the block takes (R34): `Byte`, `Timeout` (R276), `IoFail` (R277), `Closed` (R278). -/
def parserEvent (e : SrcEvent) (s : State) : Host.Outcome State Fault Refusal :=
  match e with
  | .byte b => byteArrives b s
  | .timeout => .next (shortRead s)
  | .ioFail => .next (raiseErr .ioError s)
  | .closed => .next (endStream s)

/-- The next event of the line arrives and waits behind what SOURCE has received already (R50, R61); but a byte that the
sensor has sent before it obeyed the stop command is discarded by the host (R252). -/
def arriveNext (s : State) : State :=
  match s.line with
  | [] => s
  | e :: rest => { s with rx := if s.draining && e.isByte then s.rx else s.rx ++ [e], line := rest }

/-- The sensor has obeyed the stop command: what arrives is no longer discarded (R252). -/
def stopObeyed (s : State) : State := { s with draining := false }

/-- SOURCE offers its next event: consumed where PARSER may take one, else it stays with SOURCE (R34). -/
def sourceOffer (s : State) : Host.Outcome State Fault Refusal :=
  match s.rx with
  | [] => .next s
  | e :: rest => if sourceEnabled s then parserEvent e { s with rx := rest } else .next s

end Sys2Proof.Machine
end

