-- ==== Sys2Proof/Machine/HostLink.lean ====
section
/-! DEFINITION. The host's turns (R232, R246, R256): the call of `stopScan()`, sending its next command frame, a sending that fails and, in Idle, reading the next received event; and the dispatch of every agent's turn. -/

namespace Sys2Proof.Machine

/-- `stopScan()` is called (R256): `StopReq` is given to the block (R250), and the call goes on until the host has sent
CMD.STOP (R252). -/
def callStopScan (s : State) : State := acceptStopReq (setCall .stopScan s)

/-- `stopScan()` ends where the block has gone to IDLE by `Closed`: no stop duty applies (R278), so that nothing is sent,
released or discarded. What the call returns is not in the spec: Ok or IoError, a free value (log entry 18). -/
def endStopScan (s : State) : State :=
  nextFree (finishCall (if Config.stopScanOkAfterClosed s.freeIdx then .stopped else .ioError) s)

/-- The host turns to its next command, and does `act` with it: after a stop step, whoever asked for it, that is CMD.STOP
(R252), and so it is where `stopScan()` is in progress, once the block has reached IDLE (R256); else the next two bytes of
the host's command line, which decode as a CMD unit (R86). Two bytes that are none of the five commands are refused by name
(R97, U7); with fewer than two there is nothing to send. DESIGN CHOICE (log entry 18): CMD.STOP comes before the command line,
`stopScan()` in Idle leads to it at reset too, and after `Closed`, where no duty applies (R278), the call ends here. -/
def withCommand (act : Instr → State → Host.Outcome State Fault Refusal) (s : State) : Host.Outcome State Fault Refusal :=
  if s.host.call = some .stopScan ∨ stopDutiesOwed s then
    if stopDutiesDue s then act .cmdStop s
    else if s.phase = .idle then .next (endStopScan s)
    else .next s
  else
    match s.host.cmds with
    | b0 :: b1 :: rest =>
      match decode .command [b0, b1] with
      | .ok (i, _) => act i { s with host := { s.host with cmds := rest } }
      | .error _ => .refused (.unlistedCommand b0 b1)
    | _ => .next s

/-- The host sends its next command. -/
def hostSend (s : State) : Host.Outcome State Fault Refusal := withCommand exec s

/-- The device's write fails: no byte reaches the sensor, and in Idle the call in progress surfaces IoError. For
`stopScan()` R252 says so; its other duties are done all the same where they are due, but that there is no stop command
for the sensor to obey. DESIGN CHOICE for the other commands, and where the block scans, where nothing is surfaced (log entry 18). -/
def commandFailed (i : Instr) (s : State) : Host.Outcome State Fault Refusal :=
  .next (if i = .cmdStop ∧ stopDutiesDue s then stopDuties .ioError false s
    else if s.phase = .idle then finishCall .ioError s
    else s)

/-- The host fails to send its next command. -/
def hostSendFails (s : State) : Host.Outcome State Fault Refusal := withCommand commandFailed s

/-- The seven bytes of a response header are read (R245 step 3): a listed type is run; an unlisted one is read
generically (R97, R240); a wrong preamble fails. -/
def responseComplete (bytes : List Byte) (s : State) : Host.Outcome State Fault Refusal :=
  match decode .response bytes with
  | .ok (i, _) => exec i s
  | .error _ =>
    match parseRsp bytes with
    | some hdr => .next (otherResponse hdr s)
    | none => .next (responseFailed s)

/-- A byte the host reads in Idle (R246): a payload byte, a response header byte, or, where it awaits no response (no
call is in progress, or `stopScan()`) or owes its stop duties (R252), a byte it discards. -/
def hostByte (b : Byte) (s : State) : Host.Outcome State Fault Refusal :=
  if stopDutiesOwed s then .next s
  else
    match s.host.rsp with
    | some hdr => .next (payloadByte hdr b s)
    | none =>
      if s.host.call = none ∨ s.host.call = some .stopScan then .next s
      else if s.host.rspBuf.length + 1 < Config.rspLen then
        .next { s with host := { s.host with rspBuf := s.host.rspBuf ++ [b] } }
      else responseComplete (s.host.rspBuf ++ [b]) { s with host := { s.host with rspBuf := [] } }

/-- The host reads the next received event, in Idle only (R246, R247). A read that times out or fails ends the
request in progress (R245). R34 keeps an event with SOURCE in Idle, where the block consumes none, and gives the host the
received bytes (R246). DESIGN CHOICE (log entry 22): the host's read takes a Timeout, IoFail or Closed out of `rx` as well,
whether a response is awaited or not, so that the event is gone before the next `Start`. -/
def hostRead (s : State) : Host.Outcome State Fault Refusal :=
  if s.phase = .idle then
    match s.rx with
    | [] => .next s
    | .byte b :: rest => hostByte b { s with rx := rest }
    | .timeout :: rest => .next (responseFailed { s with rx := rest })
    | .ioFail :: rest => .next (responseFailed { s with rx := rest })
    | .closed :: rest => .next (responseFailed { s with rx := rest })
  else .next s

/-- CONTROL offers `Start` (R248). Pending bytes are to be empty before the next `Start` (R252): where it is accepted
although the host still owes its stop duties, the host has discarded what had been received (DEDUCED, log entry 13). -/
def controlStart (s : State) : State :=
  acceptStart (if stopDutiesOwed s ∧ s.out = none then flushRx s else s)

/-- One turn of an agent (R282). -/
def runTurn (t : Turn) (s : State) : Host.Outcome State Fault Refusal :=
  match t with
  | .arrive => .next (arriveNext s)
  | .stopObeyed => .next (stopObeyed s)
  | .source => sourceOffer s
  | .start => .next (controlStart s)
  | .stopReq => .next (acceptStopReq s)
  | .take => .next (takeItem s)
  | .stopScan => .next (callStopScan s)
  | .hostSend => hostSend s
  | .hostSendFails => hostSendFails s
  | .hostRead => hostRead s

end Sys2Proof.Machine
end

