-- ==== Sys2Proof/Machine/Placing.lean ====
section
/-! DEFINITION. How an instruction's bytes are stored where the next step fetches them (State.withFetchWord): a unit is fetched byte by byte, so that all of it but its last byte is captured and the last byte stands next in line (log entry 10). -/

namespace Sys2Proof.Machine

/-- Bytes stored at an address and upward. -/
def cellsFrom : Nat → List Byte → Memory
  | _, [] => []
  | a, b :: bs => (a, b) :: cellsFrom (a + 1) bs

/-- The header registers holding the first ten bytes of a string. -/
def hdrOf (bs : List Byte) : Vector Byte 10 :=
  #v[bs.getD 0 0, bs.getD 1 0, bs.getD 2 0, bs.getD 3 0, bs.getD 4 0,
    bs.getD 5 0, bs.getD 6 0, bs.getD 7 0, bs.getD 8 0, bs.getD 9 0]

/-- SOURCE's next event is byte `b`, and the next turn is `t`. -/
def offerByte (t : Turn) (b : Byte) (s : State) : State :=
  { s with rx := .byte b :: s.rx, sched := t :: s.sched }

/-- A scan frame, all but its last byte captured: a HeadingMarker and a PointCloud of count 0 end with HDR[9], any
other PointCloud with its last payload byte. -/
def placeFrame (bytes : List Byte) (s : State) : State :=
  let hdr := hdrOf bytes
  let n := if typeBit hdr[2] = 1 then 0 else Config.sampleLen * hdr[3].toNat
  if n = 0 then
    offerByte .source hdr[9]
      { s with phase := .header, hcnt := 9, pcnt := 0, out := none, hdr := hdr.set 9 s.hdr[9],
               xacc := xor16 (bytes.take 8) }
  else
    let p := (bytes.drop Config.hdrLen).take (n - 1)
    offerByte .source (bytes.getD (9 + n) 0)
      { s with phase := .payload, hcnt := 0, pcnt := BitVec.ofNat 10 (n - 1), out := none, hdr := hdr,
               pbuf := cellsFrom 0 p, xacc := xor16 (bytes.take 8 ++ p) }

/-- A SAMPLE stands only in a payload (R84, R89): the one sample of a PointCloud frame of count 1 with a good
checksum, all other fields 0. -/
def sampleFrame (raw : List Byte) : List Byte :=
  let h : ScanHeader :=
    { freqCode := 0, sampleCount := 1, startFlag := 0, startAngle := 0, endFlag := 0, endAngle := 0, checksum := 0 }
  let frame := encodeHeader 0 h ++ raw.take Config.sampleLen
  encodeHeader 0 { h with checksum := xor16 (covered frame) } ++ raw.take Config.sampleLen

/-- The block in Idle, so that the host has the turn (R246, R247), with no stop duties before it (R252). -/
def idleBlock (s : State) : State := { s with phase := .idle, hcnt := 0, pcnt := 0, stopPending := false, stopOwed := false }

/-- A command frame next on the host's command line. -/
def placeCommand (bytes : List Byte) (s : State) : State :=
  let s1 := idleBlock s
  { s1 with sched := .hostSend :: s1.sched, host := { s1.host with
        call := if s1.host.call = some .stopScan then none else s1.host.call
        cmds := bytes.take 2 ++ s1.host.cmds } }

/-- The request whose response a type code is (R242 to R244). -/
def callFor (t : Byte) : HostCall :=
  if t = Config.typeDevinfo then .deviceInfo else if t = Config.typeHealth then .healthStatus else .startScan

/-- A response header, six bytes of it read by the host that waits for it. -/
def placeResponse (bytes : List Byte) (s : State) : State :=
  let s1 := idleBlock s
  offerByte .hostRead (bytes.getD 6 0)
    { s1 with host := { s1.host with call := some (callFor (bytes.getD 6 0)), rspBuf := bytes.take 6, rsp := none } }

/-- A unit's bytes stored where the next step fetches, by the place at which such a unit stands. -/
def placeUnit (p : Place) (bytes : List Byte) (s : State) : State :=
  match p with
  | .scan => placeFrame bytes s
  | .payload => placeFrame (sampleFrame bytes) s
  | .command => placeCommand bytes s
  | .response => placeResponse bytes s

end Sys2Proof.Machine
end

