-- ==== Sys2Proof/Machine/Step.lean ====
section
/-! DEFINITION. One step of the machine (R9, R34), and the placing of one instruction where the next step fetches it. -/

namespace Sys2Proof.Machine

/-- One step: the stop step where it is enabled, before any other action (R251, R282); else the next agent's turn.
With no turn to come nothing happens: every agent waits (log entry 8). -/
def step (s : State) : Host.Outcome State Fault Refusal :=
  if stopEnabled s then .next (stopStep s)
  else
    match s.sched with
    | [] => .next s
    | t :: ts => runTurn t { s with sched := ts }

/-- `s` with the instruction of a table word stored where the very next step fetches and runs it (log entry 10). -/
def State.withFetchWord (s : State) (nbits w : Nat) : State :=
  placeUnit (tablePlace nbits w) (tableBytes nbits w) s

end Sys2Proof.Machine
end

