-- ==== Sys2Proof/Machine/AngleReal.lean ====
section
/-! DEFINITION. The real number an exact angle stands for (R209), for any correction function; the exact correction of R201; R207 in the reals, beside the expressions of Machine/Angle.lean; and what R11 and R210 ask of an approximate implementation, with ANGLE_EPS as an argument. No step uses this file: it says what the data of an item means. -/

namespace Sys2Proof.Machine

/-- The correction function as an open parameter (R11, R209): from a distance 0..16383 to degrees. -/
abbrev Corr := BitVec 14 → ℝ

/-- The one thing every correction function satisfies (R209): CORR(0) = 0. -/
def Corr.Ok (corr : Corr) : Prop := corr 0 = 0

/-- `x mod 360` on the reals (R14). -/
noncomputable def rmod360 (x : ℝ) : ℝ := x - (Config.fullTurn : ℝ) * ⌊x / (Config.fullTurn : ℝ)⌋

/-- The exact correction function (R201). -/
noncomputable def corrExact : Corr := fun d =>
  if d = 0 then 0
  else (180 / Real.pi) *
    Real.arctan ((Config.corrA : ℝ) * ((Config.corrB : ℝ) - (d.toNat : ℝ)) / ((Config.corrB : ℝ) * (d.toNat : ℝ)))

/-- The number of degrees an exact angle stands for, given the correction function. -/
noncomputable def Deg.eval (corr : Corr) : Deg → ℝ
  | .rat q => (q : ℝ)
  | .corr d => corr d
  | .add a b => a.eval corr + b.eval corr
  | .sub a b => a.eval corr - b.eval corr
  | .frac a i n => a.eval corr / (n : ℝ) * (i : ℝ)
  | .mod360 a => rmod360 (a.eval corr)

/-- The angles of samples i, i+1, … in the reals (R204, R206), for a given span. -/
noncomputable def interpolateReal (corr : Corr) (fsa span : ℝ) (steps : Nat) : Nat → List (BitVec 14) → List ℝ
  | _, [] => []
  | i, d :: ds =>
    rmod360 (fsa + span / (steps : ℝ) * (i : ℝ) + corr d) :: interpolateReal corr fsa span steps (i + 1) ds

/-- `angleSpan` in the reals (R203), for N of 2 or more: (LSA - FSA) mod 360. -/
noncomputable def spanReal (corr : Corr) (s e : ℝ) : List (BitVec 14) → ℝ
  | [] => 0
  | [_] => 0
  | d :: d' :: ds => rmod360 (e + corr ((d' :: ds).getLast (List.cons_ne_nil _ _)) - (s + corr d))

/-- The interpolated, normalised angles for a given span (R204, R206); N = 1 by R205, whatever the span. -/
noncomputable def anglesOfSpan (corr : Corr) (s span : ℝ) : List (BitVec 14) → List ℝ
  | [] => []
  | [d] => [rmod360 (s + corr d)]
  | d :: d' :: ds => interpolateReal corr (s + corr d) span (ds.length + 1) 0 (d :: d' :: ds)

/-- R207 in the reals. -/
noncomputable def anglesReal (corr : Corr) (s e : ℝ) (d : List (BitVec 14)) : List ℝ :=
  anglesOfSpan corr s (spanReal corr s e d) d

/-- The distance of two angles on the circle (R210). -/
noncomputable def circleDist (x y : ℝ) : ℝ := min |x - y| ((Config.fullTurn : ℝ) - |x - y|)

/-- A correction function within `eps` degrees of the exact one (R209). -/
def Corr.Within (eps : ℝ) (corr : Corr) : Prop := ∀ d, |corr d - corrExact d| ≤ eps

/-! ### ANGLE_EPS (R11, R210, D14) -/

/-- An implementation's emitted angle `x` is off the exact one by at most ANGLE_EPS, measured on the circle (R11, R210), and is
normalised as every emitted angle is (R206). -/
def AngleWithin (angleEps x exact : ℝ) : Prop :=
  0 ≤ x ∧ x < (Config.fullTurn : ℝ) ∧ circleDist x exact ≤ angleEps

/-- The same of a list of emitted angles: as many as there are exact ones, each within ANGLE_EPS of its own. -/
def AnglesWithin (angleEps : ℝ) (xs exact : List ℝ) : Prop := List.Forall₂ (AngleWithin angleEps) xs exact

/-- The numbers `xs` that an implementation emits for the angles of the model's packet `p` are within ANGLE_EPS (R11). -/
def PacketWithin (angleEps : ℝ) (xs : List ℝ) (p : Packet) : Prop :=
  AnglesWithin angleEps xs (p.samples.map (fun x => x.angle.eval corrExact))

/-- What an approximate implementation states of itself (R11, R210). `spanNear` and `spanTurn` are its statement of how it
decides the case of R210 in which LSA and FSA are nearly equal modulo 360. DESIGN CHOICE (log entry 21): the form of that
statement. -/
structure Approx where
  /-- ANGLE_EPS: the largest error of an emitted angle, in degrees -/
  angleEps : ℝ
  /-- how near to 0 or to 360 the exact span must be for the implementation's to come out at the other end, in degrees -/
  spanNear : ℝ
  /-- the whole turns by which its span for `angles(s, e, d)` differs from the exact one -/
  spanTurn : ℚ → ℚ → List (BitVec 14) → ℤ

/-- The exact model: ANGLE_EPS is 0 and no span is decided otherwise (R11, R210, D14). -/
def Approx.exact : Approx := { angleEps := 0, spanNear := 0, spanTurn := fun _ _ _ => 0 }

/-- The statement is one that R210 allows: a span is taken at the other end only where the exact one is near 0 or near 360.
With `spanNear` 0 none is. -/
def Approx.Ok (imp : Approx) : Prop :=
  ∀ (s e : ℚ) (d : List (BitVec 14)),
    imp.spanTurn s e d = 0 ∨
    (imp.spanTurn s e d = 1 ∧ spanReal corrExact s e d < imp.spanNear) ∨
    (imp.spanTurn s e d = -1 ∧ (Config.fullTurn : ℝ) - imp.spanNear ≤ spanReal corrExact s e d)

/-- The exact angles of R207 with the span that the implementation has decided on (R210). -/
noncomputable def Approx.reference (imp : Approx) (s e : ℚ) (d : List (BitVec 14)) : List ℝ :=
  anglesOfSpan corrExact s (spanReal corrExact s e d + (Config.fullTurn : ℝ) * imp.spanTurn s e d) d

/-- The implementation conforms in emitting `xs` for `angles(s, e, d)`: each angle is within its ANGLE_EPS (R11, R210). -/
def Approx.Conforms (imp : Approx) (s e : ℚ) (d : List (BitVec 14)) (xs : List ℝ) : Prop :=
  AnglesWithin imp.angleEps xs (imp.reference s e d)

end Sys2Proof.Machine
end

