-- ==== Sys2Proof/Safety.lean ====
section
/-! DEFINITION. What the claims are stated in (with the spec's numbers written out where they are the spec's own words, so that a claim does not move with a constant of Config): the invariant of R33, what an item satisfies (R154), the frame as a pure function (R155), and the words for "the next event", "a run over these bytes". -/

namespace Sys2Proof.Machine

/-! ### The invariant (R33) -/

/-- The bytes of PBUF at addresses 0 .. n-1, where every one of them has been written. -/
def writtenBytes (m : Memory) : Nat → Option (List Byte)
  | 0 => some []
  | n + 1 =>
    match writtenBytes m n, m.read n with
    | some p, some b => some (p ++ [b])
    | _, _ => none

/-- R33, items 1 to 5, between any two steps. Item 4 is taken for HCNT of 1 to 9: at HCNT = 0 the accumulator holds
the left-over of an earlier frame, which nothing reads (R29, item 5; log entry 5). Item 5 is `payloadWritten` (every
byte of PBUF that a step will read has been written); HDR holds a value always. `memory` and `scratch` are the model's
own: PBUF keeps its canonical form, the sample arrays are empty between steps (log entry 7). `drained` is R252: until the
sensor has obeyed the stop command, SOURCE has no byte to offer. -/
structure Inv (s : State) : Prop where
  /-- item 1 -/
  idle : s.phase = .idle → s.hcnt = 0 ∧ s.pcnt = 0 ∧ s.stopPending = false
  /-- item 2 -/
  header : s.phase = .header → s.pcnt = 0 ∧ s.hcnt.toNat ≤ 9
  /-- item 3 -/
  payload : s.phase = .payload →
    s.hcnt = 0 ∧ hdrPreamble s = Config.preamble ∧ packetType s = 0 ∧ 1 ≤ sampleCount s ∧ s.pcnt.toNat < plen s
  /-- item 4, header read -/
  headerXacc : s.phase = .header → s.hcnt ≠ 0 → s.xacc = xor16 (s.hdr.toList.take (min s.hcnt.toNat 8))
  /-- items 4 and 5, payload read -/
  payloadXacc : s.phase = .payload →
    ∃ p, writtenBytes s.pbuf s.pcnt.toNat = some p ∧ s.xacc = xor16 (s.hdr.toList.take 8 ++ p)
  memory : s.pbuf.wf
  scratch : s.decoded = []
  drained : s.draining = true → ∀ b, SrcEvent.byte b ∉ s.rx

/-! ### Items (R154) -/

/-- An angle stands for a number in [0, 360), whatever the correction function (R206). -/
def Deg.InRange (a : Deg) : Prop := ∀ corr : Corr, corr.Ok → 0 ≤ a.eval corr ∧ a.eval corr < 360

/-- What every packet that stands in OUT in state `s` satisfies (R154): its frame is the one captured in HDR, and in
PBUF for a PointCloud, since nothing is captured while OUT is full (R34). The frame's checksum validated; a PointCloud
has HDR[3] samples, a HeadingMarker one. The ranges of `distance` and `intensity` are those of their types. -/
def PacketOk (s : State) (p : Packet) : Prop :=
  (∀ x ∈ p.samples, x.angle.InRange) ∧
  match p.kind with
  | .pointCloud =>
    packetType s = 0 ∧ 1 ≤ sampleCount s ∧ p.samples.length = sampleCount s ∧ p.freqCode.isSome ∧ p.anomaly = none ∧
      ∃ pay, writtenBytes s.pbuf (plen s) = some pay ∧ xor16 (s.hdr.toList.take 8 ++ pay) = hdrChecksum s
  | .headingMarker =>
    packetType s = 1 ∧ p.samples.length = 1 ∧ p.freqCode = none ∧ xor16 (s.hdr.toList.take 8) = hdrChecksum s

/-- What every item that stands in OUT in state `s` satisfies (R154, R272). -/
def ItemOk (s : State) : Item → Prop
  | .packet p => PacketOk s p
  | .error (.shortRead expected got) => got < expected ∧ expected ≤ Config.pbufLen
  | .error _ => True
  | .endOfStream => True

/-- OUT is empty or holds an item that satisfies R154. -/
def OutOk (s : State) : Prop := ∀ it, s.out = some it → ItemOk s it

/-! ### The frame as a pure function (R155) -/

/-- How many payload bytes follow the ten header bytes `h` (R88, R145): none after a bad preamble, a HeadingMarker or
a PointCloud of count 0. -/
def payloadLength (h : List Byte) : Nat :=
  if h.getD 0 0 = Config.preB0 ∧ h.getD 1 0 = Config.preB1 ∧ h.getD 2 0 &&& Config.typeMask = 0 then
    Config.sampleLen * (h.getD 3 0).toNat
  else 0

/-- An angle code's 15-bit angle from its two bytes, low byte first (R144). -/
def codeToDeg (lo hi : Byte) : Rat := mkRat ((lo.toNat + 256 * hi.toNat) / 2 : Nat) Config.angleDiv

/-- Sample i of a payload (R189). -/
def rawSampleAt (p : List Byte) (i : Nat) : RawSample := ⟨p.getD (3 * i) 0, p.getD (3 * i + 1) 0, p.getD (3 * i + 2) 0⟩

/-- `decode_frame(H, P)` (R155), written from the frame's bytes alone. -/
def decodeFrame (h p : List Byte) : Item :=
  let n := (h.getD 3 0).toNat
  let cs := le16 (h.getD 8 0) (h.getD 9 0)
  if h.getD 0 0 ≠ Config.preB0 ∨ h.getD 1 0 ≠ Config.preB1 then .error .badPreamble
  else if h.getD 2 0 &&& Config.typeMask = 1 then
    if xor16 (h.take 8) ≠ cs then .error .checksumError
    else
      .packet
        { kind := .headingMarker
          samples := [{ distance := 0, intensity := 0, angle := .rat (ratMod360 (codeToDeg (h.getD 4 0) (h.getD 5 0))) }]
          freqCode := none
          anomaly := if h.getD 3 0 = 1 then none else some (.headingCountNotOne (h.getD 3 0)) }
  else if h.getD 3 0 = 0 then .error .emptyPointCloud
  else if xor16 (h.take 8 ++ p.take (3 * n)) ≠ cs then .error .checksumError
  else
    let pairs := (List.range n).map (fun i => sampleDecode (rawSampleAt p i))
    .packet
      { kind := .pointCloud
        samples := attachAngles pairs
          (angles (codeToDeg (h.getD 4 0) (h.getD 5 0)) (codeToDeg (h.getD 6 0) (h.getD 7 0)) (pairs.map (·.2)))
        freqCode := some (freqField (h.getD 2 0))
        anomaly := none }

/-! ### Words of the claims -/

/-- SOURCE has the next turn and offers event `e`; `ts` and `r` are the turns and the events after it. -/
def Offers (s : State) (e : SrcEvent) (ts : List Turn) (r : List SrcEvent) : Prop :=
  s.sched = .source :: ts ∧ s.rx = e :: r

/-- PARSER may take an event in phase `p` (R34). -/
def Ready (s : State) (p : Phase) : Prop := s.phase = p ∧ s.out = none ∧ stopEnabled s = false

/-- `s` with bytes on offer, one turn of agent `t` for each, before what is on offer already. -/
def feed (t : Turn) (bs : List Byte) (s : State) : State :=
  { s with rx := bs.map .byte ++ s.rx, sched := List.replicate bs.length t ++ s.sched }

/-- `r` is what a flush leaves of the received events `rx` (R252, log entry 13): no byte, every other event as often as
before, in order. -/
def BytesDiscarded (rx r : List SrcEvent) : Prop :=
  (∀ b, SrcEvent.byte b ∉ r) ∧ (∀ e, (∀ b, e ≠ SrcEvent.byte b) → r.count e = rx.count e) ∧ r.Sublist rx

/-- The machine right after an accepted `Start` (R248), at any frame boundary with nothing pending. -/
def FreshBoundary (s : State) : Prop :=
  s.phase = .header ∧ s.hcnt = 0 ∧ s.pcnt = 0 ∧ s.out = none ∧ s.stopPending = false

/-- `k` steps of the machine. -/
def steps (k : Nat) (s : State) : Host.Outcome State Fault Refusal := Sys2Proof.core.run k s

end Sys2Proof.Machine
end

