-- ==== Sys2Proof/Certificates/Slice0/Obligations.lean ====
section
/-! DEFINITION. The statements for the provers. Each is a closed proposition about the machine. Where a statement gives a next state, it gives the whole of it: every field that its record update does not name is unchanged, PBUF with every byte of it. -/

open Sys2Proof Sys2Proof.Machine

/-! ### Encodings -/

/-- Words written out from the encoding tables R81 to R87 decode to the units they stand for (vectors V10, V23, V42,
V70, V71). -/
def Obligations.WrittenWordsDecode : Prop :=
  decode .scan [0xA5, 0x5A, 0x8C, 0x03, 0x00, 0x05, 0x00, 0x0A, 0x29, 0x56, 0, 0, 0, 0, 0, 0, 0, 0, 0] =
      .ok (.scanPc { freqCode := 70, sampleCount := 3, startFlag := 0, startAngle := 640, endFlag := 0,
                     endAngle := 1280, checksum := 0x5629 } [⟨0, 0, 0⟩, ⟨0, 0, 0⟩, ⟨0, 0, 0⟩], []) ∧
  decode .scan [0xA5, 0x5A, 0xFF, 0x01, 0x01, 0x2D, 0x00, 0x00, 0x5B, 0x76] =
      .ok (.scanHm { freqCode := 127, sampleCount := 1, startFlag := 1, startAngle := 5760, endFlag := 0,
                     endAngle := 0, checksum := 0x765B }, []) ∧
  decode .payload [0x12, 0x83, 0x40] = .ok (.sample ⟨0x12, 0x83, 0x40⟩, []) ∧
  decode .command [0xA5, 0x60] = .ok (.cmdStart, []) ∧
  decode .command [0xA5, 0x65] = .ok (.cmdStop, []) ∧
  decode .command [0xA5, 0x90] = .ok (.cmdDevinfo, []) ∧
  decode .command [0xA5, 0x92] = .ok (.cmdHealth, []) ∧
  decode .command [0xA5, 0x40] = .ok (.cmdReset, []) ∧
  decode .response [0xA5, 0x5A, 0xC5, 0xFF, 0xFE, 0x7F, 0x81] =
      .ok (.rspScanack { sizeHi := 3, payloadSize := 5, reserved3 := 0xFF, reserved4 := 0xFE, responseMode := 1,
                         modeLo := 63 }, []) ∧
  decode .response [0xA5, 0x5A, 0x14, 0x00, 0x00, 0x00, 0x04] =
      .ok (.rspDevinfo { sizeHi := 0, payloadSize := 20, reserved3 := 0, reserved4 := 0, responseMode := 0,
                         modeLo := 0 }, []) ∧
  decode .response [0xA5, 0x5A, 0x03, 0x00, 0x00, 0x00, 0x06] =
      .ok (.rspHealth { sizeHi := 0, payloadSize := 3, reserved3 := 0, reserved4 := 0, responseMode := 0,
                        modeLo := 0 }, [])

/-- Decoding the encoding of any well-formed unit, whatever follows it, gives the unit back (R80 to R89). -/
def Obligations.DecodeOfEncodeGivesUnitBack : Prop :=
  ∀ (i : Instr) (rest : List Byte), i.WellFormed → decode i.place (encode i ++ rest) = .ok (i, rest)

/-- Whatever the decoder answers is well formed, stands at the place asked for, and encodes to exactly the bytes that
were read: no bit of an encoding is dropped (R80 to R89, R95, R96). -/
def Obligations.DecodedUnitEncodesToItsBytes : Prop :=
  ∀ (p : Place) (bs rest : List Byte) (i : Instr), decode p bs = .ok (i, rest) →
    i.WellFormed ∧ i.place = p ∧ encode i ++ rest = bs

/-- The formulas of R91 for the operands of a scan header and of a response header, from the bytes they are read
from. -/
def Obligations.OperandsAssembleByFormulas : Prop :=
  (∀ b2 b3 b4 b5 b6 b7 b8 b9 : Byte,
    let h := scanHeaderOf b2 b3 b4 b5 b6 b7 b8 b9
    (typeBit b2).toNat = b2.toNat &&& 0x01 ∧
    h.freqCode.toNat = (b2.toNat >>> 1) &&& 0x7F ∧
    h.sampleCount.toNat = b3.toNat ∧
    startAngleDeg h = (((b4.toNat + 256 * b5.toNat) >>> 1 : Nat) : ℚ) / 64 ∧
    endAngleDeg h = (((b6.toNat + 256 * b7.toNat) >>> 1 : Nat) : ℚ) / 64 ∧
    h.checksum.toNat = b8.toNat + 256 * b9.toNat) ∧
  (∀ r2 r3 r4 r5 : Byte,
    let f := rspFieldsOf r2 r3 r4 r5
    f.payloadSize.toNat = r2.toNat &&& 0x3F ∧ f.responseMode.toNat = r5.toNat >>> 6)

/-- `parse_rsp` on the bytes of a listed response header agrees with the decoded unit, and on any seven bytes it gives
exactly the masked size, the top two bits of offset 5 and offset 6, or fails on a wrong preamble (R240). -/
def Obligations.ParseRspByFormulas : Prop :=
  (∀ r0 r1 r2 r3 r4 r5 r6 : Byte,
    parseRsp [r0, r1, r2, r3, r4, r5, r6] =
      if r0 = 0xA5 ∧ r1 = 0x5A then
        some { payloadSize := BitVec.ofNat 6 (r2.toNat % 64), responseMode := BitVec.ofNat 2 (r5.toNat / 64),
               typeCode := r6 }
      else none) ∧
  (∀ f : RspFields,
    parseRsp (encode (.rspScanack f)) = some (rspHeaderOf 0x81 f) ∧
    parseRsp (encode (.rspDevinfo f)) = some (rspHeaderOf 0x04 f) ∧
    parseRsp (encode (.rspHealth f)) = some (rspHeaderOf 0x06 f))

/-- What is no unit is refused by name: a scan header with any other preamble (R92), a command opcode other than the
five and a response type code other than the three (R97). -/
def Obligations.OtherCodesAreRefused : Prop :=
  (∀ (b0 b1 : Byte) (rest : List Byte), 8 ≤ rest.length → (b0 ≠ 0xA5 ∨ b1 ≠ 0x5A) →
    decode .scan (b0 :: b1 :: rest) = .error .badPreamble) ∧
  (∀ op : Byte, op ≠ 0x60 → op ≠ 0x65 → op ≠ 0x90 → op ≠ 0x92 → op ≠ 0x40 →
    decode .command [0xA5, op] = .error (.unlistedOpcode op)) ∧
  (∀ t r2 r3 r4 r5 : Byte, t ≠ 0x81 → t ≠ 0x04 → t ≠ 0x06 →
    decode .response [0xA5, 0x5A, r2, r3, r4, r5, t] = .error (.unlistedTypeCode t))

/-! ### The sample decoder -/

/-- R186 and R187: the formulas, and the same in bit terms; and R54, the sample read as one 24-bit little-endian
value. -/
def Obligations.SampleFieldsByFormulasAndBits : Prop :=
  ∀ r : RawSample,
    (sampleDecode r).1.toNat = r.b0.toNat + (r.b1.toNat &&& 0x03) * 256 ∧
    (sampleDecode r).1 = r.b1.extractLsb' 0 2 ++ r.b0 ∧
    (sampleDecode r).2.toNat = (r.b2.toNat <<< 6) + (r.b1.toNat >>> 2) ∧
    (sampleDecode r).2.toNat = (r.b2.toNat <<< 6) ||| (r.b1.toNat >>> 2) ∧
    (sampleDecode r).2 = r.b2 ++ r.b1.extractLsb' 2 6 ∧
    sampleDecode r = ((r.b2 ++ r.b1 ++ r.b0).extractLsb' 0 10, (r.b2 ++ r.b1 ++ r.b0).extractLsb' 10 14)

/-- R193: the inverse map's three formulas, and that it is inverse to `sample_decode` on both sides. -/
def Obligations.SampleMapHasTheStatedInverse : Prop :=
  ∀ (q : BitVec 10) (d : BitVec 14) (r : RawSample),
    (sampleEncode q d).b0.toNat = q.toNat &&& 0xFF ∧
    (sampleEncode q d).b1.toNat = ((d.toNat &&& 0x3F) <<< 2) ||| (q.toNat >>> 8) ∧
    (sampleEncode q d).b2.toNat = d.toNat >>> 6 ∧
    sampleDecode (sampleEncode q d) = (q, d) ∧
    sampleEncode (sampleDecode r).1 (sampleDecode r).2 = r

/-! ### The checksum -/

/-- R174: the two update functions of XACC, case by case. -/
def Obligations.XaccUpdateByPosition : Prop :=
  ∀ (x : Word16) (k j : Nat) (b : Byte),
    xaccUpdateHeader x 0 b = b.setWidth 16 ∧
    (8 ≤ k → xaccUpdateHeader x k b = x) ∧
    (0 < k → k < 8 → k % 2 = 0 → xaccUpdateHeader x k b = x ^^^ b.setWidth 16) ∧
    (0 < k → k < 8 → k % 2 = 1 → xaccUpdateHeader x k b = x ^^^ (b.setWidth 16 <<< 8)) ∧
    (j % 2 = 0 → xaccUpdatePayload x j b = x ^^^ b.setWidth 16) ∧
    (j % 2 = 1 → xaccUpdatePayload x j b = x ^^^ (b.setWidth 16 <<< 8))

/-- R175: the running form over the ten header bytes and the payload bytes, from any value left in XACC, ends at
`xor16` of the covered bytes. -/
def Obligations.RunningXorEndsAtXor16 : Prop :=
  ∀ (x : Word16) (h p : List Byte), h.length = 10 →
    p.zipIdx.foldl (fun a c => xaccUpdatePayload a c.2 c.1)
      (h.zipIdx.foldl (fun a c => xaccUpdateHeader a c.2 c.1) x) = xor16 (covered (h ++ p))

/-- R172: the low byte of `xor16` is the exclusive-or of the bytes at even positions, the high byte that of the bytes at
odd positions, and of no bytes it is 0. Hence, for an even number of bytes, it is the exclusive-or of the little-endian
words, and a last byte without a partner is the low byte of a word with a zero high byte. -/
def Obligations.Xor16IsTheXorOfTheLanes : Prop :=
  xor16 [] = 0 ∧
  (∀ c : List Byte,
    loByte (xor16 c) = (c.zipIdx.filter (fun x => x.2 % 2 == 0)).foldl (fun a x => a ^^^ x.1) 0 ∧
    hiByte (xor16 c) = (c.zipIdx.filter (fun x => x.2 % 2 == 1)).foldl (fun a x => a ^^^ x.1) 0) ∧
  (∀ (lo hi : Byte) (c : List Byte), xor16 (lo :: hi :: c) = le16 lo hi ^^^ xor16 c) ∧
  (∀ (b : Byte) (c : List Byte), c.length % 2 = 0 → xor16 (c ++ [b]) = xor16 c ^^^ le16 b 0)

/-- R178 (b): a change confined to one covered byte, so any one changed bit, changes the checksum; and any one changed
bit of the checksum field makes the compare fail. -/
def Obligations.ChangedCoveredByteIsDetected : Prop :=
  (∀ (l : List Byte) (k : Nat) (b : Byte) (hk : k < l.length), b ≠ l[k] → xor16 (l.set k b) ≠ xor16 l) ∧
  (∀ (f : List Byte) (cs cs' : Word16), checksumGood f cs = true → cs' ≠ cs → checksumGood f cs' = false)

/-- R178 (c): what the checksum cannot see: two bytes of equal parity exchanged, and the same bits changed in two bytes
of equal parity. -/
def Obligations.EqualParityChangesAreNotDetected : Prop :=
  ∀ (l : List Byte) (i j : Nat) (d : Byte) (hi : i < l.length) (hj : j < l.length), i ≠ j → i % 2 = j % 2 →
    xor16 ((l.set i l[j]).set j l[i]) = xor16 l ∧
    xor16 ((l.set i (l[i] ^^^ d)).set j (l[j] ^^^ d)) = xor16 l

/-- R178 (d): with the checksum field appended, an even number of covered bytes sums to 0 exactly when the frame
passes. -/
def Obligations.AppendedChecksumSumsToZero : Prop :=
  ∀ (c : List Byte) (cs : Word16), c.length % 2 = 0 →
    (xor16 (c ++ [loByte cs, hiByte cs]) = 0 ↔ xor16 c = cs)

/-! ### Angles -/

/-- R207 in the reals: the expressions the model emits stand for exactly the numbers of the formulas, for every
correction function with CORR(0) = 0 (R209). -/
def Obligations.EmittedAnglesAreTheFormulas : Prop :=
  ∀ corr : Corr, corr.Ok → ∀ (s e : ℚ) (d : List (BitVec 14)),
    (angles s e d).map (Deg.eval corr) = anglesReal corr s e d

/-- R206: one angle for each sample, each in [0, 360), for every correction function with CORR(0) = 0. -/
def Obligations.EmittedAnglesAreNormalised : Prop :=
  ∀ (s e : ℚ) (d : List (BitVec 14)), (angles s e d).length = d.length ∧ ∀ a ∈ angles s e d, a.InRange

/-- R208: for two samples or more, the first angle is `s + 2 CORR(d[0])` and the last is `e + 2 CORR(d[N-1])`, modulo
whole turns. -/
def Obligations.EndSamplesAreCorrectedTwice : Prop :=
  ∀ corr : Corr, corr.Ok → ∀ (s e : ℚ) (d : List (BitVec 14)) (a b : Deg) (d0 dl : BitVec 14), 2 ≤ d.length →
    (angles s e d).head? = some a → (angles s e d).getLast? = some b → d.head? = some d0 → d.getLast? = some dl →
    (∃ k : ℤ, a.eval corr = (s : ℝ) + 2 * corr d0 - 360 * k) ∧
    (∃ k : ℤ, b.eval corr = (e : ℝ) + 2 * corr dl - 360 * k)

/-- R202, items 1 and 2, and the bound of item 4 that holds for any arctangent: the exact correction is positive for
1 to 155, negative from 156 on, strictly decreasing from 1 on, and within 90 degrees of 0. -/
def Obligations.ExactCorrectionSignAndOrder : Prop :=
  corrExact.Ok ∧
  ∀ d : BitVec 14, 1 ≤ d.toNat →
    |corrExact d| < 90 ∧ (d.toNat ≤ 155 → 0 < corrExact d) ∧ (156 ≤ d.toNat → corrExact d < 0) ∧
    ∀ d' : BitVec 14, d.toNat < d'.toNat → corrExact d' < corrExact d

/-- R11 and R210, ANGLE_EPS as the bound of every emitted angle, for every number of samples. An implementation that
evaluates R207 with a correction function within `eps` of the exact one conforms with ANGLE_EPS = eps for one sample, and with
ANGLE_EPS = 2 * eps for any number of them, its span decided otherwise than exactly only within 2 * eps of 0 or 360.
Where the exact span is not that near, conforming is to be within ANGLE_EPS of the angles that the model emits. And
ANGLE_EPS = 0 admits those angles alone: for a list of angles as for a packet. (The form in which an implementation states how it
decides the case of R210 is the model's choice, log entry 21; the bound 2 * eps is derived from R203 and R204.) -/
def Obligations.ApproximateAngleStaysNearOnTheCircle : Prop :=
  (∀ (eps : ℝ) (corr : Corr), corr.Ok → corr.Within eps →
    (∀ (s e : ℚ) (d : BitVec 14) (a : Deg), angles s e [d] = [a] →
      AngleWithin eps (a.eval corr) (a.eval corrExact)) ∧
    (eps ≤ 180 → ∃ imp : Approx, imp.Ok ∧ imp.angleEps = 2 * eps ∧ imp.spanNear = 2 * eps ∧
      ∀ (s e : ℚ) (d : List (BitVec 14)), imp.Conforms s e d ((angles s e d).map (Deg.eval corr)))) ∧
  (∀ (imp : Approx) (s e : ℚ) (d : List (BitVec 14)) (xs : List ℝ), imp.Ok →
    (imp.spanNear ≤ spanReal corrExact s e d → spanReal corrExact s e d < 360 - imp.spanNear →
      (imp.Conforms s e d xs ↔ AnglesWithin imp.angleEps xs ((angles s e d).map (Deg.eval corrExact))))) ∧
  (∀ (s e : ℚ) (d : List (BitVec 14)) (xs : List ℝ),
    Approx.exact.Conforms s e d xs ↔ xs = (angles s e d).map (Deg.eval corrExact)) ∧
  (∀ (p : Packet) (xs : List ℝ), (∀ x ∈ p.samples, x.angle.InRange) →
    (PacketWithin 0 xs p ↔ xs = p.samples.map (fun x => x.angle.eval corrExact)))

/-! ### PBUF -/

/-- R57, R58: `MemWrite(a, 1, v)` succeeds exactly inside the buffer; after it a reads as v, every other address reads
as before, and the canonical form is kept. -/
def Obligations.PbufWriteChangesOneByte : Prop :=
  ∀ (m : Memory) (a : Nat) (v : Byte),
    (a < 765 → ∃ m', memWrite m a v = .ok m' ∧ memReadByte m' a = .ok v ∧
      (∀ x, x ≠ a → memReadByte m' x = memReadByte m x) ∧ (m.wf → m'.wf)) ∧
    (765 ≤ a → memWrite m a v = .error (.pbufAddress a) ∧ memReadByte m a = .error (.pbufAddress a))

/-! ### What each instruction does -/

/-- SCAN.PC completes (R146): samples announced and carried, checksum good. The packet's samples are the decoded ones
with the angles of R207, and the block is at the frame boundary. -/
def Obligations.ScanPcEmitsItsPacket : Prop :=
  ∀ (h : ScanHeader) (ss : List RawSample) (s : State), h.sampleCount ≠ 0 → ss.length = h.sampleCount.toNat →
    xor16 ((encodeHeader 0 h).take 8 ++ payloadBytes ss) = h.checksum →
    exec (.scanPc h ss) s = .next
      { s with
        out := some (.packet
          { kind := .pointCloud
            samples := attachAngles (ss.map sampleDecode)
              (angles (mkRat h.startAngle.toNat 64) (mkRat h.endAngle.toNat 64) (ss.map (fun r => (sampleDecode r).2)))
            freqCode := some h.freqCode
            anomaly := none })
        phase := .header
        hcnt := 0
        pcnt := 0
        decoded := [] }

/-- SCAN.PC raises (R152, R146): EmptyPointCloud for count 0 whatever the checksum, else ChecksumError where the
checksum is wrong. STOP_PENDING, HDR, PBUF and XACC stay. -/
def Obligations.ScanPcRaisesOnCountAndChecksum : Prop :=
  ∀ (h : ScanHeader) (ss : List RawSample) (s : State),
    (h.sampleCount = 0 → exec (.scanPc h ss) s = .next
      { s with out := some (.error .emptyPointCloud), phase := .header, hcnt := 0, pcnt := 0 }) ∧
    (h.sampleCount ≠ 0 → xor16 ((encodeHeader 0 h).take 8 ++ payloadBytes ss) ≠ h.checksum →
      exec (.scanPc h ss) s = .next
        { s with out := some (.error .checksumError), phase := .header, hcnt := 0, pcnt := 0 })

/-- SCAN.HM completes (R150, R151, R153): with a good checksum, one sample of distance 0, intensity 0 at the start angle
modulo 360, no frequency, and the count anomaly exactly where the count is not 1, and nothing but OUT changes; with a
wrong one ChecksumError, whatever the count. -/
def Obligations.ScanHmEmitsOrRaises : Prop :=
  ∀ (h : ScanHeader) (s : State),
    (xor16 ((encodeHeader 1 h).take 8) = h.checksum → exec (.scanHm h) s = .next
      { s with
        out := some (.packet
          { kind := .headingMarker
            samples := [{ distance := 0, intensity := 0, angle := .rat (ratMod360 (mkRat h.startAngle.toNat 64)) }]
            freqCode := none
            anomaly := if h.sampleCount = 1 then none else some (.headingCountNotOne h.sampleCount) }) }) ∧
    (xor16 ((encodeHeader 1 h).take 8) ≠ h.checksum → exec (.scanHm h) s = .next
      { s with out := some (.error .checksumError), phase := .header, hcnt := 0, pcnt := 0 })

/-- SAMPLE completes on every byte triple (R188): its pair is the next element of the arrays of R146's loop, and
nothing else changes. (That the pair is held in the field `decoded` is the model's choice, log entry 7.) -/
def Obligations.SampleYieldsItsPair : Prop :=
  ∀ (r : RawSample) (s : State), ∃ t, exec (.sample r) s = .next t ∧
    (∃ q d, t = { s with decoded := s.decoded ++ [(q, d)] } ∧
      q.toNat = r.b0.toNat + (r.b1.toNat &&& 0x03) * 256 ∧ d.toNat = (r.b2.toNat <<< 6) + (r.b1.toNat >>> 2))

/-- CMD.START completes in every mode (R234, R245 step 1): the bytes go out and the sensor enters continuous scan mode;
in Idle the host waits for the response; the block itself is unchanged. The model's choices: the request replaces one in
progress (log entry 14), and outside Idle, where R247 forbids the command, none begins (log entry 15). -/
def Obligations.CmdStartCompletes : Prop :=
  ∀ s : State, exec .cmdStart s = .next
    (if s.phase = .idle then
      { s with tx := s.tx ++ [0xA5, 0x60], sensorScan := true,
               host := { s.host with call := some .startScan, rspBuf := [], rsp := none, payload := [], result := none } }
    else { s with tx := s.tx ++ [0xA5, 0x60], sensorScan := true })

/-- CMD.STOP completes in every mode (R235): the bytes go out. In Idle, but for the case of `Closed` (R278), the stop duties
are done (R252): the host drops its read and the received bytes not yet consumed, discards from now on what arrives until the
sensor obeys, and owes them no longer; and `stopScan()` returns `Ok(())` (R256). A turn in which `stopScan()` is called gives
the block `StopReq` (R250) and the host waits (R256). A failed sending of the stop command, for `stopScan()` or because the
duties are owed, transmits nothing and surfaces IoError (R252). The model's choices. Log entry 18: after `Closed`, where R278
says no more than that no duty applies, CMD.STOP still sends its two bytes, and nothing else happens; any CMD.STOP in Idle
otherwise surfaces Ok, whatever call or none is in progress, and the duties follow it there, after a stop step or at reset;
`stopScan()` may be called in Idle, and then waits for the host's sending like any other; the other duties are done after a failed
sending too, and the call in progress, or none, surfaces IoError. Log entry 13: the sensor leaves scan mode (DEDUCED), the flush
takes bytes only and those received so far at once, the later ones go as they arrive, and nothing is flushed while scanning. Log
entry 14: the call replaces a request in progress. -/
def Obligations.CmdStopCompletes : Prop :=
  ∀ s : State,
    (s.phase ≠ .idle ∨ s.idleByClosed = true →
      exec .cmdStop s = .next { s with tx := s.tx ++ [0xA5, 0x65], sensorScan := false }) ∧
    (s.phase = .idle → s.idleByClosed = false → ∃ r, BytesDiscarded s.rx r ∧ exec .cmdStop s = .next
        { s with tx := s.tx ++ [0xA5, 0x65], sensorScan := false, rx := r, stopOwed := false, draining := true,
                 host := { s.host with call := none, rspBuf := [], rsp := none, payload := [],
                                       result := some .stopped } }) ∧
    (∀ ts, stopEnabled s = false → s.sched = .stopScan :: ts → step s = .next
        { s with sched := ts, stopPending := if s.phase = .idle then s.stopPending else true,
                 host := { s.host with call := some .stopScan, rspBuf := [], rsp := none, payload := [],
                                       result := none } }) ∧
    (∀ ts, s.phase = .idle → s.idleByClosed = false → (s.host.call = some .stopScan ∨ s.stopOwed = true) →
      s.sched = .hostSendFails :: ts →
      ∃ r, BytesDiscarded s.rx r ∧ step s = .next
        { s with sched := ts, rx := r, stopOwed := false,
                 host := { s.host with call := none, rspBuf := [], rsp := none, payload := [],
                                       result := some .ioError } })

/-- CMD.DEVINFO and CMD.HEALTH complete in every mode (R236, R237): the bytes go out; in Idle the host waits for the
response; the block and the sensor's mode are unchanged. The model's choices: the request replaces one in progress (log
entry 14), and outside Idle, where R247 forbids the commands, none begins (log entry 15). -/
def Obligations.CmdQueriesComplete : Prop :=
  ∀ s : State,
    exec .cmdDevinfo s = .next
      (if s.phase = .idle then
        { s with tx := s.tx ++ [0xA5, 0x90],
                 host := { s.host with call := some .deviceInfo, rspBuf := [], rsp := none, payload := [], result := none } }
      else { s with tx := s.tx ++ [0xA5, 0x90] }) ∧
    exec .cmdHealth s = .next
      (if s.phase = .idle then
        { s with tx := s.tx ++ [0xA5, 0x92],
                 host := { s.host with call := some .healthStatus, rspBuf := [], rsp := none, payload := [], result := none } }
      else { s with tx := s.tx ++ [0xA5, 0x92] })

/-- CMD.RESET completes in every mode (R238): the bytes go out; the block is not reset; the sensor's mode afterwards is
a free value, about which nothing is said (log entry 9). -/
def Obligations.CmdResetCompletes : Prop :=
  ∀ s : State, ∃ mode : Bool, exec .cmdReset s = .next
    { s with tx := s.tx ++ [0xA5, 0x40], sensorScan := mode, freeIdx := s.freeIdx + 1 }

/-- RSP.SCANACK completes a start in mode Continuous (R242, R245 step 4, R248): the block is given `Start`, which it
takes in Idle with OUT empty and ignores otherwise. The model's choices, log entry 14: the `Start` is given in this very
step, and success is surfaced even where the `Start` is ignored. -/
def Obligations.RspScanackStartsTheBlock : Prop :=
  ∀ (f : RspFields) (s : State), s.host.call = some .startScan → f.responseMode = 1 →
    exec (.rspScanack f) s = .next
      (if s.phase = .idle ∧ s.out = none then
        { s with phase := .header, hcnt := 0, pcnt := 0, stopPending := false,
                 host := { s.host with call := none, rspBuf := [], rsp := none, payload := [], result := some .started } }
      else
        { s with host := { s.host with call := none, rspBuf := [], rsp := none, payload := [], result := some .started } })

/-- RSP.SCANACK elsewhere: in any other mode a start fails (R249) and the block is untouched; where no start is in
progress the header is the result, with no payload (log entry 12). That the failed start sends nothing is the model's choice
(log entry 20): R249 leaves open whether CMD.STOP follows. -/
def Obligations.RspScanackElsewhere : Prop :=
  ∀ (f : RspFields) (s : State),
    (s.host.call = some .startScan → f.responseMode ≠ 1 → exec (.rspScanack f) s = .next
      { s with host := { s.host with call := none, rspBuf := [], rsp := none, payload := [],
                                     result := some .protocolNegotiationError } }) ∧
    (s.host.call ≠ some .startScan → exec (.rspScanack f) s = .next
      { s with host := { s.host with call := none, rspBuf := [], rsp := none, payload := [],
                                     result := some (.response ⟨f.payloadSize, f.responseMode, 0x81⟩ []) } })

/-- RSP.DEVINFO and RSP.HEALTH complete (R243, R244, R240): where a start is in progress they are the wrong type and it
fails (R249); else the host goes on to read `payloadSize` payload bytes, or has its result at once where the size is 0;
and in Idle, where no stop duties come first (R252), the bytes of that payload, read one a step, end the request with exactly
them. The block is untouched. That
the header is read generically and its payload awaited whatever other request, or none, is in progress is the model's
choice, log entry 12 (DEDUCED), and that a failed start sends nothing, log entry 20. -/
def Obligations.RspQueriesComplete : Prop :=
  ∀ (f : RspFields) (s : State),
    exec (.rspDevinfo f) s = .next
      (if s.host.call = some .startScan then
        { s with host := { s.host with call := none, rspBuf := [], rsp := none, payload := [],
                                       result := some .protocolNegotiationError } }
      else if f.payloadSize = 0 then
        { s with host := { s.host with call := none, rspBuf := [], rsp := none, payload := [],
                                       result := some (.response ⟨0, f.responseMode, 0x04⟩ []) } }
      else
        { s with host := { s.host with rspBuf := [], rsp := some ⟨f.payloadSize, f.responseMode, 0x04⟩, payload := [] } }) ∧
    exec (.rspHealth f) s = .next
      (if s.host.call = some .startScan then
        { s with host := { s.host with call := none, rspBuf := [], rsp := none, payload := [],
                                       result := some .protocolNegotiationError } }
      else if f.payloadSize = 0 then
        { s with host := { s.host with call := none, rspBuf := [], rsp := none, payload := [],
                                       result := some (.response ⟨0, f.responseMode, 0x06⟩ []) } }
      else
        { s with host := { s.host with rspBuf := [], rsp := some ⟨f.payloadSize, f.responseMode, 0x06⟩, payload := [] } }) ∧
    ∀ (h : RspHeader) (p : List Byte), s.phase = .idle → stopDutiesOwed s = false → s.host.rsp = some h →
      s.host.payload = [] → p ≠ [] → p.length = h.payloadSize.toNat →
      steps p.length (feed .hostRead p s) = .next
        { s with host := { s.host with call := none, rspBuf := [], rsp := none, payload := [],
                                       result := some (.response h p) } }

/-! ### What a step does with each event -/

/-- The reset state (R36, R320): Idle, counters 0, no stop pending, OUT empty; no byte of PBUF holds a value. -/
def Obligations.ResetIsIdleAndEmpty : Prop :=
  State.reset.phase = .idle ∧ State.reset.hcnt = 0 ∧ State.reset.pcnt = 0 ∧ State.reset.stopPending = false ∧
  State.reset.out = none ∧ ∀ a, State.reset.pbuf.read a = none

/-- HDR.CAPTURE before the tenth byte (R122): whatever the byte, it is stored in HDR[HCNT], accumulated, and HCNT
advances; no item is written. -/
def Obligations.HeaderByteIsCaptured : Prop :=
  ∀ (s : State) (b : Byte) (ts : List Turn) (r : List SrcEvent) (hk : s.hcnt.toNat < 9),
    Ready s .header → Offers s (.byte b) ts r →
    step s = .next
      { s with sched := ts, rx := r, hdr := s.hdr.set s.hcnt.toNat b (Nat.lt_succ_of_lt hk),
               xacc := xaccUpdateHeader s.xacc s.hcnt.toNat b, hcnt := s.hcnt + 1 }

/-- The tenth byte of a header with a wrong preamble (R124, R273): BadPreamble, whatever else the header holds. -/
def Obligations.BadPreambleIsRaised : Prop :=
  ∀ (s : State) (b : Byte) (ts : List Turn) (r : List SrcEvent), Ready s .header → Offers s (.byte b) ts r →
    s.hcnt = 9 → (s.hdr[0] ≠ 0xA5 ∨ s.hdr[1] ≠ 0x5A) →
    step s = .next
      { s with sched := ts, rx := r, hdr := s.hdr.set 9 b, out := some (.error .badPreamble), phase := .header, hcnt := 0,
               pcnt := 0 }

/-- The tenth byte of a PointCloud header with samples (R145): the payload read begins; no item is written, the checksum
is not looked at. -/
def Obligations.PayloadReadBegins : Prop :=
  ∀ (s : State) (b : Byte) (ts : List Turn) (r : List SrcEvent), Ready s .header → Offers s (.byte b) ts r →
    s.hcnt = 9 → s.hdr[0] = 0xA5 → s.hdr[1] = 0x5A → s.hdr[2] &&& 0x01 = 0 → s.hdr[3] ≠ 0 →
    step s = .next
      { s with sched := ts, rx := r, hdr := s.hdr.set 9 b, phase := .payload, hcnt := 0, pcnt := 0 }

/-- PAY.CAPTURE before the last byte (R148): the byte is stored in PBUF[PCNT], accumulated, and PCNT advances. -/
def Obligations.PayloadByteIsCaptured : Prop :=
  ∀ (s : State) (b : Byte) (ts : List Turn) (r : List SrcEvent), Ready s .payload → Offers s (.byte b) ts r →
    s.pcnt.toNat + 1 < 3 * s.hdr[3].toNat →
    ∃ m, memWrite s.pbuf s.pcnt.toNat b = .ok m ∧
      step s = .next
        { s with sched := ts, rx := r, pbuf := m, xacc := xaccUpdatePayload s.xacc s.pcnt.toNat b, pcnt := s.pcnt + 1 }

/-- A step runs the decoded frame: where the byte on offer completes a header that decodes as a whole frame, or the
payload of a PointCloud, the step is exec of the decoded instruction on the state with that byte captured. -/
def Obligations.StepRunsTheCapturedFrame : Prop :=
  ∀ (s : State) (b : Byte) (ts : List Turn) (r : List SrcEvent) (i : Instr), Offers s (.byte b) ts r →
    (Ready s .header → s.hcnt = 9 → decode .scan (s.hdr.set 9 b).toList = .ok (i, []) →
      step s = exec i { s with sched := ts, rx := r, hdr := s.hdr.set 9 b, hcnt := 0 }) ∧
    (∀ p, Ready s .payload → s.hdr[2] &&& 0x01 = 0 → s.pcnt.toNat + 1 = 3 * s.hdr[3].toNat →
      writtenBytes s.pbuf s.pcnt.toNat = some p → decode .scan (s.hdr.toList ++ (p ++ [b])) = .ok (i, []) →
      ∃ m, memWrite s.pbuf s.pcnt.toNat b = .ok m ∧
        step s = exec i { s with sched := ts, rx := r, pbuf := m,
                                 xacc := xaccUpdatePayload s.xacc s.pcnt.toNat b, pcnt := 0 })

/-- A step runs the decoded command and the decoded response header of the host (R86, R240). After the stop step, whether
`stopScan()` or `StopReq` alone led to it, the host's sending is CMD.STOP, and a byte it reads before is discarded (R252); from
then on it discards what arrives until the sensor has obeyed, which a turn of the environment says (R252). `stopScan()` waits
while the block scans (R256). The model's choices. Log entry 18: `stopScan()` comes before the commands of the line, and so do the
stop duties; with `stopScan()` in progress the sending is CMD.STOP wherever the block has not gone to IDLE by `Closed`, at reset
as well, where no stop step has been taken; and after `Closed`, where R278 says no more than that no duty applies, the call ends in
the host's next sending turn, whether the device would take a byte or not, with nothing sent, released or discarded, and with Ok or
IoError, a free value of which nothing is said. Log entry 14: the step that reads the seventh byte also runs the response, and so
gives `Start`. Log entry 13 (DEDUCED): a `Start` of CONTROL that is accepted while the stop duties are owed finds the received
bytes discarded (R252 asks that none be pending then). -/
def Obligations.StepRunsTheHostsUnits : Prop :=
  ∀ (s : State) (ts : List Turn) (i : Instr), stopEnabled s = false →
    (∀ b0 b1 c, s.sched = .hostSend :: ts → s.host.call ≠ some .stopScan → stopDutiesOwed s = false →
      s.host.cmds = b0 :: b1 :: c → decode .command [b0, b1] = .ok (i, []) →
      step s = exec i { s with sched := ts, host := { s.host with cmds := c } }) ∧
    (s.sched = .hostSend :: ts → (s.host.call = some .stopScan ∨ s.stopOwed = true) → s.phase = .idle →
      s.idleByClosed = false → step s = exec .cmdStop { s with sched := ts }) ∧
    (s.sched = .hostSend :: ts ∨ s.sched = .hostSendFails :: ts → s.host.call = some .stopScan → s.phase = .idle →
      s.idleByClosed = true → ∃ c, (c = .stopped ∨ c = .ioError) ∧ step s = .next
        { s with sched := ts, freeIdx := s.freeIdx + 1,
                 host := { s.host with call := none, rspBuf := [], rsp := none, payload := [], result := some c } }) ∧
    (s.sched = .hostSend :: ts ∨ s.sched = .hostSendFails :: ts → s.host.call = some .stopScan → s.phase ≠ .idle →
      step s = .next { s with sched := ts }) ∧
    (∀ b r, s.sched = .hostRead :: ts → s.rx = .byte b :: r → s.phase = .idle → s.host.call ≠ none →
      s.host.call ≠ some .stopScan → stopDutiesOwed s = false → s.host.rsp = none → s.host.rspBuf.length = 6 →
      decode .response (s.host.rspBuf ++ [b]) = .ok (i, []) →
      step s = exec i { s with sched := ts, rx := r, host := { s.host with rspBuf := [] } }) ∧
    (∀ b r, s.sched = .hostRead :: ts → s.rx = .byte b :: r → stopDutiesOwed s = true →
      step s = .next { s with sched := ts, rx := r }) ∧
    (s.sched = .stopObeyed :: ts → step s = .next { s with sched := ts, draining := false }) ∧
    (s.sched = .start :: ts → stopDutiesOwed s = true → s.out = none →
      ∃ r, BytesDiscarded s.rx r ∧ step s = .next (acceptStart { s with sched := ts, rx := r }))

/-- Two bytes of the host that are none of the five commands are refused by name, whether the device would take them or
not: the spec has no such command (R97, R239; treatment `refuse` of U7). Where the host's sending is CMD.STOP (see
StepRunsTheHostsUnits) it does not turn to them. -/
def Obligations.UnlistedCommandIsRefused : Prop :=
  ∀ (s : State) (b0 b1 : Byte) (c : List Byte) (ts : List Turn), stopEnabled s = false →
    (s.sched = .hostSend :: ts ∨ s.sched = .hostSendFails :: ts) → s.host.call ≠ some .stopScan →
    stopDutiesOwed s = false → s.host.cmds = b0 :: b1 :: c →
    (b0 ≠ 0xA5 ∨ (b1 ≠ 0x60 ∧ b1 ≠ 0x65 ∧ b1 ≠ 0x90 ∧ b1 ≠ 0x92 ∧ b1 ≠ 0x40)) →
    step s = .refused (.unlistedCommand b0 b1)

/-- `Timeout` (R125, R149): ShortRead with the size of the read that fell short and the bytes that had arrived; back to
the boundary, nothing else changes. -/
def Obligations.TimeoutRaisesShortRead : Prop :=
  ∀ (s : State) (ts : List Turn) (r : List SrcEvent), Offers s .timeout ts r →
    (Ready s .header → step s = .next
      { s with sched := ts, rx := r, out := some (.error (.shortRead 10 s.hcnt.toNat)), phase := .header, hcnt := 0,
               pcnt := 0 }) ∧
    (Ready s .payload → step s = .next
      { s with sched := ts, rx := r, out := some (.error (.shortRead (3 * s.hdr[3].toNat) s.pcnt.toNat)), phase := .header,
               hcnt := 0, pcnt := 0 })

/-- `IoFail` (R277) and `Closed` (R278), in a header read or a payload read. After `Closed` the host's stop duties do not
apply: the state records that the block has gone to IDLE so, and that none are owed (the fields are the model's own, log
entry 18). -/
def Obligations.IoFailAndClosed : Prop :=
  ∀ (s : State) (ts : List Turn) (r : List SrcEvent) (p : Phase), p ≠ .idle → Ready s p →
    (Offers s .ioFail ts r → step s = .next
      { s with sched := ts, rx := r, out := some (.error .ioError), phase := .header, hcnt := 0, pcnt := 0 }) ∧
    (Offers s .closed ts r → step s = .next
      { s with sched := ts, rx := r, out := some .endOfStream, phase := .idle, hcnt := 0, pcnt := 0, stopPending := false,
               idleByClosed := true, stopOwed := false })

/-- The stop step (R251): taken exactly where OUT is empty, the block is at a frame boundary and a stop is pending; it
consumes no event and no turn. In every other state the step is the next turn, or nothing where no turn is left. R34,
R251 and R282 give the stop step priority over SOURCE's events; that it also comes before a turn of CONTROL, SINK or the
host, and that a machine without turns waits, is the model's choice (log entry 8, DESIGN CHOICE). The step records that the
host's stop duties apply and are owed (R252; the fields are the model's own, log entry 18). -/
def Obligations.StopStepComesFirst : Prop :=
  ∀ s : State,
    ((s.out = none ∧ s.phase = .header ∧ s.hcnt = 0 ∧ s.stopPending = true) →
      step s = .next
        { s with out := some .endOfStream, phase := .idle, stopPending := false, idleByClosed := false,
                 stopOwed := true }) ∧
    (¬ (s.out = none ∧ s.phase = .header ∧ s.hcnt = 0 ∧ s.stopPending = true) →
      step s = match s.sched with
        | [] => .next s
        | t :: ts => runTurn t { s with sched := ts })

/-- `Start` (R248): accepted in IDLE with OUT empty, ignored otherwise; HDR, PBUF and XACC are not cleared. A turn of
CONTROL that offers it is that step, wherever the stop step is not due first; one that is accepted while the host owes its stop
duties finds the received bytes discarded, and is in StepRunsTheHostsUnits. -/
def Obligations.StartIsAcceptedOnlyInIdle : Prop :=
  ∀ s : State,
    acceptStart s =
      (if s.phase = .idle ∧ s.out = none then { s with phase := .header, hcnt := 0, pcnt := 0, stopPending := false }
      else s) ∧
    ∀ ts, stopEnabled s = false → s.sched = .start :: ts → stopDutiesOwed s = false ∨ s.out ≠ none →
      step s = .next (acceptStart { s with sched := ts })

/-- `StopReq` (R250): latched in HEADER and PAYLOAD, whatever OUT, HCNT and PCNT hold and whether one is pending or not;
ignored in IDLE. A turn of CONTROL that offers it is that step, wherever the stop step is not due first. -/
def Obligations.StopReqIsLatched : Prop :=
  ∀ s : State,
    (s.phase = .header ∨ s.phase = .payload → acceptStopReq s = { s with stopPending := true }) ∧
    (s.phase = .idle → acceptStopReq s = s) ∧
    ∀ ts, stopEnabled s = false → s.sched = .stopReq :: ts → step s = .next (acceptStopReq { s with sched := ts })

/-- `Take` (R35): the consumer receives the item, at the end of its record, OUT becomes empty, nothing else changes; with
OUT empty there is nothing to take. -/
def Obligations.TakeEmptiesOut : Prop :=
  ∀ (s : State) (ts : List Turn), s.sched = .take :: ts →
    (∀ it, s.out = some it → step s = .next { s with sched := ts, out := none, sink := s.sink ++ [it] }) ∧
    (s.out = none → stopEnabled s = false → step s = .next { s with sched := ts })

/-- R34: while OUT is full, and in IDLE, no event of SOURCE is consumed: it stays with SOURCE. -/
def Obligations.SourceWaitsWhileBlocked : Prop :=
  ∀ (s : State) (ts : List Turn), s.sched = .source :: ts → (s.out ≠ none ∨ s.phase = .idle) →
    step s = .next { s with sched := ts }

/-! ### The whole machine -/

/-- The invariant holds at reset (R33). -/
def Obligations.InvariantHoldsAtReset : Prop := Inv State.reset

/-- Every step keeps the invariant (R33, R252), from every state that satisfies it. Its last part is R252's: until the sensor
has obeyed the stop command SOURCE has no byte to offer, so that none of those the sensor still sends reaches the block or the
host's next read. -/
def Obligations.EveryStepKeepsTheInvariant : Prop :=
  ∀ s t : State, Inv s → step s = .next t → Inv t

/-- From every state that satisfies the invariant no step faults: no byte of PBUF is read before it is written or
addressed outside the buffer, HCNT is in range, every captured frame decodes (R33 items 2, 3 and 5, R36, R57). The one
step that is refused is the sending of an unlisted command. -/
def Obligations.NoStepFaults : Prop :=
  ∀ s : State, Inv s → (∃ t, step s = .next t) ∨ (∃ b0 b1, step s = .refused (.unlistedCommand b0 b1))

/-- Every step keeps the promise of R154 about the item in OUT: its frame's checksum validated, a PointCloud has HDR[3]
samples and at least one, a HeadingMarker one, every angle is in [0, 360), the frequency is present exactly for a
PointCloud; with the operand ranges of R272. -/
def Obligations.EveryItemWrittenIsSound : Prop :=
  ∀ s t : State, Inv s → OutOk s → step s = .next t → OutOk t

/-- When a frame is complete, XACC is the checksum that the frame's compare computes (R175, R176): in the step that
captures the last byte of a payload, and of a header. -/
def Obligations.XaccAtCompletionIsXor16 : Prop :=
  ∀ (s : State) (b : Byte), Inv s →
    (s.phase = .header → s.hcnt = 9 →
      xaccUpdateHeader s.xacc 9 b = xor16 (covered (s.hdr.set 9 b).toList)) ∧
    (s.phase = .payload → ∀ p, writtenBytes s.pbuf s.pcnt.toNat = some p →
      xaccUpdatePayload s.xacc s.pcnt.toNat b = xor16 (covered (s.hdr.toList ++ (p ++ [b]))))

/-- No step overwrites an item, and none is lost (R31, R257, R280): an item in OUT stays there until SINK takes it, and
SINK's record grows by exactly the items taken. -/
def Obligations.ItemsAreNeverOverwrittenOrLost : Prop :=
  ∀ s t : State, step s = .next t →
    (∀ it, s.out = some it → (t.out = some it ∧ t.sink = s.sink) ∨ (t.out = none ∧ t.sink = s.sink ++ [it])) ∧
    (s.out = none → t.sink = s.sink)

/-- R254: in IDLE no step writes an item; OUT can only be emptied. -/
def Obligations.IdleWritesNoItem : Prop :=
  ∀ s t : State, s.phase = .idle → step s = .next t → t.out = s.out ∨ t.out = none

/-- R288: Idle is left only by a `Start` taken with OUT empty (CONTROL's own, or the one the host gives in the step in
which its negotiation succeeds: that it is the same step is the model's choice, log entry 14), and entered only by the
stop step or by `Closed`, both of which write EndOfStream. Which of them it was is recorded by these steps alone, for the
host's stop duties (R252, R278). -/
def Obligations.ModesAreLeftAndEnteredOnlyAsListed : Prop :=
  ∀ s t : State, step s = .next t →
    (s.phase = .idle → t.phase ≠ .idle →
      s.out = none ∧ t.phase = .header ∧ t.hcnt = 0 ∧ t.pcnt = 0 ∧ t.stopPending = false ∧
        ((∃ ts, s.sched = .start :: ts) ∨
          (∃ ts, s.sched = .hostRead :: ts ∧ s.host.call = some .startScan ∧ t.host.call = none ∧
            t.host.result = some .started))) ∧
    (s.phase ≠ .idle → t.phase = .idle →
      t.out = some .endOfStream ∧ t.stopPending = false ∧
        ((stopEnabled s = true ∧ t.idleByClosed = false) ∨
          ((∃ r, s.rx = .closed :: r) ∧ t.idleByClosed = true))) ∧
    (s.phase = .idle ∨ t.phase ≠ .idle → t.idleByClosed = s.idleByClosed)

/-- R61, R67, R285: an event is offered once and never seen again, and the event sequence of a run is only ever consumed
in order (R18). A step leaves what is still on the line and what has been received alone; or lets the next event of the
line arrive, behind those received, or discards it as it arrives, a byte sent before the sensor has obeyed the stop command
(R252); or takes the first of those received; or, where in Idle, and not after `Closed` (R278), the host sends CMD.STOP or
fails to, or still owes its stop duties when a `Start` is accepted, discards bytes of those received (R252). Nothing is ever
pushed back. The model's choices: bytes alone are discarded, those received at once, and at an accepted `Start` too (log entry
13), and after a failed sending too (log entry 18); and the first received event taken in Idle, by a read of the host, may be a
Timeout, IoFail or Closed as well as a byte (log entry 22). -/
def Obligations.EventsAreConsumedInOrderOnce : Prop :=
  ∀ s t : State, step s = .next t →
    (∃ e, s.line = e :: t.line ∧
      ((t.rx = s.rx ++ [e] ∧ (s.draining = true → ∀ b, e ≠ .byte b)) ∨
        (t.rx = s.rx ∧ s.draining = true ∧ ∃ b, e = .byte b))) ∨
    (t.line = s.line ∧
      (t.rx = s.rx ∨ (∃ e, s.rx = e :: t.rx) ∨
        (s.phase = .idle ∧ s.idleByClosed = false ∧ BytesDiscarded s.rx t.rx ∧
          ((t.tx = s.tx ++ [0xA5, 0x65] ∧ t.host.result = some .stopped) ∨
            (t.tx = s.tx ∧ t.host.result = some .ioError) ∨
            (s.stopOwed = true ∧ t.phase = .header ∧ ∃ ts, s.sched = .start :: ts)))))

/-- R255: with a stop pending the run goes on for at most the frame in progress. Every step keeps the stop pending and
the block scanning, or ends the stream. A step that writes an item puts the block at a frame boundary, where the stop step
is enabled as soon as OUT is empty; and a step from a frame boundary writes no item and stays there (OUT was full: it is
kept or taken), or ends the stream. So at most one item comes before EndOfStream. -/
def Obligations.StopPendingAllowsOneMoreItem : Prop :=
  ∀ s t : State, Inv s → s.phase ≠ .idle → s.stopPending = true → step s = .next t →
    (t.phase ≠ .idle ∧ t.stopPending = true ∧
      (∀ it, s.out = none → t.out = some it →
        t.phase = .header ∧ t.hcnt = 0 ∧ stopEnabled { t with out := none } = true) ∧
      (s.phase = .header → s.hcnt = 0 →
        s.out ≠ none ∧ (t.out = s.out ∨ t.out = none) ∧ t.phase = .header ∧ t.hcnt = 0 ∧
          stopEnabled { t with out := none } = true)) ∨
    (t.phase = .idle ∧ t.out = some .endOfStream)

/-- R233, R334: a command of the host, in whatever mode it is sent, leaves the block as it is: its position, registers,
PBUF byte by byte, flag and OUT. -/
def Obligations.CommandsLeaveTheBlockUntouched : Prop :=
  ∀ (s t : State) (i : Instr), i.place = .command → exec i s = .next t →
    t.phase = s.phase ∧ t.hcnt = s.hcnt ∧ t.pcnt = s.pcnt ∧ t.hdr = s.hdr ∧ (∀ a, t.pbuf.read a = s.pbuf.read a) ∧
    t.xacc = s.xacc ∧ t.stopPending = s.stopPending ∧ t.out = s.out ∧ t.sink = s.sink ∧ t.sched = s.sched ∧ t.idleByClosed = s.idleByClosed

/-- R155: from any fresh frame boundary, the ten header bytes and the payload they announce, offered one byte a step,
make the block write exactly `decode_frame` of those bytes, in the very step that consumes the last of them, and stand
at the frame boundary with no other event consumed. -/
def Obligations.WholeFrameYieldsDecodeFrame : Prop :=
  ∀ (s : State) (h p : List Byte), FreshBoundary s → h.length = 10 → p.length = payloadLength h →
    ∃ t, steps (10 + p.length) (feed .source (h ++ p) s) = .next t ∧
      t.out = some (decodeFrame h p) ∧ t.phase = .header ∧ t.hcnt = 0 ∧ t.pcnt = 0 ∧ t.stopPending = false ∧
      t.rx = s.rx ∧ t.line = s.line ∧ t.sched = s.sched ∧ t.sink = s.sink ∧ t.tx = s.tx ∧ t.sensorScan = s.sensorScan ∧
      t.idleByClosed = s.idleByClosed ∧ t.stopOwed = s.stopOwed ∧ t.draining = s.draining ∧ t.freeIdx = s.freeIdx ∧ t.host = s.host

/-- R64, R147: until its last byte a frame writes no item: after any proper part of the bytes of a frame OUT is still
empty. -/
def Obligations.PartOfAFrameYieldsNothing : Prop :=
  ∀ (s : State) (h p : List Byte) (k : Nat), FreshBoundary s → h.length = 10 → p.length = payloadLength h →
    k < 10 + p.length →
    ∃ t, steps k (feed .source (h ++ p) s) = .next t ∧ t.out = none ∧ t.phase ≠ .idle ∧ t.sink = s.sink

/-- R245, R249: in Idle with OUT empty and no stop duties owed (R252), a host that has sent CMD.START and reads seven
bytes gives the block `Start` exactly when they are a scan acknowledgement in mode Continuous; any other seven bytes
fail the negotiation and leave the block Idle; and so does a Timeout, a failure or the end of the stream before the
seventh byte. That the block has been given `Start` in the very step that reads the seventh byte is the model's choice
(log entry 14), and so is that the failure sends nothing: what has been sent to the sensor is as before (R249 leaves
open whether CMD.STOP follows; log entry 20), and that the event that ends a short response is consumed by the host's read
(log entry 22). -/
def Obligations.NegotiationDecidesTheStart : Prop :=
  ∀ s : State, s.phase = .idle → s.out = none → stopDutiesOwed s = false → s.host.call = some .startScan →
    s.host.rspBuf = [] → s.host.rsp = none →
    (∀ (rsp : List Byte) (e : SrcEvent), rsp.length < 7 → (e = .timeout ∨ e = .ioFail ∨ e = .closed) →
      ∃ t, steps (rsp.length + 1)
          (feed .hostRead rsp { s with rx := e :: s.rx, sched := .hostRead :: s.sched }) = .next t ∧
        t.rx = s.rx ∧ t.sched = s.sched ∧ t.tx = s.tx ∧ t.out = none ∧ t.phase = .idle ∧ t.host.call = none ∧
        t.host.result = some .protocolNegotiationError) ∧
    ∀ rsp : List Byte, rsp.length = 7 → ∃ t, steps 7 (feed .hostRead rsp s) = .next t ∧
      t.rx = s.rx ∧ t.sched = s.sched ∧ t.tx = s.tx ∧ t.out = none ∧ t.host.call = none ∧
      ((rsp.getD 0 0 = 0xA5 ∧ rsp.getD 1 0 = 0x5A ∧ (rsp.getD 5 0).toNat / 64 = 1 ∧ rsp.getD 6 0 = 0x81 ∧
          t.phase = .header ∧ t.hcnt = 0 ∧ t.pcnt = 0 ∧ t.stopPending = false ∧ t.host.result = some .started) ∨
       (¬ (rsp.getD 0 0 = 0xA5 ∧ rsp.getD 1 0 = 0x5A ∧ (rsp.getD 5 0).toNat / 64 = 1 ∧ rsp.getD 6 0 = 0x81) ∧
          t.phase = .idle ∧ t.host.result = some .protocolNegotiationError))
end

