-- ==== Sys2Proof/Laws/Angle.lean ====
section
/-! SUPPORT. The exact arithmetic of angles: the rational operations are those of the rationals, every operation on `Deg` stands for the operation on the reals, and `mod 360` lands in [0, 360) (R14, R206). -/

namespace Sys2Proof.Machine

/-! ### Rationals -/

theorem ratAdd_eq (a b : Rat) : ratAdd a b = a + b := by
  rw [ratAdd, Rat.add_def, Rat.normalize_eq_mkRat]

theorem ratSub_eq (a b : Rat) : ratSub a b = a - b := by
  rw [ratSub, Rat.sub_def, Rat.normalize_eq_mkRat]

theorem ratFrac_eq (a : Rat) (i n : Nat) : ratFrac a i n = a / n * i := by
  rw [ratFrac, Rat.mkRat_eq_div]
  conv_rhs => rw [← Rat.num_div_den a]
  push_cast
  rw [div_mul_eq_mul_div, div_mul_eq_mul_div, div_div]

/-- R14 on a rational. -/
theorem ratMod360_eq (a : Rat) : ratMod360 a = a - 360 * ⌊a / 360⌋ := by
  have hd : (a.den : ℚ) ≠ 0 := by exact_mod_cast a.den_nz
  have hfloor : ⌊a / 360⌋ = a.num / (360 * a.den : Nat) := by
    conv_lhs => rw [← Rat.num_div_den a]
    rw [div_div, show ((a.den : ℚ) * 360) = ((360 * a.den : Nat) : ℚ) by push_cast; ring, Rat.floor_intCast_div_natCast]
  have hmod : ((a.num % ((360 * a.den : Nat) : ℤ) : ℤ) : ℚ) = a.num - (360 * a.den : Nat) * ⌊a / 360⌋ := by
    rw [Int.emod_def, hfloor]; push_cast; ring
  rw [ratMod360, Rat.mkRat_eq_div]
  show ((a.num % ((360 * a.den : Nat) : ℤ) : ℤ) : ℚ) / (a.den : ℤ) = _
  rw [hmod]
  conv_rhs => lhs; rw [← Rat.num_div_den a]
  push_cast
  field_simp

/-! ### Reals -/

/-- R14 with the degrees of a revolution written out. -/
theorem rmod360_eq (x : ℝ) : rmod360 x = x - 360 * ⌊x / 360⌋ := by
  simp [rmod360, Config.fullTurn]

theorem rmod360_nonneg (x : ℝ) : 0 ≤ rmod360 x := by
  have := Int.floor_le (x / 360)
  rw [rmod360_eq]; linarith

theorem rmod360_lt (x : ℝ) : rmod360 x < 360 := by
  have := Int.lt_floor_add_one (x / 360)
  rw [rmod360_eq]; linarith

theorem rmod360_cast (q : Rat) : ((ratMod360 q : ℚ) : ℝ) = rmod360 (q : ℝ) := by
  rw [ratMod360_eq, rmod360_eq]
  push_cast
  rw [show ((q : ℝ) / 360) = ((q / 360 : ℚ) : ℝ) by push_cast; rfl, Rat.floor_cast]

/-- The circle distance of normalised angles is at most the distance of the raw ones, up to whole turns (R210). -/
theorem circleDist_rmod360_le (x y : ℝ) (k : ℤ) : circleDist (rmod360 x) (rmod360 y) ≤ |x - y + 360 * k| := by
  have hx := rmod360_nonneg x
  have hx' := rmod360_lt x
  have hy := rmod360_nonneg y
  have hy' := rmod360_lt y
  obtain ⟨m, hm⟩ : ∃ m : ℤ, x - y + 360 * k = rmod360 x - rmod360 y + 360 * m :=
    ⟨⌊x / 360⌋ - ⌊y / 360⌋ + k, by rw [rmod360_eq, rmod360_eq]; push_cast; ring⟩
  have hf : (Config.fullTurn : ℝ) = 360 := by simp [Config.fullTurn]
  rw [hm, circleDist, hf]
  generalize rmod360 x = a at *
  generalize rmod360 y = b at *
  have hab : |a - b| < 360 := abs_lt.mpr ⟨by linarith, by linarith⟩
  by_cases h0 : m = 0
  · subst h0; simp
  · refine (min_le_right _ _).trans ?_
    have h1 : (1 : ℝ) ≤ |(m : ℝ)| := by exact_mod_cast Int.one_le_abs h0
    have h2 := abs_sub_abs_le_abs_sub (360 * (m : ℝ)) (-(a - b))
    rw [abs_neg, abs_mul, abs_of_pos (by norm_num : (0 : ℝ) < 360), sub_neg_eq_add, add_comm (360 * (m : ℝ))] at h2
    linarith

/-- Normalised angles at circle distance 0 are equal (R210). -/
theorem eq_of_circleDist_le_zero {x y : ℝ} (hx : 0 ≤ x) (hx' : x < 360) (hy : 0 ≤ y) (hy' : y < 360)
    (h : circleDist x y ≤ 0) : x = y := by
  have hab : |x - y| < 360 := abs_lt.mpr ⟨by linarith, by linarith⟩
  have hf : (Config.fullTurn : ℝ) = 360 := by simp [Config.fullTurn]
  rw [circleDist, hf] at h
  rcases min_le_iff.mp h with h | h
  · exact sub_eq_zero.mp (abs_eq_zero.mp (le_antisymm h (abs_nonneg _)))
  · linarith

/-! ### What each operation on `Deg` stands for -/

variable {corr : Corr}

theorem eval_ofCorr (h : corr.Ok) (d : BitVec 14) : (Deg.ofCorr d).eval corr = corr d := by
  unfold Deg.ofCorr
  split
  · next hd => subst hd; rw [Deg.eval, h]; simp
  · rfl

@[simp] theorem eval_plus (a b : Deg) : (a.plus b).eval corr = a.eval corr + b.eval corr := by
  unfold Deg.plus
  split
  · simp [Deg.eval, ratAdd_eq]
  · rfl

@[simp] theorem eval_minus (a b : Deg) : (a.minus b).eval corr = a.eval corr - b.eval corr := by
  unfold Deg.minus
  split
  · simp [Deg.eval, ratSub_eq]
  · rfl

@[simp] theorem eval_share (a : Deg) (i n : Nat) : (a.share i n).eval corr = a.eval corr / (n : ℝ) * (i : ℝ) := by
  unfold Deg.share
  split
  · simp [Deg.eval, ratFrac_eq]
  · rfl

@[simp] theorem eval_wrap (a : Deg) : a.wrap.eval corr = rmod360 (a.eval corr) := by
  unfold Deg.wrap
  split
  · simp only [Deg.eval, rmod360_cast]
  · rfl

/-- A normalised angle is in [0, 360) (R206). -/
theorem wrap_inRange (a : Deg) : a.wrap.InRange := fun corr _ => by
  rw [eval_wrap]; exact ⟨rmod360_nonneg _, rmod360_lt _⟩

theorem interpolate_length (fsa span : Deg) (n i : Nat) (ds : List (BitVec 14)) :
    (interpolate fsa span n i ds).length = ds.length := by
  induction ds generalizing i with
  | nil => rfl
  | cons d ds ih => simp [interpolate, ih]

/-- One angle for each sample (R207). -/
@[simp] theorem angles_length (s e : Rat) (ds : List (BitVec 14)) : (angles s e ds).length = ds.length := by
  match ds with
  | [] => rfl
  | [_] => rfl
  | d :: d' :: ds => exact interpolate_length _ _ _ _ _

end Sys2Proof.Machine
end

