-- ==== Sys2Proof/Laws/Checksum.lean ====
section
/-! SUPPORT. The exclusive-or of bytes in their lanes: how it runs over a concatenation, and how XACC follows it (R172, R174). -/

namespace Sys2Proof.Machine

@[simp] theorem xorFrom_nil (odd : Bool) : xorFrom odd [] = 0 := rfl
@[simp] theorem xorFrom_cons (odd : Bool) (b : Byte) (bs : List Byte) :
    xorFrom odd (b :: bs) = lane odd b ^^^ xorFrom (!odd) bs := rfl

/-- The position parity after `n` more bytes. -/
theorem parity_succ (odd : Bool) (n : Nat) : ((!odd) ^^ (n % 2 == 1)) = (odd ^^ ((n + 1) % 2 == 1)) := by
  rcases Nat.mod_two_eq_zero_or_one n with h | h
  · have h' : (n + 1) % 2 = 1 := by omega
    simp [h, h']
  · have h' : (n + 1) % 2 = 0 := by omega
    simp [h, h']

/-- A concatenation: the second string goes on at the parity the first one ends at. -/
theorem xorFrom_append (odd : Bool) (c d : List Byte) :
    xorFrom odd (c ++ d) = xorFrom odd c ^^^ xorFrom (odd ^^ (c.length % 2 == 1)) d := by
  induction c generalizing odd with
  | nil => simp
  | cons b c ih => rw [List.cons_append, xorFrom_cons, ih, xorFrom_cons, BitVec.xor_assoc, List.length_cons, parity_succ]

theorem xor16_append (c d : List Byte) : xor16 (c ++ d) = xor16 c ^^^ xorFrom (c.length % 2 == 1) d := by
  simp [xor16, xorFrom_append]

/-- One more byte (R174). -/
theorem xor16_snoc (c : List Byte) (b : Byte) : xor16 (c ++ [b]) = xor16 c ^^^ lane (c.length % 2 == 1) b := by
  simp [xor16_append]

/-- The first byte of a frame starts the accumulation afresh (R174). -/
theorem xaccUpdateHeader_zero (x : Word16) (b : Byte) : xaccUpdateHeader x 0 b = xor16 [b] := by
  simp [xaccUpdateHeader, xor16]

/-- Header bytes 1 to 7 (R174). -/
theorem xaccUpdateHeader_mid (c : List Byte) (b : Byte) (h1 : 1 ≤ c.length) (h8 : c.length < 8) :
    xaccUpdateHeader (xor16 c) c.length b = xor16 (c ++ [b]) := by
  have h0 : c.length ≠ 0 := by omega
  have h8' : ¬ 8 ≤ c.length := by omega
  simp [xaccUpdateHeader, h0, h8', xor16_snoc]

/-- Header bytes 8 and 9 are not accumulated (R174). -/
theorem xaccUpdateHeader_checksum (x : Word16) {k : Nat} (b : Byte) (h : 8 ≤ k) : xaccUpdateHeader x k b = x := by
  have h0 : k ≠ 0 := by omega
  simp [xaccUpdateHeader, h0, h]

/-- A payload byte after an even number of covered bytes and `j` payload bytes (R174). -/
theorem xaccUpdatePayload_snoc (c p : List Byte) (b : Byte) (hc : c.length % 2 = 0) :
    xaccUpdatePayload (xor16 (c ++ p)) p.length b = xor16 (c ++ (p ++ [b])) := by
  have hpar : (c ++ p).length % 2 = p.length % 2 := by simp; omega
  rw [← List.append_assoc, xor16_snoc, hpar]; rfl

/-- Two bytes differ in their lanes where they differ. -/
theorem lane_injective (odd : Bool) {a b : Byte} (h : lane odd a = lane odd b) : a = b := by
  cases odd
  · simp only [lane, Bool.false_eq_true, if_false] at h
    apply BitVec.eq_of_toNat_eq
    have := congrArg BitVec.toNat h
    simpa [Nat.mod_eq_of_lt (show a.toNat < 65536 by omega), Nat.mod_eq_of_lt (show b.toNat < 65536 by omega)] using this
  · simp only [lane, if_true] at h
    apply BitVec.eq_of_toNat_eq
    have := congrArg BitVec.toNat h
    simp only [BitVec.toNat_shiftLeft, BitVec.toNat_setWidth, Nat.shiftLeft_eq] at this
    omega

/-- The covered bytes of a frame given as header and payload (R171). -/
theorem covered_append {h p : List Byte} (hl : h.length = 10) : covered (h ++ p) = h.take 8 ++ p := by
  simp [covered, List.take_append_of_le_length (show 8 ≤ h.length by omega), hl, Config.hdrLen]

end Sys2Proof.Machine
end

