-- ==== Sys2Proof/Laws/Decode.lean ====
section
/-! SUPPORT. The small lemmas of the decoder and the encoder: byte and field splitting, the samples of a payload, and which units stand at which place. -/

namespace Sys2Proof

/-! ### The derived constants of R10, as numbers -/

theorem preB0_eq : Config.preB0 = 0xA5 := by decide
theorem preB1_eq : Config.preB1 = 0x5A := by decide
theorem pbufLen_eq : Config.pbufLen = 765 := rfl

/-! ### Splitting and joining fields -/

theorem extract_low {n m : Nat} (x : BitVec n) (y : BitVec m) : (x ++ y).extractLsb' 0 m = y := by
  apply BitVec.eq_of_getLsbD_eq; intro i hi
  simp [BitVec.getLsbD_append, hi]

theorem extract_high {n m : Nat} (x : BitVec n) (y : BitVec m) : (x ++ y).extractLsb' m n = x := by
  apply BitVec.eq_of_getLsbD_eq; intro i hi
  simp [BitVec.getLsbD_append, hi]

theorem append_extract {n m : Nat} (w : BitVec (n + m)) : w.extractLsb' m n ++ w.extractLsb' 0 m = w := by
  apply BitVec.eq_of_getLsbD_eq; intro i hi
  simp only [BitVec.getLsbD_append, BitVec.getLsbD_extractLsb']
  by_cases h : i < m
  · simp [h]
  · have h1 : i - m < n := by omega
    have h2 : m + (i - m) = i := by omega
    simp [h, h1, h2]

@[simp] theorem loByte_le16 (lo hi : Byte) : loByte (le16 lo hi) = lo := extract_low hi lo
@[simp] theorem hiByte_le16 (lo hi : Byte) : hiByte (le16 lo hi) = hi := extract_high hi lo
@[simp] theorem le16_loByte_hiByte (w : Word16) : le16 (loByte w) (hiByte w) = w := append_extract (n := 8) (m := 8) w
@[simp] theorem codeFlag_angleCode (a : BitVec 15) (f : BitVec 1) : codeFlag (angleCode a f) = f := extract_low a f
@[simp] theorem codeAngle_angleCode (a : BitVec 15) (f : BitVec 1) : codeAngle (angleCode a f) = a := extract_high a f
@[simp] theorem angleCode_codeAngle_codeFlag (w : Word16) : angleCode (codeAngle w) (codeFlag w) = w :=
  append_extract (n := 15) (m := 1) w

/-- The masked and shifted fields of R82 and R87 as bit ranges. -/
theorem typeBit_eq (b : Byte) : typeBit b = b.extractLsb' 0 1 := by revert b; decide
theorem freqField_eq (b : Byte) : freqField b = b.extractLsb' 1 7 := by revert b; decide
theorem sizeField_eq (b : Byte) : sizeField b = b.extractLsb' 0 6 := by revert b; decide

@[simp] theorem typeBit_append (f : BitVec 7) (t : BitVec 1) : typeBit (f ++ t) = t :=
  (typeBit_eq _).trans (extract_low f t)
@[simp] theorem freqField_append (f : BitVec 7) (t : BitVec 1) : freqField (f ++ t) = f :=
  (freqField_eq _).trans (extract_high f t)
@[simp] theorem freqField_append_typeBit (b : Byte) : freqField b ++ typeBit b = b := by
  rw [freqField_eq, typeBit_eq]; exact append_extract (n := 7) (m := 1) b

@[simp] theorem sizeField_append (hi : BitVec 2) (lo : BitVec 6) : sizeField (hi ++ lo) = lo :=
  (sizeField_eq _).trans (extract_low hi lo)

@[simp] theorem topField_append (hi : BitVec 2) (lo : BitVec 6) : topField (hi ++ lo) = hi := extract_high hi lo

@[simp] theorem topField_append_sizeField (b : Byte) : topField b ++ sizeField b = b := by
  rw [sizeField_eq]; exact append_extract (n := 2) (m := 6) b

@[simp] theorem topField_append_low (b : Byte) : topField b ++ b.extractLsb' 0 6 = b := append_extract (n := 2) (m := 6) b

/-- The preamble check by bytes (R124). -/
theorem le16_eq_preamble (b0 b1 : Byte) : le16 b0 b1 = Config.preamble ↔ b0 = Config.preB0 ∧ b1 = Config.preB1 := by
  constructor
  · intro h
    have h0 := congrArg loByte h
    have h1 := congrArg hiByte h
    rw [loByte_le16] at h0
    rw [hiByte_le16] at h1
    exact ⟨h0.trans (by decide), h1.trans (by decide)⟩
  · rintro ⟨rfl, rfl⟩; decide

/-- A type bit is 0 or 1. -/
theorem typeBit_ne_one (b : Byte) : typeBit b ≠ 1 ↔ typeBit b = 0 := by
  revert b; decide

/-! ### The samples of a payload -/

@[simp] theorem payloadBytes_length (ss : List RawSample) : (payloadBytes ss).length = 3 * ss.length := by
  induction ss with
  | nil => rfl
  | cons r rs ih => simp [payloadBytes, RawSample.bytes, ih]; omega

theorem takeSamples_payloadBytes (ss : List RawSample) (rest : List Byte) :
    takeSamples ss.length (payloadBytes ss ++ rest) = some (ss, rest) := by
  induction ss with
  | nil => rfl
  | cons r rs ih => simp [payloadBytes, RawSample.bytes, takeSamples, ih]

theorem takeSamples_eq_some {n : Nat} {bs rest : List Byte} {ss : List RawSample}
    (h : takeSamples n bs = some (ss, rest)) : ss.length = n ∧ bs = payloadBytes ss ++ rest := by
  induction n generalizing bs ss with
  | zero => simp only [takeSamples, Option.some.injEq, Prod.mk.injEq] at h; obtain ⟨rfl, rfl⟩ := h; exact ⟨rfl, rfl⟩
  | succ n ih =>
    match bs, h with
    | b0 :: b1 :: b2 :: bs, h =>
      simp only [takeSamples] at h
      split at h
      · next ss' rest' hs =>
        simp only [Option.some.injEq, Prod.mk.injEq] at h
        obtain ⟨rfl, rfl⟩ := h
        obtain ⟨hl, hb⟩ := ih hs
        exact ⟨by simp [hl], by simp [payloadBytes, RawSample.bytes, hb]⟩
      · cases h
    | [], h => simp [takeSamples] at h
    | [_], h => simp [takeSamples] at h
    | [_, _], h => simp [takeSamples] at h

theorem takeSamples_eq_none {n : Nat} {bs : List Byte} (h : takeSamples n bs = none) : bs.length < 3 * n := by
  induction n generalizing bs with
  | zero => simp [takeSamples] at h
  | succ n ih =>
    match bs, h with
    | b0 :: b1 :: b2 :: bs, h =>
      simp only [takeSamples] at h
      split at h
      · cases h
      · next hs => have := ih hs; simp only [List.length_cons]; omega
    | [], _ => simp
    | [_], _ => simp only [List.length_cons, List.length_nil]; omega
    | [_, _], _ => simp only [List.length_cons, List.length_nil]; omega

/-! ### Which units a place has -/

/-- The units of format SCAN (R81, R84): what the scan decoder can answer, and from which bytes. -/
theorem decodeScan_ok {bs rest : List Byte} {i : Instr} (h : decodeScan bs = .ok (i, rest)) :
    (∃ hd, i = .scanHm hd ∧ bs = encodeHeader 1 hd ++ rest) ∨
      (∃ hd ss, i = .scanPc hd ss ∧ ss.length = hd.sampleCount.toNat ∧
        bs = encodeHeader 0 hd ++ payloadBytes ss ++ rest) := by
  unfold decodeScan at h
  split at h
  · next b0 b1 b2 b3 b4 b5 b6 b7 b8 b9 rest' =>
    split at h
    · cases h
    next hpre =>
    obtain ⟨rfl, rfl⟩ := (le16_eq_preamble b0 b1).mp (not_not.mp hpre)
    have henc : ∀ t : BitVec 1, typeBit b2 = t → ∀ l : List Byte,
        Config.preB0 :: Config.preB1 :: b2 :: b3 :: b4 :: b5 :: b6 :: b7 :: b8 :: b9 :: l =
          encodeHeader t (scanHeaderOf b2 b3 b4 b5 b6 b7 b8 b9) ++ l := by
      rintro t rfl l
      simp only [encodeHeader, scanHeaderOf, angleCode_codeAngle_codeFlag, loByte_le16, hiByte_le16,
        freqField_append_typeBit, List.cons_append, List.nil_append]
      rfl
    split at h
    · next ht => cases h; exact .inl ⟨_, rfl, henc 1 ht _⟩
    · next ht =>
      split at h
      · next ss rest'' hss =>
        cases h
        obtain ⟨hl, rfl⟩ := takeSamples_eq_some hss
        exact .inr ⟨_, _, rfl, hl, by rw [henc 0 ((typeBit_ne_one b2).mp ht), List.append_assoc]⟩
      · cases h
  · cases h

/-- A scan header with a good preamble and its announced payload always decodes. -/
theorem decodeScan_header (b2 b3 b4 b5 b6 b7 b8 b9 : Byte) (ss : List RawSample) (rest : List Byte)
    (hn : typeBit b2 = 0 → ss.length = b3.toNat) (h1 : typeBit b2 = 1 → ss = []) :
    decodeScan (Config.preB0 :: Config.preB1 :: b2 :: b3 :: b4 :: b5 :: b6 :: b7 :: b8 :: b9 ::
        (payloadBytes ss ++ rest)) =
      .ok (if typeBit b2 = 1 then .scanHm (scanHeaderOf b2 b3 b4 b5 b6 b7 b8 b9)
        else .scanPc (scanHeaderOf b2 b3 b4 b5 b6 b7 b8 b9) ss, rest) := by
  have hp : le16 Config.preB0 Config.preB1 = Config.preamble := by decide
  by_cases ht : typeBit b2 = 1
  · simp [decodeScan, hp, ht, h1 ht, payloadBytes]
  · have hl := hn ((typeBit_ne_one b2).mp ht)
    simp only [decodeScan, hp, ne_eq, not_true_eq_false, if_false, ht, ← hl, takeSamples_payloadBytes]

/-- The units of format CMD (R86): the five commands. -/
theorem decodeCommand_ok {bs rest : List Byte} {i : Instr} (h : decodeCommand bs = .ok (i, rest)) :
    (i = .cmdStart ∨ i = .cmdStop ∨ i = .cmdDevinfo ∨ i = .cmdHealth ∨ i = .cmdReset) ∧ bs = encode i ++ rest := by
  unfold decodeCommand at h
  split at h
  · split at h
    · cases h
    next hs =>
    have hs := not_not.mp hs
    repeat' split at h
    all_goals first
      | (cases h; done)
      | (next hop => cases h; subst hs hop; exact ⟨by simp, rfl⟩)
  · cases h

/-- The units of format RSP (R87): the three response headers. -/
theorem decodeResponse_ok {bs rest : List Byte} {i : Instr} (h : decodeResponse bs = .ok (i, rest)) :
    (∃ f, i = .rspScanack f ∨ i = .rspDevinfo f ∨ i = .rspHealth f) ∧ bs = encode i ++ rest := by
  unfold decodeResponse at h
  split at h
  · next b0 b1 b2 b3 b4 b5 b6 rest' =>
    split at h
    · cases h
    next hpre =>
    obtain ⟨rfl, rfl⟩ := (le16_eq_preamble b0 b1).mp (not_not.mp hpre)
    have henc : ∀ l : List Byte, Config.preB0 :: Config.preB1 :: b2 :: b3 :: b4 :: b5 :: b6 :: l =
        encodeResponse b6 (rspFieldsOf b2 b3 b4 b5) ++ l := by
      intro l
      simp only [encodeResponse, rspFieldsOf, topField_append_sizeField, topField_append_low, List.cons_append, List.nil_append]
      rfl
    repeat' split at h
    all_goals first
      | (cases h; done)
      | (next hop => cases h; refine ⟨⟨rspFieldsOf b2 b3 b4 b5, by simp⟩, ?_⟩; rw [henc, hop]; rfl)
  · cases h

end Sys2Proof
end

