-- ==== Sys2Proof/Laws/State.lean ====
section
/-! SUPPORT. Each named update of the state, field by field: what it writes and that it leaves every other field as it is, so that no later proof unfolds a record update. -/

namespace Sys2Proof.Machine

variable (s : State)

/-! ### emit -/

@[simp] theorem emit_phase (it : Item) : (emit it s).phase = s.phase := rfl
@[simp] theorem emit_hcnt (it : Item) : (emit it s).hcnt = s.hcnt := rfl
@[simp] theorem emit_pcnt (it : Item) : (emit it s).pcnt = s.pcnt := rfl
@[simp] theorem emit_hdr (it : Item) : (emit it s).hdr = s.hdr := rfl
@[simp] theorem emit_pbuf (it : Item) : (emit it s).pbuf = s.pbuf := rfl
@[simp] theorem emit_xacc (it : Item) : (emit it s).xacc = s.xacc := rfl
@[simp] theorem emit_stopPending (it : Item) : (emit it s).stopPending = s.stopPending := rfl
@[simp] theorem emit_out (it : Item) : (emit it s).out = some it := rfl
@[simp] theorem emit_decoded (it : Item) : (emit it s).decoded = s.decoded := rfl
@[simp] theorem emit_rx (it : Item) : (emit it s).rx = s.rx := rfl
@[simp] theorem emit_line (it : Item) : (emit it s).line = s.line := rfl
@[simp] theorem emit_sched (it : Item) : (emit it s).sched = s.sched := rfl
@[simp] theorem emit_sink (it : Item) : (emit it s).sink = s.sink := rfl
@[simp] theorem emit_tx (it : Item) : (emit it s).tx = s.tx := rfl
@[simp] theorem emit_sensorScan (it : Item) : (emit it s).sensorScan = s.sensorScan := rfl
@[simp] theorem emit_idleByClosed (it : Item) : (emit it s).idleByClosed = s.idleByClosed := rfl
@[simp] theorem emit_draining (it : Item) : (emit it s).draining = s.draining := rfl
@[simp] theorem emit_stopOwed (it : Item) : (emit it s).stopOwed = s.stopOwed := rfl
@[simp] theorem emit_freeIdx (it : Item) : (emit it s).freeIdx = s.freeIdx := rfl
@[simp] theorem emit_host (it : Item) : (emit it s).host = s.host := rfl

/-! ### toBoundary -/

@[simp] theorem toBoundary_phase : (toBoundary s).phase = .header := rfl
@[simp] theorem toBoundary_hcnt : (toBoundary s).hcnt = 0 := rfl
@[simp] theorem toBoundary_pcnt : (toBoundary s).pcnt = 0 := rfl
@[simp] theorem toBoundary_hdr : (toBoundary s).hdr = s.hdr := rfl
@[simp] theorem toBoundary_pbuf : (toBoundary s).pbuf = s.pbuf := rfl
@[simp] theorem toBoundary_xacc : (toBoundary s).xacc = s.xacc := rfl
@[simp] theorem toBoundary_stopPending : (toBoundary s).stopPending = s.stopPending := rfl
@[simp] theorem toBoundary_out : (toBoundary s).out = s.out := rfl
@[simp] theorem toBoundary_decoded : (toBoundary s).decoded = s.decoded := rfl
@[simp] theorem toBoundary_rx : (toBoundary s).rx = s.rx := rfl
@[simp] theorem toBoundary_line : (toBoundary s).line = s.line := rfl
@[simp] theorem toBoundary_sched : (toBoundary s).sched = s.sched := rfl
@[simp] theorem toBoundary_sink : (toBoundary s).sink = s.sink := rfl
@[simp] theorem toBoundary_tx : (toBoundary s).tx = s.tx := rfl
@[simp] theorem toBoundary_sensorScan : (toBoundary s).sensorScan = s.sensorScan := rfl
@[simp] theorem toBoundary_idleByClosed : (toBoundary s).idleByClosed = s.idleByClosed := rfl
@[simp] theorem toBoundary_draining : (toBoundary s).draining = s.draining := rfl
@[simp] theorem toBoundary_stopOwed : (toBoundary s).stopOwed = s.stopOwed := rfl
@[simp] theorem toBoundary_freeIdx : (toBoundary s).freeIdx = s.freeIdx := rfl
@[simp] theorem toBoundary_host : (toBoundary s).host = s.host := rfl

/-! ### clearDecoded -/

@[simp] theorem clearDecoded_phase : (clearDecoded s).phase = s.phase := rfl
@[simp] theorem clearDecoded_hcnt : (clearDecoded s).hcnt = s.hcnt := rfl
@[simp] theorem clearDecoded_pcnt : (clearDecoded s).pcnt = s.pcnt := rfl
@[simp] theorem clearDecoded_hdr : (clearDecoded s).hdr = s.hdr := rfl
@[simp] theorem clearDecoded_pbuf : (clearDecoded s).pbuf = s.pbuf := rfl
@[simp] theorem clearDecoded_xacc : (clearDecoded s).xacc = s.xacc := rfl
@[simp] theorem clearDecoded_stopPending : (clearDecoded s).stopPending = s.stopPending := rfl
@[simp] theorem clearDecoded_out : (clearDecoded s).out = s.out := rfl
@[simp] theorem clearDecoded_decoded : (clearDecoded s).decoded = [] := rfl
@[simp] theorem clearDecoded_rx : (clearDecoded s).rx = s.rx := rfl
@[simp] theorem clearDecoded_line : (clearDecoded s).line = s.line := rfl
@[simp] theorem clearDecoded_sched : (clearDecoded s).sched = s.sched := rfl
@[simp] theorem clearDecoded_sink : (clearDecoded s).sink = s.sink := rfl
@[simp] theorem clearDecoded_tx : (clearDecoded s).tx = s.tx := rfl
@[simp] theorem clearDecoded_sensorScan : (clearDecoded s).sensorScan = s.sensorScan := rfl
@[simp] theorem clearDecoded_idleByClosed : (clearDecoded s).idleByClosed = s.idleByClosed := rfl
@[simp] theorem clearDecoded_draining : (clearDecoded s).draining = s.draining := rfl
@[simp] theorem clearDecoded_stopOwed : (clearDecoded s).stopOwed = s.stopOwed := rfl
@[simp] theorem clearDecoded_freeIdx : (clearDecoded s).freeIdx = s.freeIdx := rfl
@[simp] theorem clearDecoded_host : (clearDecoded s).host = s.host := rfl

/-! ### pushDecoded -/

@[simp] theorem pushDecoded_phase (p : BitVec 10 × BitVec 14) : (pushDecoded p s).phase = s.phase := rfl
@[simp] theorem pushDecoded_hcnt (p : BitVec 10 × BitVec 14) : (pushDecoded p s).hcnt = s.hcnt := rfl
@[simp] theorem pushDecoded_pcnt (p : BitVec 10 × BitVec 14) : (pushDecoded p s).pcnt = s.pcnt := rfl
@[simp] theorem pushDecoded_hdr (p : BitVec 10 × BitVec 14) : (pushDecoded p s).hdr = s.hdr := rfl
@[simp] theorem pushDecoded_pbuf (p : BitVec 10 × BitVec 14) : (pushDecoded p s).pbuf = s.pbuf := rfl
@[simp] theorem pushDecoded_xacc (p : BitVec 10 × BitVec 14) : (pushDecoded p s).xacc = s.xacc := rfl
@[simp] theorem pushDecoded_stopPending (p : BitVec 10 × BitVec 14) : (pushDecoded p s).stopPending = s.stopPending := rfl
@[simp] theorem pushDecoded_out (p : BitVec 10 × BitVec 14) : (pushDecoded p s).out = s.out := rfl
@[simp] theorem pushDecoded_decoded (p : BitVec 10 × BitVec 14) : (pushDecoded p s).decoded = s.decoded ++ [p] := rfl
@[simp] theorem pushDecoded_rx (p : BitVec 10 × BitVec 14) : (pushDecoded p s).rx = s.rx := rfl
@[simp] theorem pushDecoded_line (p : BitVec 10 × BitVec 14) : (pushDecoded p s).line = s.line := rfl
@[simp] theorem pushDecoded_sched (p : BitVec 10 × BitVec 14) : (pushDecoded p s).sched = s.sched := rfl
@[simp] theorem pushDecoded_sink (p : BitVec 10 × BitVec 14) : (pushDecoded p s).sink = s.sink := rfl
@[simp] theorem pushDecoded_tx (p : BitVec 10 × BitVec 14) : (pushDecoded p s).tx = s.tx := rfl
@[simp] theorem pushDecoded_sensorScan (p : BitVec 10 × BitVec 14) : (pushDecoded p s).sensorScan = s.sensorScan := rfl
@[simp] theorem pushDecoded_idleByClosed (p : BitVec 10 × BitVec 14) : (pushDecoded p s).idleByClosed = s.idleByClosed := rfl
@[simp] theorem pushDecoded_draining (p : BitVec 10 × BitVec 14) : (pushDecoded p s).draining = s.draining := rfl
@[simp] theorem pushDecoded_stopOwed (p : BitVec 10 × BitVec 14) : (pushDecoded p s).stopOwed = s.stopOwed := rfl
@[simp] theorem pushDecoded_freeIdx (p : BitVec 10 × BitVec 14) : (pushDecoded p s).freeIdx = s.freeIdx := rfl
@[simp] theorem pushDecoded_host (p : BitVec 10 × BitVec 14) : (pushDecoded p s).host = s.host := rfl

/-! ### setStopPending -/

@[simp] theorem setStopPending_phase : (setStopPending s).phase = s.phase := rfl
@[simp] theorem setStopPending_hcnt : (setStopPending s).hcnt = s.hcnt := rfl
@[simp] theorem setStopPending_pcnt : (setStopPending s).pcnt = s.pcnt := rfl
@[simp] theorem setStopPending_hdr : (setStopPending s).hdr = s.hdr := rfl
@[simp] theorem setStopPending_pbuf : (setStopPending s).pbuf = s.pbuf := rfl
@[simp] theorem setStopPending_xacc : (setStopPending s).xacc = s.xacc := rfl
@[simp] theorem setStopPending_stopPending : (setStopPending s).stopPending = true := rfl
@[simp] theorem setStopPending_out : (setStopPending s).out = s.out := rfl
@[simp] theorem setStopPending_decoded : (setStopPending s).decoded = s.decoded := rfl
@[simp] theorem setStopPending_rx : (setStopPending s).rx = s.rx := rfl
@[simp] theorem setStopPending_line : (setStopPending s).line = s.line := rfl
@[simp] theorem setStopPending_sched : (setStopPending s).sched = s.sched := rfl
@[simp] theorem setStopPending_sink : (setStopPending s).sink = s.sink := rfl
@[simp] theorem setStopPending_tx : (setStopPending s).tx = s.tx := rfl
@[simp] theorem setStopPending_sensorScan : (setStopPending s).sensorScan = s.sensorScan := rfl
@[simp] theorem setStopPending_idleByClosed : (setStopPending s).idleByClosed = s.idleByClosed := rfl
@[simp] theorem setStopPending_draining : (setStopPending s).draining = s.draining := rfl
@[simp] theorem setStopPending_stopOwed : (setStopPending s).stopOwed = s.stopOwed := rfl
@[simp] theorem setStopPending_freeIdx : (setStopPending s).freeIdx = s.freeIdx := rfl
@[simp] theorem setStopPending_host : (setStopPending s).host = s.host := rfl

/-! ### clearStopPending -/

@[simp] theorem clearStopPending_phase : (clearStopPending s).phase = s.phase := rfl
@[simp] theorem clearStopPending_hcnt : (clearStopPending s).hcnt = s.hcnt := rfl
@[simp] theorem clearStopPending_pcnt : (clearStopPending s).pcnt = s.pcnt := rfl
@[simp] theorem clearStopPending_hdr : (clearStopPending s).hdr = s.hdr := rfl
@[simp] theorem clearStopPending_pbuf : (clearStopPending s).pbuf = s.pbuf := rfl
@[simp] theorem clearStopPending_xacc : (clearStopPending s).xacc = s.xacc := rfl
@[simp] theorem clearStopPending_stopPending : (clearStopPending s).stopPending = false := rfl
@[simp] theorem clearStopPending_out : (clearStopPending s).out = s.out := rfl
@[simp] theorem clearStopPending_decoded : (clearStopPending s).decoded = s.decoded := rfl
@[simp] theorem clearStopPending_rx : (clearStopPending s).rx = s.rx := rfl
@[simp] theorem clearStopPending_line : (clearStopPending s).line = s.line := rfl
@[simp] theorem clearStopPending_sched : (clearStopPending s).sched = s.sched := rfl
@[simp] theorem clearStopPending_sink : (clearStopPending s).sink = s.sink := rfl
@[simp] theorem clearStopPending_tx : (clearStopPending s).tx = s.tx := rfl
@[simp] theorem clearStopPending_sensorScan : (clearStopPending s).sensorScan = s.sensorScan := rfl
@[simp] theorem clearStopPending_idleByClosed : (clearStopPending s).idleByClosed = s.idleByClosed := rfl
@[simp] theorem clearStopPending_draining : (clearStopPending s).draining = s.draining := rfl
@[simp] theorem clearStopPending_stopOwed : (clearStopPending s).stopOwed = s.stopOwed := rfl
@[simp] theorem clearStopPending_freeIdx : (clearStopPending s).freeIdx = s.freeIdx := rfl
@[simp] theorem clearStopPending_host : (clearStopPending s).host = s.host := rfl

/-! ### transmit -/

@[simp] theorem transmit_phase (op : Byte) : (transmit op s).phase = s.phase := rfl
@[simp] theorem transmit_hcnt (op : Byte) : (transmit op s).hcnt = s.hcnt := rfl
@[simp] theorem transmit_pcnt (op : Byte) : (transmit op s).pcnt = s.pcnt := rfl
@[simp] theorem transmit_hdr (op : Byte) : (transmit op s).hdr = s.hdr := rfl
@[simp] theorem transmit_pbuf (op : Byte) : (transmit op s).pbuf = s.pbuf := rfl
@[simp] theorem transmit_xacc (op : Byte) : (transmit op s).xacc = s.xacc := rfl
@[simp] theorem transmit_stopPending (op : Byte) : (transmit op s).stopPending = s.stopPending := rfl
@[simp] theorem transmit_out (op : Byte) : (transmit op s).out = s.out := rfl
@[simp] theorem transmit_decoded (op : Byte) : (transmit op s).decoded = s.decoded := rfl
@[simp] theorem transmit_rx (op : Byte) : (transmit op s).rx = s.rx := rfl
@[simp] theorem transmit_line (op : Byte) : (transmit op s).line = s.line := rfl
@[simp] theorem transmit_sched (op : Byte) : (transmit op s).sched = s.sched := rfl
@[simp] theorem transmit_sink (op : Byte) : (transmit op s).sink = s.sink := rfl
@[simp] theorem transmit_tx (op : Byte) : (transmit op s).tx = s.tx ++ [Config.cmdSync, op] := rfl
@[simp] theorem transmit_sensorScan (op : Byte) : (transmit op s).sensorScan = s.sensorScan := rfl
@[simp] theorem transmit_idleByClosed (op : Byte) : (transmit op s).idleByClosed = s.idleByClosed := rfl
@[simp] theorem transmit_draining (op : Byte) : (transmit op s).draining = s.draining := rfl
@[simp] theorem transmit_stopOwed (op : Byte) : (transmit op s).stopOwed = s.stopOwed := rfl
@[simp] theorem transmit_freeIdx (op : Byte) : (transmit op s).freeIdx = s.freeIdx := rfl
@[simp] theorem transmit_host (op : Byte) : (transmit op s).host = s.host := rfl

/-! ### setSensor -/

@[simp] theorem setSensor_phase (scan : Bool) : (setSensor scan s).phase = s.phase := rfl
@[simp] theorem setSensor_hcnt (scan : Bool) : (setSensor scan s).hcnt = s.hcnt := rfl
@[simp] theorem setSensor_pcnt (scan : Bool) : (setSensor scan s).pcnt = s.pcnt := rfl
@[simp] theorem setSensor_hdr (scan : Bool) : (setSensor scan s).hdr = s.hdr := rfl
@[simp] theorem setSensor_pbuf (scan : Bool) : (setSensor scan s).pbuf = s.pbuf := rfl
@[simp] theorem setSensor_xacc (scan : Bool) : (setSensor scan s).xacc = s.xacc := rfl
@[simp] theorem setSensor_stopPending (scan : Bool) : (setSensor scan s).stopPending = s.stopPending := rfl
@[simp] theorem setSensor_out (scan : Bool) : (setSensor scan s).out = s.out := rfl
@[simp] theorem setSensor_decoded (scan : Bool) : (setSensor scan s).decoded = s.decoded := rfl
@[simp] theorem setSensor_rx (scan : Bool) : (setSensor scan s).rx = s.rx := rfl
@[simp] theorem setSensor_line (scan : Bool) : (setSensor scan s).line = s.line := rfl
@[simp] theorem setSensor_sched (scan : Bool) : (setSensor scan s).sched = s.sched := rfl
@[simp] theorem setSensor_sink (scan : Bool) : (setSensor scan s).sink = s.sink := rfl
@[simp] theorem setSensor_tx (scan : Bool) : (setSensor scan s).tx = s.tx := rfl
@[simp] theorem setSensor_sensorScan (scan : Bool) : (setSensor scan s).sensorScan = scan := rfl
@[simp] theorem setSensor_idleByClosed (scan : Bool) : (setSensor scan s).idleByClosed = s.idleByClosed := rfl
@[simp] theorem setSensor_draining (scan : Bool) : (setSensor scan s).draining = s.draining := rfl
@[simp] theorem setSensor_stopOwed (scan : Bool) : (setSensor scan s).stopOwed = s.stopOwed := rfl
@[simp] theorem setSensor_freeIdx (scan : Bool) : (setSensor scan s).freeIdx = s.freeIdx := rfl
@[simp] theorem setSensor_host (scan : Bool) : (setSensor scan s).host = s.host := rfl

/-! ### nextFree -/

@[simp] theorem nextFree_phase : (nextFree s).phase = s.phase := rfl
@[simp] theorem nextFree_hcnt : (nextFree s).hcnt = s.hcnt := rfl
@[simp] theorem nextFree_pcnt : (nextFree s).pcnt = s.pcnt := rfl
@[simp] theorem nextFree_hdr : (nextFree s).hdr = s.hdr := rfl
@[simp] theorem nextFree_pbuf : (nextFree s).pbuf = s.pbuf := rfl
@[simp] theorem nextFree_xacc : (nextFree s).xacc = s.xacc := rfl
@[simp] theorem nextFree_stopPending : (nextFree s).stopPending = s.stopPending := rfl
@[simp] theorem nextFree_out : (nextFree s).out = s.out := rfl
@[simp] theorem nextFree_decoded : (nextFree s).decoded = s.decoded := rfl
@[simp] theorem nextFree_rx : (nextFree s).rx = s.rx := rfl
@[simp] theorem nextFree_line : (nextFree s).line = s.line := rfl
@[simp] theorem nextFree_sched : (nextFree s).sched = s.sched := rfl
@[simp] theorem nextFree_sink : (nextFree s).sink = s.sink := rfl
@[simp] theorem nextFree_tx : (nextFree s).tx = s.tx := rfl
@[simp] theorem nextFree_sensorScan : (nextFree s).sensorScan = s.sensorScan := rfl
@[simp] theorem nextFree_idleByClosed : (nextFree s).idleByClosed = s.idleByClosed := rfl
@[simp] theorem nextFree_draining : (nextFree s).draining = s.draining := rfl
@[simp] theorem nextFree_stopOwed : (nextFree s).stopOwed = s.stopOwed := rfl
@[simp] theorem nextFree_freeIdx : (nextFree s).freeIdx = s.freeIdx + 1 := rfl
@[simp] theorem nextFree_host : (nextFree s).host = s.host := rfl

/-! ### flushRx -/

@[simp] theorem flushRx_phase : (flushRx s).phase = s.phase := rfl
@[simp] theorem flushRx_hcnt : (flushRx s).hcnt = s.hcnt := rfl
@[simp] theorem flushRx_pcnt : (flushRx s).pcnt = s.pcnt := rfl
@[simp] theorem flushRx_hdr : (flushRx s).hdr = s.hdr := rfl
@[simp] theorem flushRx_pbuf : (flushRx s).pbuf = s.pbuf := rfl
@[simp] theorem flushRx_xacc : (flushRx s).xacc = s.xacc := rfl
@[simp] theorem flushRx_stopPending : (flushRx s).stopPending = s.stopPending := rfl
@[simp] theorem flushRx_out : (flushRx s).out = s.out := rfl
@[simp] theorem flushRx_decoded : (flushRx s).decoded = s.decoded := rfl
@[simp] theorem flushRx_rx : (flushRx s).rx = s.rx.filter (fun e => !e.isByte) := rfl
@[simp] theorem flushRx_line : (flushRx s).line = s.line := rfl
@[simp] theorem flushRx_sched : (flushRx s).sched = s.sched := rfl
@[simp] theorem flushRx_sink : (flushRx s).sink = s.sink := rfl
@[simp] theorem flushRx_tx : (flushRx s).tx = s.tx := rfl
@[simp] theorem flushRx_sensorScan : (flushRx s).sensorScan = s.sensorScan := rfl
@[simp] theorem flushRx_idleByClosed : (flushRx s).idleByClosed = s.idleByClosed := rfl
@[simp] theorem flushRx_draining : (flushRx s).draining = s.draining := rfl
@[simp] theorem flushRx_stopOwed : (flushRx s).stopOwed = s.stopOwed := rfl
@[simp] theorem flushRx_freeIdx : (flushRx s).freeIdx = s.freeIdx := rfl
@[simp] theorem flushRx_host : (flushRx s).host = s.host := rfl

/-! ### stopDutiesDone -/

@[simp] theorem stopDutiesDone_phase (drain : Bool) : (stopDutiesDone drain s).phase = s.phase := rfl
@[simp] theorem stopDutiesDone_hcnt (drain : Bool) : (stopDutiesDone drain s).hcnt = s.hcnt := rfl
@[simp] theorem stopDutiesDone_pcnt (drain : Bool) : (stopDutiesDone drain s).pcnt = s.pcnt := rfl
@[simp] theorem stopDutiesDone_hdr (drain : Bool) : (stopDutiesDone drain s).hdr = s.hdr := rfl
@[simp] theorem stopDutiesDone_pbuf (drain : Bool) : (stopDutiesDone drain s).pbuf = s.pbuf := rfl
@[simp] theorem stopDutiesDone_xacc (drain : Bool) : (stopDutiesDone drain s).xacc = s.xacc := rfl
@[simp] theorem stopDutiesDone_stopPending (drain : Bool) : (stopDutiesDone drain s).stopPending = s.stopPending := rfl
@[simp] theorem stopDutiesDone_out (drain : Bool) : (stopDutiesDone drain s).out = s.out := rfl
@[simp] theorem stopDutiesDone_decoded (drain : Bool) : (stopDutiesDone drain s).decoded = s.decoded := rfl
@[simp] theorem stopDutiesDone_rx (drain : Bool) : (stopDutiesDone drain s).rx = s.rx := rfl
@[simp] theorem stopDutiesDone_line (drain : Bool) : (stopDutiesDone drain s).line = s.line := rfl
@[simp] theorem stopDutiesDone_sched (drain : Bool) : (stopDutiesDone drain s).sched = s.sched := rfl
@[simp] theorem stopDutiesDone_sink (drain : Bool) : (stopDutiesDone drain s).sink = s.sink := rfl
@[simp] theorem stopDutiesDone_tx (drain : Bool) : (stopDutiesDone drain s).tx = s.tx := rfl
@[simp] theorem stopDutiesDone_sensorScan (drain : Bool) : (stopDutiesDone drain s).sensorScan = s.sensorScan := rfl
@[simp] theorem stopDutiesDone_idleByClosed (drain : Bool) : (stopDutiesDone drain s).idleByClosed = s.idleByClosed := rfl
@[simp] theorem stopDutiesDone_draining (drain : Bool) : (stopDutiesDone drain s).draining = (drain || s.draining) := rfl
@[simp] theorem stopDutiesDone_stopOwed (drain : Bool) : (stopDutiesDone drain s).stopOwed = false := rfl
@[simp] theorem stopDutiesDone_freeIdx (drain : Bool) : (stopDutiesDone drain s).freeIdx = s.freeIdx := rfl
@[simp] theorem stopDutiesDone_host (drain : Bool) : (stopDutiesDone drain s).host = s.host := rfl

/-! ### stopObeyed -/

@[simp] theorem stopObeyed_phase : (stopObeyed s).phase = s.phase := rfl
@[simp] theorem stopObeyed_hcnt : (stopObeyed s).hcnt = s.hcnt := rfl
@[simp] theorem stopObeyed_pcnt : (stopObeyed s).pcnt = s.pcnt := rfl
@[simp] theorem stopObeyed_hdr : (stopObeyed s).hdr = s.hdr := rfl
@[simp] theorem stopObeyed_pbuf : (stopObeyed s).pbuf = s.pbuf := rfl
@[simp] theorem stopObeyed_xacc : (stopObeyed s).xacc = s.xacc := rfl
@[simp] theorem stopObeyed_stopPending : (stopObeyed s).stopPending = s.stopPending := rfl
@[simp] theorem stopObeyed_out : (stopObeyed s).out = s.out := rfl
@[simp] theorem stopObeyed_decoded : (stopObeyed s).decoded = s.decoded := rfl
@[simp] theorem stopObeyed_rx : (stopObeyed s).rx = s.rx := rfl
@[simp] theorem stopObeyed_line : (stopObeyed s).line = s.line := rfl
@[simp] theorem stopObeyed_sched : (stopObeyed s).sched = s.sched := rfl
@[simp] theorem stopObeyed_sink : (stopObeyed s).sink = s.sink := rfl
@[simp] theorem stopObeyed_tx : (stopObeyed s).tx = s.tx := rfl
@[simp] theorem stopObeyed_sensorScan : (stopObeyed s).sensorScan = s.sensorScan := rfl
@[simp] theorem stopObeyed_idleByClosed : (stopObeyed s).idleByClosed = s.idleByClosed := rfl
@[simp] theorem stopObeyed_draining : (stopObeyed s).draining = false := rfl
@[simp] theorem stopObeyed_stopOwed : (stopObeyed s).stopOwed = s.stopOwed := rfl
@[simp] theorem stopObeyed_freeIdx : (stopObeyed s).freeIdx = s.freeIdx := rfl
@[simp] theorem stopObeyed_host : (stopObeyed s).host = s.host := rfl

/-! ### setCall -/

@[simp] theorem setCall_phase (c : HostCall) : (setCall c s).phase = s.phase := rfl
@[simp] theorem setCall_hcnt (c : HostCall) : (setCall c s).hcnt = s.hcnt := rfl
@[simp] theorem setCall_pcnt (c : HostCall) : (setCall c s).pcnt = s.pcnt := rfl
@[simp] theorem setCall_hdr (c : HostCall) : (setCall c s).hdr = s.hdr := rfl
@[simp] theorem setCall_pbuf (c : HostCall) : (setCall c s).pbuf = s.pbuf := rfl
@[simp] theorem setCall_xacc (c : HostCall) : (setCall c s).xacc = s.xacc := rfl
@[simp] theorem setCall_stopPending (c : HostCall) : (setCall c s).stopPending = s.stopPending := rfl
@[simp] theorem setCall_out (c : HostCall) : (setCall c s).out = s.out := rfl
@[simp] theorem setCall_decoded (c : HostCall) : (setCall c s).decoded = s.decoded := rfl
@[simp] theorem setCall_rx (c : HostCall) : (setCall c s).rx = s.rx := rfl
@[simp] theorem setCall_line (c : HostCall) : (setCall c s).line = s.line := rfl
@[simp] theorem setCall_sched (c : HostCall) : (setCall c s).sched = s.sched := rfl
@[simp] theorem setCall_sink (c : HostCall) : (setCall c s).sink = s.sink := rfl
@[simp] theorem setCall_tx (c : HostCall) : (setCall c s).tx = s.tx := rfl
@[simp] theorem setCall_sensorScan (c : HostCall) : (setCall c s).sensorScan = s.sensorScan := rfl
@[simp] theorem setCall_idleByClosed (c : HostCall) : (setCall c s).idleByClosed = s.idleByClosed := rfl
@[simp] theorem setCall_draining (c : HostCall) : (setCall c s).draining = s.draining := rfl
@[simp] theorem setCall_stopOwed (c : HostCall) : (setCall c s).stopOwed = s.stopOwed := rfl
@[simp] theorem setCall_freeIdx (c : HostCall) : (setCall c s).freeIdx = s.freeIdx := rfl
@[simp] theorem setCall_host (c : HostCall) : (setCall c s).host = { s.host with call := some c, rspBuf := [], rsp := none, payload := [], result := none } := rfl

/-! ### dropCall -/

@[simp] theorem dropCall_phase : (dropCall s).phase = s.phase := rfl
@[simp] theorem dropCall_hcnt : (dropCall s).hcnt = s.hcnt := rfl
@[simp] theorem dropCall_pcnt : (dropCall s).pcnt = s.pcnt := rfl
@[simp] theorem dropCall_hdr : (dropCall s).hdr = s.hdr := rfl
@[simp] theorem dropCall_pbuf : (dropCall s).pbuf = s.pbuf := rfl
@[simp] theorem dropCall_xacc : (dropCall s).xacc = s.xacc := rfl
@[simp] theorem dropCall_stopPending : (dropCall s).stopPending = s.stopPending := rfl
@[simp] theorem dropCall_out : (dropCall s).out = s.out := rfl
@[simp] theorem dropCall_decoded : (dropCall s).decoded = s.decoded := rfl
@[simp] theorem dropCall_rx : (dropCall s).rx = s.rx := rfl
@[simp] theorem dropCall_line : (dropCall s).line = s.line := rfl
@[simp] theorem dropCall_sched : (dropCall s).sched = s.sched := rfl
@[simp] theorem dropCall_sink : (dropCall s).sink = s.sink := rfl
@[simp] theorem dropCall_tx : (dropCall s).tx = s.tx := rfl
@[simp] theorem dropCall_sensorScan : (dropCall s).sensorScan = s.sensorScan := rfl
@[simp] theorem dropCall_idleByClosed : (dropCall s).idleByClosed = s.idleByClosed := rfl
@[simp] theorem dropCall_draining : (dropCall s).draining = s.draining := rfl
@[simp] theorem dropCall_stopOwed : (dropCall s).stopOwed = s.stopOwed := rfl
@[simp] theorem dropCall_freeIdx : (dropCall s).freeIdx = s.freeIdx := rfl
@[simp] theorem dropCall_host : (dropCall s).host = { s.host with call := none, rspBuf := [], rsp := none, payload := [] } := rfl

/-! ### finishCall -/

@[simp] theorem finishCall_phase (r : CallResult) : (finishCall r s).phase = s.phase := rfl
@[simp] theorem finishCall_hcnt (r : CallResult) : (finishCall r s).hcnt = s.hcnt := rfl
@[simp] theorem finishCall_pcnt (r : CallResult) : (finishCall r s).pcnt = s.pcnt := rfl
@[simp] theorem finishCall_hdr (r : CallResult) : (finishCall r s).hdr = s.hdr := rfl
@[simp] theorem finishCall_pbuf (r : CallResult) : (finishCall r s).pbuf = s.pbuf := rfl
@[simp] theorem finishCall_xacc (r : CallResult) : (finishCall r s).xacc = s.xacc := rfl
@[simp] theorem finishCall_stopPending (r : CallResult) : (finishCall r s).stopPending = s.stopPending := rfl
@[simp] theorem finishCall_out (r : CallResult) : (finishCall r s).out = s.out := rfl
@[simp] theorem finishCall_decoded (r : CallResult) : (finishCall r s).decoded = s.decoded := rfl
@[simp] theorem finishCall_rx (r : CallResult) : (finishCall r s).rx = s.rx := rfl
@[simp] theorem finishCall_line (r : CallResult) : (finishCall r s).line = s.line := rfl
@[simp] theorem finishCall_sched (r : CallResult) : (finishCall r s).sched = s.sched := rfl
@[simp] theorem finishCall_sink (r : CallResult) : (finishCall r s).sink = s.sink := rfl
@[simp] theorem finishCall_tx (r : CallResult) : (finishCall r s).tx = s.tx := rfl
@[simp] theorem finishCall_sensorScan (r : CallResult) : (finishCall r s).sensorScan = s.sensorScan := rfl
@[simp] theorem finishCall_idleByClosed (r : CallResult) : (finishCall r s).idleByClosed = s.idleByClosed := rfl
@[simp] theorem finishCall_draining (r : CallResult) : (finishCall r s).draining = s.draining := rfl
@[simp] theorem finishCall_stopOwed (r : CallResult) : (finishCall r s).stopOwed = s.stopOwed := rfl
@[simp] theorem finishCall_freeIdx (r : CallResult) : (finishCall r s).freeIdx = s.freeIdx := rfl
@[simp] theorem finishCall_host (r : CallResult) : (finishCall r s).host = { s.host with call := none, rspBuf := [], rsp := none, payload := [], result := some r } := rfl

/-! ### captureHeader -/

@[simp] theorem captureHeader_phase (k : Nat) (hk : k < Config.hdrLen) (b : Byte) : (captureHeader k hk b s).phase = s.phase := rfl
@[simp] theorem captureHeader_hcnt (k : Nat) (hk : k < Config.hdrLen) (b : Byte) : (captureHeader k hk b s).hcnt = s.hcnt := rfl
@[simp] theorem captureHeader_pcnt (k : Nat) (hk : k < Config.hdrLen) (b : Byte) : (captureHeader k hk b s).pcnt = s.pcnt := rfl
@[simp] theorem captureHeader_hdr (k : Nat) (hk : k < Config.hdrLen) (b : Byte) : (captureHeader k hk b s).hdr = s.hdr.set k b hk := rfl
@[simp] theorem captureHeader_pbuf (k : Nat) (hk : k < Config.hdrLen) (b : Byte) : (captureHeader k hk b s).pbuf = s.pbuf := rfl
@[simp] theorem captureHeader_xacc (k : Nat) (hk : k < Config.hdrLen) (b : Byte) : (captureHeader k hk b s).xacc = xaccUpdateHeader s.xacc k b := rfl
@[simp] theorem captureHeader_stopPending (k : Nat) (hk : k < Config.hdrLen) (b : Byte) : (captureHeader k hk b s).stopPending = s.stopPending := rfl
@[simp] theorem captureHeader_out (k : Nat) (hk : k < Config.hdrLen) (b : Byte) : (captureHeader k hk b s).out = s.out := rfl
@[simp] theorem captureHeader_decoded (k : Nat) (hk : k < Config.hdrLen) (b : Byte) : (captureHeader k hk b s).decoded = s.decoded := rfl
@[simp] theorem captureHeader_rx (k : Nat) (hk : k < Config.hdrLen) (b : Byte) : (captureHeader k hk b s).rx = s.rx := rfl
@[simp] theorem captureHeader_line (k : Nat) (hk : k < Config.hdrLen) (b : Byte) : (captureHeader k hk b s).line = s.line := rfl
@[simp] theorem captureHeader_sched (k : Nat) (hk : k < Config.hdrLen) (b : Byte) : (captureHeader k hk b s).sched = s.sched := rfl
@[simp] theorem captureHeader_sink (k : Nat) (hk : k < Config.hdrLen) (b : Byte) : (captureHeader k hk b s).sink = s.sink := rfl
@[simp] theorem captureHeader_tx (k : Nat) (hk : k < Config.hdrLen) (b : Byte) : (captureHeader k hk b s).tx = s.tx := rfl
@[simp] theorem captureHeader_sensorScan (k : Nat) (hk : k < Config.hdrLen) (b : Byte) : (captureHeader k hk b s).sensorScan = s.sensorScan := rfl
@[simp] theorem captureHeader_idleByClosed (k : Nat) (hk : k < Config.hdrLen) (b : Byte) : (captureHeader k hk b s).idleByClosed = s.idleByClosed := rfl
@[simp] theorem captureHeader_draining (k : Nat) (hk : k < Config.hdrLen) (b : Byte) : (captureHeader k hk b s).draining = s.draining := rfl
@[simp] theorem captureHeader_stopOwed (k : Nat) (hk : k < Config.hdrLen) (b : Byte) : (captureHeader k hk b s).stopOwed = s.stopOwed := rfl
@[simp] theorem captureHeader_freeIdx (k : Nat) (hk : k < Config.hdrLen) (b : Byte) : (captureHeader k hk b s).freeIdx = s.freeIdx := rfl
@[simp] theorem captureHeader_host (k : Nat) (hk : k < Config.hdrLen) (b : Byte) : (captureHeader k hk b s).host = s.host := rfl

/-! ### raiseErr, endStream, stopStep: what each is, in one record (R280, R278, R251) -/

theorem raiseErr_eq (e : Err) :
    raiseErr e s = { s with out := some (.error e), phase := .header, hcnt := 0, pcnt := 0 } := rfl

theorem endStream_eq :
    endStream s = { s with out := some .endOfStream, phase := .idle, hcnt := 0, pcnt := 0, stopPending := false,
                           idleByClosed := true, stopOwed := false } := rfl

theorem stopStep_eq :
    stopStep s = { s with out := some .endOfStream, phase := .idle, stopPending := false, idleByClosed := false,
                          stopOwed := true } := rfl

end Sys2Proof.Machine
end

