-- ==== Sys2Proof/Laws/Meanings.lean ====
section
/-! SUPPORT. Each meaning in closed form: the next state it answers, written out once, so that later proofs cite it and do not unfold the meaning. -/

namespace Sys2Proof.Machine

variable (s : State)

/-- The loop of R146 in closed form. -/
theorem decodeAll_eq (ss : List RawSample) (s : State) :
    decodeAll ss s = { s with decoded := s.decoded ++ ss.map sampleDecode } := by
  induction ss generalizing s with
  | nil => simp [decodeAll]
  | cons r rs ih => simp [decodeAll, ih, decodeInto, pushDecoded]

/-- SCAN.PC in closed form (R146, R152). -/
theorem execScanPc_eq (h : ScanHeader) (ss : List RawSample) :
    execScanPc h ss s = .next
      (if h.sampleCount = 0 then raiseErr .emptyPointCloud s
      else if checksumGood (encode (.scanPc h ss)) h.checksum then
        { s with out := some (.packet (pointCloudPacket h (ss.map sampleDecode))), phase := .header, hcnt := 0,
                 pcnt := 0, decoded := [] }
      else raiseErr .checksumError s) := by
  unfold execScanPc
  split
  · rfl
  · split <;> simp [decodeAll_eq, toBoundary, clearDecoded, emit]

/-- SCAN.HM in closed form (R150). -/
theorem execScanHm_eq (h : ScanHeader) :
    execScanHm h s = .next
      (if checksumGood (encode (.scanHm h)) h.checksum then { s with out := some (.packet (headingMarkerPacket h)) }
      else raiseErr .checksumError s) := by
  unfold execScanHm
  split <;> rfl

/-- The host's side of the state: everything an action of the host may change outside the block (R6, R233). -/
structure SameBlock (s t : State) : Prop where
  phase : t.phase = s.phase
  hcnt : t.hcnt = s.hcnt
  pcnt : t.pcnt = s.pcnt
  hdr : t.hdr = s.hdr
  pbuf : t.pbuf = s.pbuf
  xacc : t.xacc = s.xacc
  stopPending : t.stopPending = s.stopPending
  out : t.out = s.out
  decoded : t.decoded = s.decoded
  sink : t.sink = s.sink
  idleByClosed : t.idleByClosed = s.idleByClosed

theorem SameBlock.refl : SameBlock s s := ⟨rfl, rfl, rfl, rfl, rfl, rfl, rfl, rfl, rfl, rfl, rfl⟩

theorem SameBlock.env (r l : List SrcEvent) (q : List Turn) (h : HostSide) :
    SameBlock s { s with rx := r, line := l, sched := q, host := h } := ⟨rfl, rfl, rfl, rfl, rfl, rfl, rfl, rfl, rfl, rfl, rfl⟩

variable {s}

theorem SameBlock.trans {t u : State} (h : SameBlock s t) (k : SameBlock t u) : SameBlock s u :=
  ⟨k.phase.trans h.phase, k.hcnt.trans h.hcnt, k.pcnt.trans h.pcnt, k.hdr.trans h.hdr, k.pbuf.trans h.pbuf,
    k.xacc.trans h.xacc, k.stopPending.trans h.stopPending, k.out.trans h.out, k.decoded.trans h.decoded,
    k.sink.trans h.sink, k.idleByClosed.trans h.idleByClosed⟩

/-- The link between the host and SOURCE: what has been received, what has still to arrive, the turns to come, and where the
host stands with its stop duties (R252). -/
structure SameLink (s t : State) : Prop where
  rx : t.rx = s.rx
  line : t.line = s.line
  sched : t.sched = s.sched
  draining : t.draining = s.draining
  stopOwed : t.stopOwed = s.stopOwed

theorem SameLink.refl (s : State) : SameLink s s := ⟨rfl, rfl, rfl, rfl, rfl⟩

/-- What a sending of the host does to the link: nothing is on it that was not, and of the received events either all are
kept or, where the stop duties are done, the bytes are gone (R252). -/
structure SentLink (s t : State) : Prop where
  line : t.line = s.line
  sched : t.sched = s.sched
  rx : (t.rx = s.rx ∧ t.draining = s.draining) ∨
    (s.phase = .idle ∧ s.idleByClosed = false ∧ t.rx = s.rx.filter (fun e => !e.isByte))

theorem SameLink.sent {t : State} (h : SameLink s t) : SentLink s t := ⟨h.line, h.sched, .inl ⟨h.rx, h.draining⟩⟩

theorem beginCall_sameLink (c : HostCall) (s : State) : SameLink s (beginCall c s) := by
  unfold beginCall; split <;> exact ⟨rfl, rfl, rfl, rfl, rfl⟩

theorem beginCall_sameBlock (c : HostCall) (s : State) : SameBlock s (beginCall c s) := by
  unfold beginCall; split <;> exact ⟨rfl, rfl, rfl, rfl, rfl, rfl, rfl, rfl, rfl, rfl, rfl⟩

/-- The stop duties are due exactly in Idle, and not after `Closed` (R252, R278). -/
theorem stopDutiesDue_iff (s : State) : stopDutiesDue s = true ↔ s.phase = .idle ∧ s.idleByClosed = false := by
  simp [stopDutiesDue]

/-- The host owes its stop duties exactly where they are due and a stop step has been taken since it last did them (R252). -/
theorem stopDutiesOwed_iff (s : State) :
    stopDutiesOwed s = true ↔ s.phase = .idle ∧ s.idleByClosed = false ∧ s.stopOwed = true := by
  simp [stopDutiesOwed, stopDutiesDue, and_assoc]

/-- The stop duties (R252): where they are due the received bytes are gone, the result is surfaced, and the bytes still to
arrive are discarded if the stop command has been sent; else nothing. -/
theorem stopDuties_cases (r : CallResult) (drain : Bool) (s : State) :
    (stopDutiesDue s = true ∧ stopDuties r drain s = stopDutiesDone drain (flushRx (finishCall r s))) ∨
    (¬ stopDutiesDue s = true ∧ stopDuties r drain s = s) := by
  unfold stopDuties
  split
  · next h => exact .inl ⟨h, rfl⟩
  · next h => exact .inr ⟨h, rfl⟩

theorem stopDuties_sentLink (r : CallResult) (drain : Bool) (s : State) : SentLink s (stopDuties r drain s) := by
  rcases stopDuties_cases r drain s with ⟨h, he⟩ | ⟨_, he⟩ <;> rw [he]
  · obtain ⟨hp, hc⟩ := (stopDutiesDue_iff s).mp h
    exact ⟨rfl, rfl, .inr ⟨hp, hc, rfl⟩⟩
  · exact ⟨rfl, rfl, .inl ⟨rfl, rfl⟩⟩

theorem stopDuties_sameBlock (r : CallResult) (drain : Bool) (s : State) : SameBlock s (stopDuties r drain s) := by
  rcases stopDuties_cases r drain s with ⟨_, h⟩ | ⟨_, h⟩ <;> rw [h] <;>
    exact ⟨rfl, rfl, rfl, rfl, rfl, rfl, rfl, rfl, rfl, rfl, rfl⟩

theorem expectPayload_sameLink (hdr : RspHeader) (s : State) : SameLink s (expectPayload hdr s) := by
  unfold expectPayload; split <;> exact ⟨rfl, rfl, rfl, rfl, rfl⟩

theorem payloadByte_sameLink (hdr : RspHeader) (b : Byte) (s : State) : SameLink s (payloadByte hdr b s) := by
  unfold payloadByte; dsimp only; split <;> exact ⟨rfl, rfl, rfl, rfl, rfl⟩

theorem otherResponse_sameLink (hdr : RspHeader) (s : State) : SameLink s (otherResponse hdr s) := by
  unfold otherResponse
  split
  · exact ⟨rfl, rfl, rfl, rfl, rfl⟩
  · exact expectPayload_sameLink _ _

theorem responseFailed_sameLink (s : State) : SameLink s (responseFailed s) := by
  unfold responseFailed; split <;> exact ⟨rfl, rfl, rfl, rfl, rfl⟩

theorem acceptStart_sameLink (s : State) : SameLink s (acceptStart s) := by
  unfold acceptStart; split <;> exact ⟨rfl, rfl, rfl, rfl, rfl⟩

theorem expectPayload_sameBlock (hdr : RspHeader) (s : State) : SameBlock s (expectPayload hdr s) := by
  unfold expectPayload; split <;> exact ⟨rfl, rfl, rfl, rfl, rfl, rfl, rfl, rfl, rfl, rfl, rfl⟩

theorem payloadByte_sameBlock (hdr : RspHeader) (b : Byte) (s : State) : SameBlock s (payloadByte hdr b s) := by
  unfold payloadByte; dsimp only; split <;> exact ⟨rfl, rfl, rfl, rfl, rfl, rfl, rfl, rfl, rfl, rfl, rfl⟩

theorem finishCall_sameBlock (r : CallResult) (s : State) : SameBlock s (finishCall r s) :=
  ⟨rfl, rfl, rfl, rfl, rfl, rfl, rfl, rfl, rfl, rfl, rfl⟩

theorem otherResponse_sameBlock (hdr : RspHeader) (s : State) : SameBlock s (otherResponse hdr s) := by
  unfold otherResponse
  split
  · exact finishCall_sameBlock _ _
  · exact expectPayload_sameBlock _ _

theorem responseFailed_sameBlock (s : State) : SameBlock s (responseFailed s) := by
  unfold responseFailed; split <;> exact ⟨rfl, rfl, rfl, rfl, rfl, rfl, rfl, rfl, rfl, rfl, rfl⟩

/-- What an accepted or ignored `Start` does (R248). -/
theorem acceptStart_cases (s : State) :
    (s.phase = .idle ∧ s.out = none ∧
      acceptStart s = { s with phase := .header, hcnt := 0, pcnt := 0, stopPending := false }) ∨
    (¬ (s.phase = .idle ∧ s.out = none) ∧ acceptStart s = s) := by
  unfold acceptStart
  split
  · next h => exact .inl ⟨h.1, h.2, rfl⟩
  · next h => exact .inr ⟨h, rfl⟩

/-- The five commands complete, and leave the block as it is (R233, R334). -/
theorem execCommand_sameBlock {i : Instr} (hi : i = .cmdStart ∨ i = .cmdStop ∨ i = .cmdDevinfo ∨ i = .cmdHealth ∨ i = .cmdReset)
    (s : State) : ∃ t, exec i s = .next t ∧ SameBlock s t ∧ SentLink s t := by
  rcases hi with rfl | rfl | rfl | rfl | rfl
  · have h := (beginCall_sameLink .startScan (setSensor true (transmit Config.opStart s))).sent
    exact ⟨_, rfl, (SameBlock.trans (t := setSensor true (transmit Config.opStart s))
      ⟨rfl, rfl, rfl, rfl, rfl, rfl, rfl, rfl, rfl, rfl, rfl⟩ (beginCall_sameBlock _ _)), h.line, h.sched, h.rx⟩
  · have h := stopDuties_sentLink .stopped true (setSensor false (transmit Config.opStop s))
    exact ⟨_, rfl, SameBlock.trans (t := setSensor false (transmit Config.opStop s))
      ⟨rfl, rfl, rfl, rfl, rfl, rfl, rfl, rfl, rfl, rfl, rfl⟩ (stopDuties_sameBlock _ _ _), h.line, h.sched, h.rx⟩
  · have h := (beginCall_sameLink .deviceInfo (transmit Config.opDevinfo s)).sent
    exact ⟨_, rfl, (SameBlock.trans (t := transmit Config.opDevinfo s)
      ⟨rfl, rfl, rfl, rfl, rfl, rfl, rfl, rfl, rfl, rfl, rfl⟩ (beginCall_sameBlock _ _)), h.line, h.sched, h.rx⟩
  · have h := (beginCall_sameLink .healthStatus (transmit Config.opHealth s)).sent
    exact ⟨_, rfl, (SameBlock.trans (t := transmit Config.opHealth s)
      ⟨rfl, rfl, rfl, rfl, rfl, rfl, rfl, rfl, rfl, rfl, rfl⟩ (beginCall_sameBlock _ _)), h.line, h.sched, h.rx⟩
  · exact ⟨_, rfl, ⟨rfl, rfl, rfl, rfl, rfl, rfl, rfl, rfl, rfl, rfl, rfl⟩, rfl, rfl, .inl ⟨rfl, rfl⟩⟩

/-- The three response headers complete and leave the link as it is; only the scan acknowledgement can touch the block, by
giving `Start` (R245). -/
theorem execResponse_cases {i : Instr} {f : RspFields} (hi : i = .rspScanack f ∨ i = .rspDevinfo f ∨ i = .rspHealth f)
    (s : State) : ∃ t, exec i s = .next t ∧ SameLink s t ∧
      (SameBlock s t ∨ (s.phase = .idle ∧ s.out = none ∧ t = acceptStart (finishCall .started s))) := by
  rcases hi with rfl | rfl | rfl
  · simp only [exec, execRspScanack]
    split
    · split
      · have hl := acceptStart_sameLink (finishCall .started s)
        refine ⟨_, rfl, ⟨hl.rx, hl.line, hl.sched, hl.draining, hl.stopOwed⟩, ?_⟩
        rcases acceptStart_cases (finishCall .started s) with ⟨hp, ho, _⟩ | ⟨_, he⟩
        · exact .inr ⟨hp, ho, rfl⟩
        · refine .inl ?_
          rw [negotiated, he]; exact finishCall_sameBlock _ _
      · exact ⟨_, rfl, ⟨rfl, rfl, rfl, rfl, rfl⟩, .inl (finishCall_sameBlock _ _)⟩
    · exact ⟨_, rfl, ⟨rfl, rfl, rfl, rfl, rfl⟩, .inl (finishCall_sameBlock _ _)⟩
  · exact ⟨_, rfl, otherResponse_sameLink _ _, .inl (otherResponse_sameBlock _ _)⟩
  · exact ⟨_, rfl, otherResponse_sameLink _ _, .inl (otherResponse_sameBlock _ _)⟩

end Sys2Proof.Machine
end

