-- ==== Sys2Proof/Laws/Memory.lean ====
section
/-! SUPPORT. PBUF: a read after a write, the canonical form kept by every write, and what the two reads the block makes can answer (R57, R58). -/

namespace Sys2Proof.Machine

/-! ### One byte -/

@[simp] theorem Memory.read_write_same (m : Memory) (a : Nat) (v : Byte) : (m.write a v).read a = some v := by
  induction m with
  | nil => simp [Memory.write, Memory.read]
  | cons c m ih =>
    obtain ⟨b, w⟩ := c
    simp only [Memory.write]
    split
    · simp [Memory.read]
    · split <;> simp_all [Memory.read]

theorem Memory.read_write_other (m : Memory) {a x : Nat} (v : Byte) (h : x ≠ a) :
    (m.write a v).read x = m.read x := by
  induction m with
  | nil => simp [Memory.write, Memory.read, h, Memory.unlisted]
  | cons c m ih =>
    obtain ⟨b, w⟩ := c
    simp only [Memory.write]
    split
    · simp [Memory.read, h]
    · split
      · next hab => subst hab; simp [Memory.read, h]
      · simp [Memory.read, ih]

theorem Memory.mem_write {m : Memory} {a : Nat} {v : Byte} {c : Host.Cell} (h : c ∈ m.write a v) :
    c = (a, v) ∨ c ∈ m := by
  induction m with
  | nil => simpa [Memory.write] using h
  | cons d m ih =>
    obtain ⟨b, w⟩ := d
    simp only [Memory.write] at h
    split at h
    · simpa using h
    · split at h
      · simp only [List.mem_cons] at h ⊢
        exact h.imp id Or.inr
      · simp only [List.mem_cons] at h ⊢
        rcases h with h | h
        · exact .inr (.inl h)
        · exact (ih h).imp id Or.inr

theorem Memory.wf_nil : Memory.wf [] := by simp [Memory.wf]

/-- A write inside the buffer keeps the canonical form. -/
theorem Memory.wf_write {m : Memory} {a : Nat} (v : Byte) (hm : m.wf) (ha : a < Config.pbufLen) : (m.write a v).wf := by
  obtain ⟨hp, hb⟩ := hm
  refine ⟨?_, fun c hc => ?_⟩
  · clear hb
    induction m with
    | nil => simp [Memory.write]
    | cons d m ih =>
      obtain ⟨b, w⟩ := d
      obtain ⟨hd, hrest⟩ := List.pairwise_cons.mp hp
      simp only [Memory.write]
      split
      · next hab =>
        refine List.pairwise_cons.mpr ⟨fun c hc => ?_, List.pairwise_cons.mpr ⟨hd, hrest⟩⟩
        rcases List.mem_cons.mp hc with rfl | hc
        · exact hab
        · exact lt_trans hab (hd c hc)
      · split
        · next hab => subst hab; exact List.pairwise_cons.mpr ⟨hd, hrest⟩
        · refine List.pairwise_cons.mpr ⟨fun c hc => ?_, ih hrest⟩
          rcases Memory.mem_write hc with rfl | hc
          · show b < a; omega
          · exact hd c hc
  · rcases Memory.mem_write hc with rfl | hc
    · exact ha
    · exact hb c hc

/-- What `memWrite` answers (R57). -/
theorem memWrite_ok {m m' : Memory} {a : Nat} {v : Byte} (h : memWrite m a v = .ok m') :
    a < Config.pbufLen ∧ m' = m.write a v := by
  simp only [memWrite] at h
  split at h
  · next ha => exact ⟨ha, (Except.ok.inj h).symm⟩
  · cases h

theorem memWrite_eq {m : Memory} {a : Nat} (v : Byte) (h : a < Config.pbufLen) :
    memWrite m a v = .ok (m.write a v) := by simp [memWrite, h]

/-- What `memReadByte` answers (R58). -/
theorem memReadByte_ok {m : Memory} {a : Nat} {v : Byte} (h : memReadByte m a = .ok v) :
    a < Config.pbufLen ∧ m.read a = some v := by
  simp only [memReadByte] at h
  split at h
  · next ha =>
    split at h
    · next w hw => exact ⟨ha, by rw [hw, Except.ok.inj h]⟩
    · cases h
  · cases h

theorem memReadByte_eq {m : Memory} {a : Nat} {v : Byte} (ha : a < Config.pbufLen) (h : m.read a = some v) :
    memReadByte m a = .ok v := by simp [memReadByte, ha, h]

/-! ### The samples of a frame -/

/-- Passing over the bytes below an address leaves every read from it upward as it was. -/
theorem Memory.read_above (m : Memory) {a x : Nat} (h : a ≤ x) : (m.above a).read x = m.read x := by
  induction m with
  | nil => rfl
  | cons c m ih =>
    obtain ⟨b, w⟩ := c
    by_cases hb : b < a
    · have hx : x ≠ b := by omega
      simp only [Memory.above, List.dropWhile, hb, decide_true, Memory.read, hx, if_false]
      exact ih
    · simp [Memory.above, List.dropWhile, hb]

theorem memRead3_above (m : Memory) {a x : Nat} (h : a ≤ x) : memRead3 (m.above a) x = memRead3 m x := by
  simp only [memRead3, memReadByte, Memory.read_above m h, Memory.read_above m (show a ≤ x + 1 by omega),
    Memory.read_above m (show a ≤ x + 2 by omega)]

/-- `memReadSamples` reads sample i, i+1, … of `m`, whatever it passes over. -/
theorem memReadSamples_above (m : Memory) {a : Nat} (i n : Nat) (h : a ≤ 3 * i) :
    memReadSamples (m.above a) i n = memReadSamples m i n := by
  induction n generalizing m a i with
  | zero => rfl
  | succ n ih =>
    have habove : (m.above a).above (3 * (i + 1)) = m.above (3 * (i + 1)) := by
      clear ih
      induction m with
      | nil => rfl
      | cons c m ihm =>
        by_cases hc : c.1 < a
        · have hc' : c.1 < 3 * (i + 1) := by omega
          simp only [Memory.above, List.dropWhile, hc, hc', decide_true] at ihm ⊢
          exact ihm
        · simp [Memory.above, List.dropWhile, hc]
    simp only [memReadSamples, Config.sampleLen, memRead3_above m h, habove]

/-- The samples one by one: `memReadSamples` without the passing over. -/
theorem memReadSamples_succ (m : Memory) (i n : Nat) :
    memReadSamples m i (n + 1) =
      (match memRead3 m (3 * i) with
      | .error f => .error f
      | .ok r =>
        match memReadSamples m (i + 1) n with
        | .error f => .error f
        | .ok rs => .ok (r :: rs)) := by
  simp only [memReadSamples, Config.sampleLen, memReadSamples_above m (i + 1) n (le_refl _)]
  all_goals rfl

/-- Reading N samples gives N of them. -/
theorem memReadSamples_length {m : Memory} {i n : Nat} {rs : List RawSample} (h : memReadSamples m i n = .ok rs) :
    rs.length = n := by
  induction n generalizing i rs with
  | zero => cases h; rfl
  | succ n ih =>
    rw [memReadSamples_succ] at h
    split at h
    · cases h
    · split at h
      · cases h
      · next hrs => cases h; simp [ih hrs]

end Sys2Proof.Machine
end

