-- ==== Sys2Proof/Laws/PerInstr.lean ====
section
/-! SUPPORT. Statements made per instruction. Family `EncodeLength`: a well-formed unit has on the wire exactly the length that its format gives it (R80, R88). -/

namespace Sys2Proof.Laws.EncodeLength

/-- The encoding of a well-formed unit is as long as its format says (R80, R88). -/
def Statement (i : Instr) : Prop := i.WellFormed → (encode i).length = i.lengthBytes

theorem scanPc (h : ScanHeader) (ss : List RawSample) : Statement (.scanPc h ss) := by
  intro hw
  have hl : ss.length = h.sampleCount.toNat := by simpa [Instr.WellFormed, Instr.wellFormed] using hw
  simp [encode, encodeHeader, Instr.lengthBytes, Config.hdrLen, Config.sampleLen, hl]; omega

theorem scanHm (h : ScanHeader) : Statement (.scanHm h) := fun _ => rfl
theorem sample (raw : RawSample) : Statement (.sample raw) := fun _ => rfl
theorem cmdStart : Statement .cmdStart := fun _ => rfl
theorem cmdStop : Statement .cmdStop := fun _ => rfl
theorem cmdDevinfo : Statement .cmdDevinfo := fun _ => rfl
theorem cmdHealth : Statement .cmdHealth := fun _ => rfl
theorem cmdReset : Statement .cmdReset := fun _ => rfl
theorem rspScanack (f : RspFields) : Statement (.rspScanack f) := fun _ => rfl
theorem rspDevinfo (f : RspFields) : Statement (.rspDevinfo f) := fun _ => rfl
theorem rspHealth (f : RspFields) : Statement (.rspHealth f) := fun _ => rfl

end Sys2Proof.Laws.EncodeLength
end

