-- ==== Sys2Proof/Laws/Steps.lean ====
section
/-! SUPPORT. What each step can do, once: the captured frame as an instruction, PARSER's events, the turns and the step itself. -/

namespace Sys2Proof.Machine

/-! ### The captured frame -/

/-- The ten header registers as a byte string. -/
theorem hdr_toList (v : Vector Byte 10) :
    v.toList = [v[0], v[1], v[2], v[3], v[4], v[5], v[6], v[7], v[8], v[9]] := by
  apply List.ext_getElem
  · simp
  · intro i h1 h2
    simp only [Vector.length_toList] at h1
    interval_cases i <;> simp

/-- The header fields of the captured frame (R22). -/
def capturedHeader (s : State) : ScanHeader :=
  scanHeaderOf s.hdr[2] s.hdr[3] s.hdr[4] s.hdr[5] s.hdr[6] s.hdr[7] s.hdr[8] s.hdr[9]

theorem packetType_eq_one (s : State) : packetType s = 1 ↔ typeBit s.hdr[2] = 1 := by
  unfold packetType; generalize s.hdr[2] = b; revert b; decide

theorem packetType_eq_zero (s : State) : packetType s = 0 ↔ typeBit s.hdr[2] = 0 := by
  unfold packetType; generalize s.hdr[2] = b; revert b; decide

theorem packetType_ne_one (s : State) : packetType s ≠ 1 ↔ packetType s = 0 := by
  unfold packetType; generalize s.hdr[2] = b; revert b; decide

theorem typeBit_of_ne {b : Byte} (h : ¬ typeBit b = 1) : typeBit b = 0 := (typeBit_ne_one b).mp h

/-- A captured HeadingMarker (R150). -/
theorem fetchFrame_hm {s : State} (hp : hdrPreamble s = Config.preamble) (ht : packetType s = 1) :
    fetchFrame s = .ok (.scanHm (capturedHeader s)) := by
  obtain ⟨h0, h1⟩ := (le16_eq_preamble _ _).mp hp
  have hb := (packetType_eq_one s).mp ht
  have hd := decodeScan_header s.hdr[2] s.hdr[3] s.hdr[4] s.hdr[5] s.hdr[6] s.hdr[7] s.hdr[8] s.hdr[9] [] []
    (fun h => absurd (hb.symm.trans h) (by decide)) (fun _ => rfl)
  simp only [hb, if_true, payloadBytes, List.append_nil] at hd
  have hl := hdr_toList s.hdr
  rw [h0, h1] at hl
  simp only [fetchFrame, ht, if_true, memReadSamples, payloadBytes, List.append_nil, decode, hl, hd]
  rfl

/-- A captured PointCloud with its samples (R146, R189). -/
theorem fetchFrame_pc {s : State} {ss : List RawSample} (hp : hdrPreamble s = Config.preamble) (ht : packetType s = 0)
    (hm : memReadSamples s.pbuf 0 (sampleCount s) = .ok ss) :
    fetchFrame s = .ok (.scanPc (capturedHeader s) ss) := by
  obtain ⟨h0, h1⟩ := (le16_eq_preamble _ _).mp hp
  have hb := (packetType_eq_zero s).mp ht
  have hne : ¬ typeBit s.hdr[2] = 1 := by rw [hb]; decide
  have hne' : ¬ packetType s = 1 := by rw [ht]; decide
  have hd := decodeScan_header s.hdr[2] s.hdr[3] s.hdr[4] s.hdr[5] s.hdr[6] s.hdr[7] s.hdr[8] s.hdr[9] ss []
    (fun _ => memReadSamples_length hm) (fun h => absurd h hne)
  simp only [hne, if_false, List.append_nil] at hd
  have hl := hdr_toList s.hdr
  rw [h0, h1] at hl
  simp only [fetchFrame, hne', if_false, hm, decode, hl, List.cons_append, List.nil_append, hd]
  rfl

/-- The captured header, encoded, is the ten header registers (R81, R91). -/
theorem encodeHeader_captured {s : State} (hp : hdrPreamble s = Config.preamble) :
    encodeHeader (typeBit s.hdr[2]) (capturedHeader s) = s.hdr.toList := by
  obtain ⟨h0, h1⟩ := (le16_eq_preamble _ _).mp hp
  rw [hdr_toList, h0, h1]
  simp only [encodeHeader, capturedHeader, scanHeaderOf, angleCode_codeAngle_codeFlag, loByte_le16, hiByte_le16,
    freqField_append_typeBit]
  all_goals rfl

/-! ### Written bytes of PBUF -/

theorem writtenBytes_length {m : Memory} {n : Nat} {p : List Byte} (h : writtenBytes m n = some p) : p.length = n := by
  induction n generalizing p with
  | zero => cases h; rfl
  | succ n ih =>
    simp only [writtenBytes] at h
    split at h
    · next q b hq hb => cases h; simp [ih hq]
    · cases h

/-- A byte read below the written part's end (R33 item 5). -/
theorem writtenBytes_read {m : Memory} {n : Nat} {p : List Byte} (h : writtenBytes m n = some p) {i : Nat} (hi : i < n) :
    m.read i = p[i]? := by
  induction n generalizing p with
  | zero => omega
  | succ n ih =>
    simp only [writtenBytes] at h
    split at h
    · next q b hq hb =>
      cases h
      have hl := writtenBytes_length hq
      by_cases hin : i < n
      · rw [ih hq hin, List.getElem?_append_left (by omega)]
      · have : i = n := by omega
        subst this
        rw [List.getElem?_append_right (by omega), hb]; simp [hl]
    · cases h

theorem writtenBytes_write_above {m : Memory} {n a : Nat} (v : Byte) (h : n ≤ a) :
    writtenBytes (m.write a v) n = writtenBytes m n := by
  induction n with
  | zero => rfl
  | succ n ih => simp only [writtenBytes, ih (by omega), Memory.read_write_other m v (show n ≠ a by omega)]

/-- One more byte written at the end of the written part (R148). -/
theorem writtenBytes_write {m : Memory} {n : Nat} {p : List Byte} (v : Byte) (h : writtenBytes m n = some p) :
    writtenBytes (m.write n v) (n + 1) = some (p ++ [v]) := by
  simp [writtenBytes, writtenBytes_write_above v (le_refl n), h]

/-- A written payload reads as samples whose bytes are the payload's (R189). -/
theorem memReadSamples_written {m : Memory} {p : List Byte} {L : Nat} (h : writtenBytes m L = some p)
    (hL : L ≤ Config.pbufLen) (i n : Nat) (hin : 3 * (i + n) ≤ L) :
    ∃ ss, memReadSamples m i n = .ok ss ∧ payloadBytes ss = (p.drop (3 * i)).take (3 * n) := by
  induction n generalizing i with
  | zero => exact ⟨[], rfl, by simp [payloadBytes]⟩
  | succ n ih =>
    have hlen := writtenBytes_length h
    have hbyte : ∀ j (hj : j < p.length), memReadByte m j = .ok p[j] := fun j hj =>
      memReadByte_eq (by omega) (by rw [writtenBytes_read h (by omega), List.getElem?_eq_getElem hj])
    obtain ⟨ss, hss, hpb⟩ := ih (i + 1) (by omega)
    refine ⟨⟨p[3 * i]'(by omega), p[3 * i + 1]'(by omega), p[3 * i + 2]'(by omega)⟩ :: ss, ?_, ?_⟩
    · rw [memReadSamples_succ, hss]
      simp only [memRead3, hbyte (3 * i) (by omega), hbyte (3 * i + 1) (by omega), hbyte (3 * i + 2) (by omega)]
    · rw [payloadBytes, hpb, RawSample.bytes, List.drop_eq_getElem_cons (show 3 * i < p.length by omega),
        List.drop_eq_getElem_cons (show 3 * i + 1 < p.length by omega),
        List.drop_eq_getElem_cons (show 3 * i + 1 + 1 < p.length by omega)]
      have e1 : 3 * (n + 1) = 3 * n + 1 + 1 + 1 := by omega
      have e2 : 3 * i + 1 + 1 + 1 = 3 * (i + 1) := by omega
      rw [e1, e2]
      simp

/-! ### Captured bytes -/

/-- A header byte: stored, or the last one, which completes the header (R122). -/
theorem hdrCapture_cases (b : Byte) (s : State) (hk : s.hcnt.toNat ≤ 9) :
    (s.hcnt.toNat < 9 ∧ ∃ h : s.hcnt.toNat < Config.hdrLen,
      hdrCapture b s = .next { captureHeader s.hcnt.toNat h b s with hcnt := s.hcnt + 1 }) ∨
    (s.hcnt = 9 ∧ hdrCapture b s = headerComplete { s with hdr := s.hdr.set 9 b, hcnt := 0 }) := by
  have hl : Config.hdrLen = 10 := rfl
  unfold hdrCapture
  rw [dif_pos (by omega)]
  by_cases h9 : s.hcnt.toNat < 9
  · left; refine ⟨h9, by omega, ?_⟩; rw [if_pos (by omega)]
  · right
    have e : s.hcnt = 9 := BitVec.eq_of_toNat_eq (by simpa using (by omega : s.hcnt.toNat = 9))
    refine ⟨e, ?_⟩
    rw [if_neg (by omega)]
    simp only [captureHeader]
    have e' : s.hcnt.toNat = 9 := by rw [e]; rfl
    simp only [e', xaccUpdateHeader_checksum _ _ (show 8 ≤ 9 by omega)]

/-- A complete header: a wrong preamble, a HeadingMarker, an empty PointCloud, or the beginning of a payload read (R123 to R145). -/
theorem headerComplete_cases (s : State) :
    (hdrPreamble s ≠ Config.preamble ∧ headerComplete s = .next (raiseErr .badPreamble s)) ∨
    (hdrPreamble s = Config.preamble ∧ packetType s = 1 ∧ headerComplete s = exec (.scanHm (capturedHeader s)) s) ∨
    (hdrPreamble s = Config.preamble ∧ packetType s = 0 ∧ sampleCount s = 0 ∧
      headerComplete s = .next (raiseErr .emptyPointCloud s)) ∨
    (hdrPreamble s = Config.preamble ∧ packetType s = 0 ∧ sampleCount s ≠ 0 ∧
      headerComplete s = .next { s with phase := .payload, pcnt := 0 }) := by
  unfold headerComplete
  by_cases hp : hdrPreamble s = Config.preamble
  · simp only [hp, ne_eq, not_true, if_false, dispatch]
    by_cases ht : packetType s = 1
    · right; left; simp only [ht, if_true, runFrame, fetchFrame_hm hp ht, and_self]
    · have ht0 := (packetType_ne_one s).mp ht
      by_cases hc : sampleCount s = 0
      · right; right; left
        have hm : memReadSamples s.pbuf 0 (sampleCount s) = .ok [] := by rw [hc]; rfl
        have hz : (capturedHeader s).sampleCount = 0 := by
          have : s.hdr[3].toNat = 0 := hc
          exact BitVec.eq_of_toNat_eq (by simpa [capturedHeader, scanHeaderOf] using this)
        simp [hc, runFrame, fetchFrame_pc hp ht0 hm, exec, execScanPc_eq, hz, ht0]
      · right; right; right
        simp [ht0, hc]
  · left; simp [hp]

/-- A payload byte: stored, or the last one, which completes the frame (R148). -/
theorem payCapture_cases (b : Byte) (s : State) {p : List Byte} (hw : writtenBytes s.pbuf s.pcnt.toNat = some p)
    (hp : hdrPreamble s = Config.preamble) (ht : packetType s = 0) (hlt : s.pcnt.toNat < plen s) :
    let m := s.pbuf.write s.pcnt.toNat b
    let s1 : State := { s with pbuf := m, xacc := xaccUpdatePayload s.xacc s.pcnt.toNat b }
    s.pcnt.toNat < Config.pbufLen ∧ memWrite s.pbuf s.pcnt.toNat b = .ok m ∧
    ((s.pcnt.toNat + 1 < plen s ∧ payCapture b s = .next { s1 with pcnt := s.pcnt + 1 }) ∨
     (s.pcnt.toNat + 1 = plen s ∧ ∃ ss, payloadBytes ss = p ++ [b] ∧ ss.length = sampleCount s ∧
      payCapture b s = exec (.scanPc (capturedHeader s) ss) { s1 with pcnt := 0 })) := by
  have hpl : plen s ≤ Config.pbufLen := by simp [plen, sampleCount, Config.sampleLen, Config.pbufLen, Config.maxCount]; omega
  have ha : s.pcnt.toNat < Config.pbufLen := by omega
  refine ⟨ha, memWrite_eq b ha, ?_⟩
  simp only [payCapture, memWrite_eq b ha]
  by_cases hc : s.pcnt.toNat + 1 < plen s
  · left; refine ⟨hc, ?_⟩; rw [if_pos (by omega)]
  · right
    have he : s.pcnt.toNat + 1 = plen s := by omega
    refine ⟨he, ?_⟩
    have hw' := writtenBytes_write b hw
    have hl := writtenBytes_length hw'
    have h3 : plen s = 3 * sampleCount s := rfl
    obtain ⟨ss, h1, h2⟩ := memReadSamples_written hw' (by omega) 0 (sampleCount s) (by omega)
    refine ⟨ss, ?_, memReadSamples_length h1, ?_⟩
    · rw [h2]; simp only [Nat.mul_zero, List.drop_zero]; rw [← h3, ← he, ← hl, List.take_length]
    · rw [if_neg (by omega)]
      unfold runFrame
      rw [fetchFrame_pc (ss := ss)]
      · rfl
      · exact hp
      · exact ht
      · exact h1

/-! ### The turns and the step -/

/-- What a step can do (R34, R282). -/
theorem step_cases (s : State) :
    (stopEnabled s = true ∧ step s = .next (stopStep s)) ∨
    (stopEnabled s = false ∧ s.sched = [] ∧ step s = .next s) ∨
    (stopEnabled s = false ∧ ∃ t ts, s.sched = t :: ts ∧ step s = runTurn t { s with sched := ts }) := by
  unfold step
  cases hst : stopEnabled s
  · cases hs : s.sched with
    | nil => exact .inr (.inl ⟨rfl, rfl, by simp⟩)
    | cons t ts => exact .inr (.inr ⟨rfl, t, ts, rfl, by simp⟩)
  · exact .inl ⟨rfl, by simp⟩

/-- Where the stop step is not due, a step is the next turn. -/
theorem step_turn {s : State} {t : Turn} {ts : List Turn} (h : stopEnabled s = false) (hs : s.sched = t :: ts) :
    step s = runTurn t { s with sched := ts } := by
  unfold step; simp [h, hs]

/-- A byte of a header read is captured in HDR, one of a payload read in PBUF (R34). -/
theorem byteArrives_header (b : Byte) {s : State} (h : s.phase = .header) : byteArrives b s = hdrCapture b s := by
  unfold byteArrives; split <;> simp_all

theorem byteArrives_payload (b : Byte) {s : State} (h : s.phase = .payload) : byteArrives b s = payCapture b s := by
  unfold byteArrives; split <;> simp_all

/-- A turn of SOURCE: the event is consumed where PARSER may take one, else it stays (R34). -/
theorem sourceOffer_cases (s : State) :
    (sourceOffer s = .next s ∧ (s.rx = [] ∨ sourceEnabled s = false)) ∨
    (∃ e r, s.rx = e :: r ∧ sourceEnabled s = true ∧ sourceOffer s = parserEvent e { s with rx := r }) := by
  unfold sourceOffer
  cases hr : s.rx with
  | nil => exact .inl ⟨rfl, .inl rfl⟩
  | cons e r =>
    cases he : sourceEnabled s
    · exact .inl ⟨by simp, .inr rfl⟩
    · exact .inr ⟨e, r, rfl, rfl, by simp⟩

/-- PARSER may take an event exactly in these states (R34). -/
theorem sourceEnabled_iff (s : State) :
    sourceEnabled s = true ↔ s.out = none ∧ s.phase ≠ .idle ∧ stopEnabled s = false := by
  simp [sourceEnabled, and_assoc]

/-- The stop step is enabled exactly in these states (R251). -/
theorem stopEnabled_iff (s : State) :
    stopEnabled s = true ↔ s.out = none ∧ s.phase = .header ∧ s.hcnt = 0 ∧ s.stopPending = true := by
  simp [stopEnabled, atBoundary, and_assoc]

/-- An event of the line arrives: it stands behind what has been received (R50), or is a byte that the host discards because
the sensor has not obeyed the stop command yet (R252). -/
theorem arriveNext_cases (s : State) :
    (s.line = [] ∧ arriveNext s = s) ∨
    (∃ e r, s.line = e :: r ∧ (s.draining && e.isByte) = false ∧ arriveNext s = { s with rx := s.rx ++ [e], line := r }) ∨
    (∃ b r, s.line = .byte b :: r ∧ s.draining = true ∧ arriveNext s = { s with line := r }) := by
  unfold arriveNext
  split
  · next h => exact .inl ⟨h, rfl⟩
  · next e r h =>
    right
    cases hd : s.draining && e.isByte
    · exact .inl ⟨e, r, h, hd, by simp⟩
    · obtain ⟨h1, h2⟩ := Bool.and_eq_true_iff.mp hd
      cases e with
      | byte b => exact .inr ⟨b, r, h, h1, by simp⟩
      | timeout => cases h2
      | ioFail => cases h2
      | closed => cases h2

/-- CONTROL offers `Start` (R248): an accepted one where the stop duties are owed finds no received byte (R252). -/
theorem controlStart_cases (s : State) :
    (stopDutiesOwed s = true ∧ s.out = none ∧ controlStart s = acceptStart (flushRx s)) ∨
    (¬ (stopDutiesOwed s = true ∧ s.out = none) ∧ controlStart s = acceptStart s) := by
  unfold controlStart
  split
  · next h => exact .inl ⟨h.1, h.2, rfl⟩
  · next h => exact .inr ⟨h, rfl⟩

/-- What a turn of the host as sender does with its next command, if it has one: it waits or has nothing to send; it acts
on CMD.STOP for `stopScan()` or because it owes its stop duties, or ends that call after `Closed`; it acts on a command of
its line; or two bytes are none (R97). -/
theorem withCommand_cases (act : Instr → State → Host.Outcome State Fault Refusal) (s : State) :
    withCommand act s = .next s ∨
    ((s.host.call = some .stopScan ∨ stopDutiesOwed s = true) ∧ stopDutiesDue s = true ∧
      withCommand act s = act .cmdStop s) ∨
    (s.host.call = some .stopScan ∧ s.phase = .idle ∧ s.idleByClosed = true ∧
      withCommand act s = .next (endStopScan s)) ∨
    (s.host.call ≠ some .stopScan ∧ stopDutiesOwed s = false ∧
      ∃ b0 b1 r i, s.host.cmds = b0 :: b1 :: r ∧ decodeCommand [b0, b1] = .ok (i, []) ∧
        withCommand act s = act i { s with host := { s.host with cmds := r } }) ∨
    (∃ b0 b1, withCommand act s = .refused (.unlistedCommand b0 b1)) := by
  unfold withCommand
  split
  · next hstop =>
    split
    · next hd => exact .inr (.inl ⟨hstop, hd, rfl⟩)
    · next hd =>
      split
      · next hp =>
        refine .inr (.inr (.inl ⟨?_, hp, ?_, rfl⟩))
        · refine hstop.resolve_right fun ho => hd ?_
          obtain ⟨h1, h2, _⟩ := (stopDutiesOwed_iff s).mp ho
          exact (stopDutiesDue_iff s).mpr ⟨h1, h2⟩
        · cases hc : s.idleByClosed
          · exact absurd ((stopDutiesDue_iff s).mpr ⟨hp, hc⟩) hd
          · rfl
      · exact .inl rfl
  next hstop =>
  split
  · next b0 b1 r hc =>
    split
    · next i rest hd =>
      have hrest : rest = [] := by
        obtain ⟨hi, hb⟩ := decodeCommand_ok (show decodeCommand [b0, b1] = .ok (i, rest) from hd)
        rcases hi with rfl | rfl | rfl | rfl | rfl <;> (simp [encode] at hb; exact hb.2.2)
      subst hrest
      refine .inr (.inr (.inr (.inl ⟨fun h => hstop (.inl h), ?_, b0, b1, r, i, hc, hd, rfl⟩)))
      exact Bool.eq_false_iff.mpr fun h => hstop (.inr h)
    · exact .inr (.inr (.inr (.inr ⟨b0, b1, rfl⟩)))
  · exact .inl rfl

/-- The end of `stopScan()` after `Closed` leaves the block as it is (R278). -/
theorem endStopScan_sameBlock (s : State) : SameBlock s (endStopScan s) :=
  ⟨rfl, rfl, rfl, rfl, rfl, rfl, rfl, rfl, rfl, rfl, rfl⟩

/-- A turn of the host as sender (R233, R252): a next state in which the block is as it was, or the refusal of two bytes
that are no command. -/
theorem hostSend_cases (s : State) :
    (∃ t, hostSend s = .next t ∧ SameBlock s t ∧ SentLink s t) ∨
    (∃ b0 b1, hostSend s = .refused (.unlistedCommand b0 b1)) := by
  rcases withCommand_cases exec s with h | ⟨_, _, h⟩ | ⟨_, _, _, h⟩ | ⟨_, _, b0, b1, r, i, _, hd, h⟩ | h
  · exact .inl ⟨s, h, .refl s, (SameLink.refl s).sent⟩
  · obtain ⟨t, ht, hb, hl⟩ := execCommand_sameBlock (.inr (.inl rfl)) s
    exact .inl ⟨t, h.trans ht, hb, hl⟩
  · exact .inl ⟨_, h, endStopScan_sameBlock s, rfl, rfl, .inl ⟨rfl, rfl⟩⟩
  · obtain ⟨t, ht, hb, hl⟩ := execCommand_sameBlock (decodeCommand_ok hd).1
      { s with host := { s.host with cmds := r } }
    exact .inl ⟨t, h.trans ht, .trans (SameBlock.env s s.rx s.line s.sched _) hb, hl.line, hl.sched, hl.rx⟩
  · exact .inr h

/-- A failed write completes, transmits nothing and leaves the block as it is (R252). -/
theorem commandFailed_sameBlock (i : Instr) (s : State) : ∃ t, commandFailed i s = .next t ∧ SameBlock s t ∧
    SentLink s t ∧ t.tx = s.tx := by
  refine ⟨_, rfl, ?_⟩
  split
  · refine ⟨stopDuties_sameBlock _ _ _, stopDuties_sentLink _ _ _, ?_⟩
    rcases stopDuties_cases .ioError false s with ⟨_, he⟩ | ⟨_, he⟩ <;> rw [he] <;> rfl
  · split <;> exact ⟨⟨rfl, rfl, rfl, rfl, rfl, rfl, rfl, rfl, rfl, rfl, rfl⟩, ⟨rfl, rfl, .inl ⟨rfl, rfl⟩⟩, rfl⟩

/-- A turn of the host whose write fails: as `hostSend_cases`, and nothing is transmitted (R252). -/
theorem hostSendFails_cases (s : State) :
    (∃ t, hostSendFails s = .next t ∧ SameBlock s t ∧ SentLink s t ∧ t.tx = s.tx) ∨
    (∃ b0 b1, hostSendFails s = .refused (.unlistedCommand b0 b1)) := by
  rcases withCommand_cases commandFailed s with h | ⟨_, _, h⟩ | ⟨_, _, _, h⟩ | ⟨_, _, b0, b1, r, i, _, _, h⟩ | h
  · exact .inl ⟨s, h, .refl s, (SameLink.refl s).sent, rfl⟩
  · obtain ⟨t, ht, hb⟩ := commandFailed_sameBlock .cmdStop s
    exact .inl ⟨t, h.trans ht, hb⟩
  · exact .inl ⟨_, h, endStopScan_sameBlock s, ⟨rfl, rfl, .inl ⟨rfl, rfl⟩⟩, rfl⟩
  · obtain ⟨t, ht, hb, hl, hx⟩ := commandFailed_sameBlock i { s with host := { s.host with cmds := r } }
    exact .inl ⟨t, h.trans ht, .trans (SameBlock.env s s.rx s.line s.sched _) hb, ⟨hl.line, hl.sched, hl.rx⟩, hx⟩
  · exact .inr h

/-- `stopScan()` is called: the host waits, and a scanning block has a stop pending (R250, R256). -/
theorem callStopScan_cases (s : State) :
    (s.phase = .idle ∧ callStopScan s = setCall .stopScan s) ∨
    (s.phase ≠ .idle ∧ callStopScan s = setStopPending (setCall .stopScan s)) := by
  unfold callStopScan acceptStopReq
  split
  · next h => exact .inl ⟨h, rfl⟩
  · next h => exact .inr ⟨h, rfl⟩

/-- The end of a response header read (R245): a next state always; the link is left as it is, and the block is, or is given
`Start`. -/
theorem responseComplete_cases (bytes : List Byte) (s : State) : ∃ t, responseComplete bytes s = .next t ∧ SameLink s t ∧
    (SameBlock s t ∨ (s.phase = .idle ∧ s.out = none ∧ t = acceptStart (finishCall .started s))) := by
  unfold responseComplete
  split
  · next i rest hd =>
    obtain ⟨⟨f, hi⟩, _⟩ := decodeResponse_ok hd
    exact execResponse_cases hi s
  · split
    · exact ⟨_, rfl, otherResponse_sameLink _ _, .inl (otherResponse_sameBlock _ _)⟩
    · exact ⟨_, rfl, responseFailed_sameLink _, .inl (responseFailed_sameBlock _)⟩

/-- A byte read by the host (R246): a next state always; the link is left as it is, and the block is, or is given `Start`. -/
theorem hostByte_cases (b : Byte) (s : State) : ∃ t, hostByte b s = .next t ∧ SameLink s t ∧
    (SameBlock s t ∨ (s.phase = .idle ∧ s.out = none ∧ ∃ h, t = acceptStart (finishCall .started { s with host := h }))) := by
  unfold hostByte
  split
  · exact ⟨_, rfl, .refl s, .inl (.refl s)⟩
  · split
    · exact ⟨_, rfl, payloadByte_sameLink _ _ _, .inl (payloadByte_sameBlock _ _ _)⟩
    · split
      · exact ⟨_, rfl, .refl s, .inl (.refl s)⟩
      · split
        · exact ⟨_, rfl, ⟨rfl, rfl, rfl, rfl, rfl⟩, .inl (SameBlock.env s s.rx s.line s.sched _)⟩
        · obtain ⟨t, ht, hl, hc⟩ := responseComplete_cases (s.host.rspBuf ++ [b]) { s with host := { s.host with rspBuf := [] } }
          refine ⟨t, ht, ⟨hl.rx, hl.line, hl.sched, hl.draining, hl.stopOwed⟩, ?_⟩
          rcases hc with hc | ⟨hi, ho, he⟩
          · exact .inl (.trans (SameBlock.env s s.rx s.line s.sched _) hc)
          · exact .inr ⟨hi, ho, _, he⟩

/-- A turn of the host as reader (R246): a next state always; it changes nothing, or, in Idle, takes the first received
event, and the block is left as it is or is given `Start`. -/
theorem hostRead_cases (s : State) : ∃ t, hostRead s = .next t ∧ (t = s ∨
    (s.phase = .idle ∧ ∃ e r, s.rx = e :: r ∧ SameLink { s with rx := r } t ∧
      (SameBlock s t ∨ (s.out = none ∧ ∃ h, t = acceptStart (finishCall .started { s with rx := r, host := h }))))) := by
  unfold hostRead
  split
  · next hp =>
    split
    · exact ⟨_, rfl, .inl rfl⟩
    · next b r hr =>
      obtain ⟨t, ht, hl, hc⟩ := hostByte_cases b { s with rx := r }
      refine ⟨t, ht, .inr ⟨hp, _, r, hr, hl, ?_⟩⟩
      rcases hc with hc | ⟨_, ho, h, he⟩
      · exact .inl (.trans (SameBlock.env s r s.line s.sched s.host) hc)
      · exact .inr ⟨ho, h, he⟩
    all_goals
      next r hr =>
      exact ⟨_, rfl, .inr ⟨hp, _, r, hr, responseFailed_sameLink _,
        .inl (.trans (SameBlock.env s r s.line s.sched s.host) (responseFailed_sameBlock _))⟩⟩
  · exact ⟨_, rfl, .inl rfl⟩

end Sys2Proof.Machine
end

