-- ==== Sys2Proof/Tests/Slice0.lean ====
section
/-! SUPPORT. Tests of our own, on fixed values taken from the spec's vectors (95_test_vectors.md), and for each obligation that has hypotheses a state and operands that meet all of them together. -/

namespace Sys2Proof.Tests

open Sys2Proof Sys2Proof.Machine

/-! ### Helpers -/

/-- The next state of an outcome. -/
def next? : Host.Outcome State Fault Refusal → Option State
  | .next t => some t
  | .fault _ => none
  | .refused _ => none

/-- The item that an outcome leaves in OUT. -/
def outOf (o : Host.Outcome State Fault Refusal) : Option Item := (next? o).bind (·.out)

/-- A header read with nine bytes captured of the header `v`, the last byte `b` of it on offer. -/
def lastHeaderByte (v : Vector Byte 10) (b : Byte) : State :=
  { State.reset with phase := .header, hcnt := 9, hdr := v, xacc := xor16 (v.toList.take 8), sched := [.source],
                     rx := [.byte b] }

/-- A payload read of the frame with header `v`: the bytes `p` captured, `e` on offer. -/
def inPayload (v : Vector Byte 10) (p : List Byte) (e : SrcEvent) : State :=
  { State.reset with phase := .payload, pcnt := BitVec.ofNat 10 p.length, hdr := v, pbuf := cellsFrom 0 p,
                     xacc := xor16 (v.toList.take 8 ++ p), sched := [.source], rx := [e] }

/-- The state right after `Start`, with agents' turns `ts` and events `r` to come. -/
def started (ts : List Turn) (r : List SrcEvent) : State :=
  { State.reset with phase := .header, sched := ts, rx := r }

/-- The host waiting in Idle on request `c`, with six response bytes read and the seventh on offer. -/
def awaiting (c : HostCall) (six : List Byte) (b : Byte) : State :=
  { State.reset with sched := [.hostRead], rx := [.byte b],
                     host := { HostSide.initial with call := some c, rspBuf := six } }

/-- `stopScan()` in progress, the block in Idle, agents' turns `ts` to come (R256). -/
def stopping (ts : List Turn) : State :=
  { State.reset with sched := ts, rx := [.byte 1], host := { HostSide.initial with call := some .stopScan } }

/-- The host owing its stop duties after a stop step, agents' turns `ts` to come, a byte received (R252). -/
def owing (ts : List Turn) : State := { stopStep (started ts [.byte 1]) with out := none }

/-- The header of V13: a PointCloud of one sample. -/
def hdrV13 : Vector Byte 10 := #v[0xA5, 0x5A, 0x78, 0x01, 0x80, 0x16, 0x80, 0x16, 0xD0, 0x8B]
/-- The header of V20: a HeadingMarker. -/
def hdrV20 : Vector Byte 10 := #v[0xA5, 0x5A, 0x01, 0x01, 0x00, 0x05, 0x00, 0x05, 0xA4, 0x5B]
/-- The header of V15: a PointCloud of no sample. -/
def hdrV15 : Vector Byte 10 := #v[0xA5, 0x5A, 0x78, 0x00, 0x00, 0x00, 0x00, 0x00, 0xDD, 0x5A]
/-- The fields of the header of V10. -/
def fieldsV10 : ScanHeader :=
  { freqCode := 70, sampleCount := 3, startFlag := 0, startAngle := 640, endFlag := 0, endAngle := 1280,
    checksum := 0x5629 }
/-- The fields of the header of V20. -/
def fieldsV20 : ScanHeader :=
  { freqCode := 0, sampleCount := 1, startFlag := 0, startAngle := 640, endFlag := 0, endAngle := 640,
    checksum := 0x5BA4 }
/-- The fields of the response header of V71. -/
def fieldsV71 : RspFields :=
  { sizeHi := 0, payloadSize := 5, reserved3 := 0, reserved4 := 0, responseMode := 1, modeLo := 0 }

/-! ### WellFormed -/

/-- A PointCloud that announces three samples and carries two is refused (R84). -/
theorem test_wellFormed_refuses_missing_sample :
    ¬ (Instr.scanPc fieldsV10 [⟨0, 0, 0⟩, ⟨0, 0, 0⟩]).WellFormed := by decide
/-- One sample too many is refused as well. -/
theorem test_wellFormed_refuses_extra_sample :
    ¬ (Instr.scanPc { fieldsV10 with sampleCount := 0 } [⟨0, 0, 0⟩]).WellFormed := by decide
theorem test_wellFormed_accepts_v10 :
    (Instr.scanPc fieldsV10 [⟨0, 0, 0⟩, ⟨0, 0, 0⟩, ⟨0, 0, 0⟩]).WellFormed := by decide

/-! ### Decoding: words written out bit by bit from R81 to R87 -/

/-- SCAN.PC, V15: preamble, 0b0111100_0 (code 60, type 0), count 0, angles 0, checksum 0x5ADD. -/
theorem test_decode_scanPc :
    decode .scan [0b10100101, 0b01011010, 0b01111000, 0, 0, 0, 0, 0, 0b11011101, 0b01011010] =
      .ok (.scanPc { freqCode := 60, sampleCount := 0, startFlag := 0, startAngle := 0, endFlag := 0, endAngle := 0,
                     checksum := 0x5ADD } [], []) := by decide
/-- SCAN.HM, V25: 0b0000000_1 (type 1), count 1, start code 0xFFFF: 15 bits 32767 and the flag. -/
theorem test_decode_scanHm :
    decode .scan [0b10100101, 0b01011010, 0b00000001, 0b00000001, 0b11111111, 0b11111111, 0, 0, 0b01011011, 0b10100100] =
      .ok (.scanHm { freqCode := 0, sampleCount := 1, startFlag := 1, startAngle := 32767, endFlag := 0, endAngle := 0,
                     checksum := 0xA45B }, []) := by decide
theorem test_decode_sample :
    decode .payload [0b00010010, 0b10000011, 0b01000000] = .ok (.sample ⟨0x12, 0x83, 0x40⟩, []) := by decide
theorem test_decode_cmdStart : decode .command [0b10100101, 0b01100000] = .ok (.cmdStart, []) := by decide
theorem test_decode_cmdStop : decode .command [0b10100101, 0b01100101] = .ok (.cmdStop, []) := by decide
theorem test_decode_cmdDevinfo : decode .command [0b10100101, 0b10010000] = .ok (.cmdDevinfo, []) := by decide
theorem test_decode_cmdHealth : decode .command [0b10100101, 0b10010010] = .ok (.cmdHealth, []) := by decide
theorem test_decode_cmdReset : decode .command [0b10100101, 0b01000000] = .ok (.cmdReset, []) := by decide
/-- RSP.SCANACK: size 0b00_000101, mode byte 0b01_000000, type 0x81 (V71). -/
theorem test_decode_rspScanack :
    decode .response [0b10100101, 0b01011010, 0b00000101, 0, 0, 0b01000000, 0b10000001] =
      .ok (.rspScanack fieldsV71, []) := by decide
theorem test_decode_rspDevinfo :
    decode .response [0b10100101, 0b01011010, 0b11010100, 0, 0, 0, 0b00000100] =
      .ok (.rspDevinfo { sizeHi := 3, payloadSize := 20, reserved3 := 0, reserved4 := 0, responseMode := 0, modeLo := 0 },
        []) := by decide
theorem test_decode_rspHealth :
    decode .response [0b10100101, 0b01011010, 0b00000011, 1, 2, 0b10111111, 0b00000110] =
      .ok (.rspHealth { sizeHi := 0, payloadSize := 3, reserved3 := 1, reserved4 := 2, responseMode := 2, modeLo := 63 },
        []) := by decide
/-- A table word: the command `A5 60`, the first byte in bits 7:0 (R90). -/
theorem test_tableWord_cmdStart : decodeTableWord 16 0x60A5 = some .cmdStart := by decide

/-! ### Meanings, one step each -/

/-- V10: the distances 0, the angles 10, 15, 20. -/
theorem test_scanPc_v10 :
    outOf (exec (.scanPc fieldsV10 [⟨0, 0, 0⟩, ⟨0, 0, 0⟩, ⟨0, 0, 0⟩]) State.reset) =
      some (.packet { kind := .pointCloud, freqCode := some 70, anomaly := none,
                      samples := [⟨0, 0, .rat 10⟩, ⟨0, 0, .rat 15⟩, ⟨0, 0, .rat 20⟩] }) := by decide
/-- V11: across 360, and the flag bits ignored. -/
theorem test_scanPc_v11 :
    outOf (exec (.scanPc { freqCode := 70, sampleCount := 3, startFlag := 1, startAngle := 22400, endFlag := 1,
                           endAngle := 640, checksum := 0xF52B } [⟨5, 0, 0⟩, ⟨6, 0, 0⟩, ⟨7, 0, 0⟩]) State.reset) =
      some (.packet { kind := .pointCloud, freqCode := some 70, anomaly := none,
                      samples := [⟨0, 5, .rat 350⟩, ⟨0, 6, .rat 0⟩, ⟨0, 7, .rat 10⟩] }) := by decide
/-- V21: a HeadingMarker that announces two samples. -/
theorem test_scanHm_v21 :
    outOf (exec (.scanHm { fieldsV20 with sampleCount := 2, checksum := 0x58A4 }) State.reset) =
      some (.packet { kind := .headingMarker, samples := [⟨0, 0, .rat 10⟩], freqCode := none,
                      anomaly := some (.headingCountNotOne 2) }) := by decide
/-- V20 through a step: the tenth byte of the frame. -/
theorem test_step_scanHm_v20 :
    outOf (step (lastHeaderByte hdrV20 0x5B)) =
      some (.packet { kind := .headingMarker, samples := [⟨0, 0, .rat 10⟩], freqCode := none, anomaly := none }) := by
  decide
/-- V42 (the source's example E1): intensity 786, distance 4128. -/
theorem test_sample_v42 : (next? (exec (.sample ⟨0x12, 0x83, 0x40⟩) State.reset)).map (·.decoded) = some [(786, 4128)] := by
  decide
/-- V13's last byte through a step: the sample and CORR(500) in the angle. -/
theorem test_step_scanPc_v13 :
    outOf (step (inPayload hdrV13 [0x0A, 0xD0] (.byte 0x07))) =
      some (.packet { kind := .pointCloud, freqCode := some 60, anomaly := none,
                      samples := [⟨500, 10, .mod360 (.add (.rat 45) (.corr 500))⟩] }) := by decide
/-- V15: an empty PointCloud. -/
theorem test_step_emptyPointCloud : outOf (step (lastHeaderByte hdrV15 0x5A)) = some (.error .emptyPointCloud) := by decide
theorem test_cmdStart : (next? (exec .cmdStart State.reset)).map (fun t => (t.tx, t.sensorScan, t.host.call)) =
    some ([0xA5, 0x60], true, some .startScan) := by decide
/-- CMD.STOP in Idle clears the received bytes, not those still to arrive, and `stopScan()` returns Ok (R252, R256). -/
theorem test_cmdStop :
    (next? (exec .cmdStop { State.reset with rx := [.byte 1, .closed, .byte 2], line := [.byte 3], sensorScan := true })).map
      (fun t => (t.tx, t.sensorScan, t.rx, t.line, t.host.result)) =
      some ([0xA5, 0x65], false, [.closed], [.byte 3], some .stopped) := by decide
/-- From the sending on, a byte that arrives is discarded, until the sensor obeys; other events are not (R252). -/
theorem test_draining :
    (next? (step { State.reset with draining := true, line := [.byte 1], sched := [.arrive] })).map (·.rx) = some [] ∧
    (next? (step { State.reset with draining := true, line := [.closed], sched := [.arrive] })).map (·.rx) = some [.closed] := by
  decide
/-- After a stop step that `StopReq` alone led to, the host sends CMD.STOP before its own next command (R252). -/
theorem test_stopOwed :
    (next? (step { stopStep (started [.hostSend] []) with host := { HostSide.initial with cmds := [0xA5, 0x90] } })).map
      (fun t => (t.tx, t.stopOwed, t.draining)) = some ([0xA5, 0x65], false, true) := by decide
/-- The sending fails: nothing is transmitted and `stopScan()` returns IoError (R252). -/
theorem test_stopScan_ioError :
    (next? (step (stopping [.hostSendFails]))).map (fun t => (t.tx, t.host.call, t.host.result)) =
      some ([], none, some .ioError) := by decide
/-- After `Closed` the host's turn ends `stopScan()`: nothing is sent, nothing is discarded (R278). -/
theorem test_stopScan_after_closed :
    (next? (step { stopping [.hostSend] with idleByClosed := true })).map
      (fun t => (t.tx, t.rx, t.host.call, t.host.result.isSome)) = some ([], [.byte 1], none, true) := by decide
theorem test_cmdDevinfo : (next? (exec .cmdDevinfo State.reset)).map (fun t => (t.tx, t.host.call)) =
    some ([0xA5, 0x90], some .deviceInfo) := by decide
/-- A command sent while the block scans reaches the line and nothing else (R334). -/
theorem test_cmdHealth_while_scanning : (next? (exec .cmdHealth (started [] []))).map (fun t => (t.tx, t.host.call)) =
    some ([0xA5, 0x92], none) := by decide
theorem test_cmdReset : (next? (exec .cmdReset State.reset)).map (·.tx) = some [0xA5, 0x40] := by decide
/-- V71: the acknowledgement starts the block. -/
theorem test_rspScanack_v71 : (next? (step (awaiting .startScan [0xA5, 0x5A, 0x05, 0, 0, 0x40] 0x81))).map
    (fun t => (t.phase, t.host.result)) = some (.header, some .started) := by decide
/-- A DEVINFO response to a start is the wrong type (R249). -/
theorem test_rspDevinfo_wrong_type : (next? (step (awaiting .startScan [0xA5, 0x5A, 0x14, 0, 0, 0x40] 0x04))).map
    (fun t => (t.phase, t.host.result)) = some (.idle, some .protocolNegotiationError) := by decide
/-- A HEALTH response of three bytes: the host goes on to read them (R240). -/
theorem test_rspHealth : (next? (step (awaiting .healthStatus [0xA5, 0x5A, 0xC3, 0, 0, 0] 0x06))).map
    (fun t => t.host.rsp) = some (some ⟨3, 0, 0x06⟩) := by decide

/-! ### Witnesses: the hypotheses of the obligations can be met -/

theorem witness_DecodeOfEncodeGivesUnitBack : (Instr.scanPc fieldsV10 [⟨0, 0, 0⟩, ⟨0, 0, 0⟩, ⟨0, 0, 0⟩]).WellFormed := by
  decide
theorem witness_DecodedUnitEncodesToItsBytes :
    decode .command [0xA5, 0x65, 0x01] = .ok (.cmdStop, [0x01]) := by decide
/-- One for each clause: the second preamble byte wrong; an opcode beside a listed one; a type code likewise. -/
theorem witness_OtherCodesAreRefused :
    (8 ≤ [0, 0, 0, 0, 0, 0, 0, (0 : Byte)].length ∧ ((0xA5 : Byte) ≠ 0xA5 ∨ (0x5B : Byte) ≠ 0x5A)) ∧
    ((0x61 : Byte) ≠ 0x60 ∧ (0x61 : Byte) ≠ 0x65 ∧ (0x61 : Byte) ≠ 0x90 ∧ (0x61 : Byte) ≠ 0x92 ∧ (0x61 : Byte) ≠ 0x40) ∧
    ((0x05 : Byte) ≠ 0x81 ∧ (0x05 : Byte) ≠ 0x04 ∧ (0x05 : Byte) ≠ 0x06) := by decide
/-- The positions at the ends of the clauses' ranges: 8 and 9; 2 and 6; 1 and 7; 764 and 763. -/
theorem witness_XaccUpdateByPosition :
    (8 ≤ 8 ∧ 8 ≤ 9) ∧ (0 < 2 ∧ 2 < 8 ∧ 2 % 2 = 0 ∧ 6 < 8 ∧ 6 % 2 = 0) ∧ (0 < 1 ∧ 1 < 8 ∧ 1 % 2 = 1 ∧ 7 < 8 ∧ 7 % 2 = 1) ∧
    (764 % 2 = 0) ∧ (763 % 2 = 1) := by decide
theorem witness_RunningXorEndsAtXor16 : hdrV13.toList.length = 10 := by decide
theorem witness_Xor16IsTheXorOfTheLanes : ([0x12, 0x34] : List Byte).length % 2 = 0 := by decide
theorem witness_ChangedCoveredByteIsDetected :
    (∃ hk : 1 < ([0x12, 0x34] : List Byte).length, (0x35 : Byte) ≠ ([0x12, 0x34] : List Byte)[1]) ∧
    checksumGood hdrV20.toList 0x5BA4 = true ∧ (0x5BA5 : Word16) ≠ 0x5BA4 := by decide
theorem witness_EqualParityChangesAreNotDetected :
    0 < ([1, 2, 3] : List Byte).length ∧ 2 < ([1, 2, 3] : List Byte).length ∧ 0 ≠ 2 ∧ 0 % 2 = 2 % 2 := by decide
theorem witness_AppendedChecksumSumsToZero : (hdrV20.toList.take 8).length % 2 = 0 := by decide
theorem witness_EmittedAnglesAreTheFormulas : Corr.Ok (fun _ => 0) := rfl
theorem witness_EndSamplesAreCorrectedTwice :
    Corr.Ok (fun _ => 0) ∧ 2 ≤ ([0, 0] : List (BitVec 14)).length ∧ (angles 10 20 [0, 0]).head? = some (.rat 10) ∧
    (angles 10 20 [0, 0]).getLast? = some (.rat 20) ∧ ([0, 0] : List (BitVec 14)).head? = some 0 ∧
    ([0, 0] : List (BitVec 14)).getLast? = some 0 := ⟨rfl, by decide, by decide, by decide, by decide, by decide⟩
/-- At the ends of the clauses' ranges: 1, 155, 156, 16383. -/
theorem witness_ExactCorrectionSignAndOrder :
    1 ≤ (1 : BitVec 14).toNat ∧ (1 : BitVec 14).toNat < (155 : BitVec 14).toNat ∧ (155 : BitVec 14).toNat ≤ 155 ∧
    156 ≤ (156 : BitVec 14).toNat ∧ (156 : BitVec 14).toNat < (16383 : BitVec 14).toNat := by decide
/-- One for each clause: a correction function, one sample, eps at 0 and at 180; a statement that R210 allows, with a span at
the end of its range; a packet of normalised angles. -/
theorem witness_ApproximateAngleStaysNearOnTheCircle :
    (corrExact.Ok ∧ corrExact.Within 0 ∧ corrExact.Within 180 ∧ angles 10 20 [7] = [.mod360 (.add (.rat 10) (.corr 7))] ∧
      (0 : ℝ) ≤ 180) ∧
    (Approx.exact.Ok ∧ Approx.exact.spanNear ≤ spanReal corrExact 10 20 [7] ∧
      spanReal corrExact 10 20 [7] < 360 - Approx.exact.spanNear) ∧
    (∀ x ∈ [(⟨0, 0, Deg.wrap (.rat 10)⟩ : Sample)], x.angle.InRange) :=
  ⟨⟨by simp [Corr.Ok, corrExact], fun d => by simp, fun d => by simp, by decide, by norm_num⟩,
   ⟨fun _ _ _ => .inl rfl, by simp [Approx.exact, spanReal], by simp [Approx.exact, spanReal]⟩,
   fun x hx => by rw [List.mem_singleton] at hx; subst hx; exact wrap_inRange (.rat 10)⟩
/-- The last address of PBUF and the first one above it, and an empty memory in canonical form. -/
theorem witness_PbufWriteChangesOneByte : 764 < 765 ∧ 763 ≠ 764 ∧ Memory.wf [] ∧ 765 ≤ 765 := by decide
theorem witness_ScanPcEmitsItsPacket :
    fieldsV10.sampleCount ≠ 0 ∧ [(⟨0, 0, 0⟩ : RawSample), ⟨0, 0, 0⟩, ⟨0, 0, 0⟩].length = fieldsV10.sampleCount.toNat ∧
    xor16 ((encodeHeader 0 fieldsV10).take 8 ++ payloadBytes [⟨0, 0, 0⟩, ⟨0, 0, 0⟩, ⟨0, 0, 0⟩]) = fieldsV10.checksum := by
  decide
theorem witness_ScanPcRaisesOnCountAndChecksum :
    ({ fieldsV10 with sampleCount := 0 } : ScanHeader).sampleCount = 0 ∧ fieldsV10.sampleCount ≠ 0 ∧
    xor16 ((encodeHeader 0 fieldsV10).take 8 ++ payloadBytes [⟨0, 0, 0⟩, ⟨0, 0, 0⟩, ⟨0, 0, 1⟩]) ≠ fieldsV10.checksum := by
  decide
theorem witness_ScanHmEmitsOrRaises :
    xor16 ((encodeHeader 1 fieldsV20).take 8) = fieldsV20.checksum ∧
    xor16 ((encodeHeader 1 { fieldsV20 with checksum := 0 }).take 8) ≠ (0 : Word16) := by decide
/-- One for each clause: scanning, Idle after `Closed`, Idle otherwise, a turn that calls `stopScan()`, a failed
sending for `stopScan()` and for the duties owed. -/
theorem witness_CmdStopCompletes :
    (started [] []).phase ≠ .idle ∧ { State.reset with idleByClosed := true }.idleByClosed = true ∧
    (State.reset.phase = .idle ∧ State.reset.idleByClosed = false) ∧
    (stopEnabled (started [.stopScan] []) = false ∧ (started [.stopScan] []).sched = .stopScan :: []) ∧
    ((stopping [.hostSendFails]).phase = .idle ∧ (stopping [.hostSendFails]).idleByClosed = false ∧ (stopping [.hostSendFails]).host.call = some .stopScan ∧
      (stopping [.hostSendFails]).sched = .hostSendFails :: []) ∧
    (let s := owing [.hostSendFails]
     s.phase = .idle ∧ s.idleByClosed = false ∧ s.stopOwed = true ∧ s.sched = .hostSendFails :: []) := by decide
theorem witness_RspScanackStartsTheBlock :
    (awaiting .startScan [] 0).host.call = some .startScan ∧ fieldsV71.responseMode = 1 := by decide
theorem witness_RspScanackElsewhere :
    ((awaiting .startScan [] 0).host.call = some .startScan ∧ { fieldsV71 with responseMode := 2 }.responseMode ≠ 1) ∧
    State.reset.host.call ≠ some .startScan := by decide
/-- Payloads of the smallest and of the largest size that is read: 1 and 63 bytes. -/
theorem witness_RspQueriesComplete :
    (let s := { State.reset with host := { HostSide.initial with rsp := some ⟨1, 0, 0x06⟩ } }
     s.phase = .idle ∧ stopDutiesOwed s = false ∧ s.host.rsp = some ⟨1, 0, 0x06⟩ ∧ s.host.payload = [] ∧ [(7 : Byte)] ≠ [] ∧
       [(7 : Byte)].length = (1 : BitVec 6).toNat) ∧
    (List.replicate 63 (7 : Byte)).length = (63 : BitVec 6).toNat := by decide
/-- The first and the ninth byte of a header. -/
theorem witness_HeaderByteIsCaptured :
    (Ready (started [.source] [.byte 0]) .header ∧ Offers (started [.source] [.byte 0]) (.byte 0) [] [] ∧
      (started [.source] [.byte 0]).hcnt.toNat < 9) ∧
    (Ready { lastHeaderByte hdrV20 0 with hcnt := 8 } .header ∧
      Offers { lastHeaderByte hdrV20 0 with hcnt := 8 } (.byte 0) [] [] ∧
      { lastHeaderByte hdrV20 0 with hcnt := 8 }.hcnt.toNat < 9) :=
  ⟨⟨⟨rfl, rfl, rfl⟩, ⟨rfl, rfl⟩, by decide⟩, ⟨⟨rfl, rfl, rfl⟩, ⟨rfl, rfl⟩, by decide⟩⟩
theorem witness_BadPreambleIsRaised :
    let s := lastHeaderByte #v[0xA5, 0x5B, 1, 1, 0, 5, 0, 5, 0xA4, 0] 0x5B
    Ready s .header ∧ Offers s (.byte 0x5B) [] [] ∧ s.hcnt = 9 ∧ (s.hdr[0] ≠ 0xA5 ∨ s.hdr[1] ≠ 0x5A) :=
  ⟨⟨rfl, rfl, rfl⟩, ⟨rfl, rfl⟩, rfl, by decide⟩
theorem witness_PayloadReadBegins :
    let s := lastHeaderByte hdrV13 0x8B
    Ready s .header ∧ Offers s (.byte 0x8B) [] [] ∧ s.hcnt = 9 ∧ s.hdr[0] = 0xA5 ∧ s.hdr[1] = 0x5A ∧
      s.hdr[2] &&& 0x01 = 0 ∧ s.hdr[3] ≠ 0 :=
  ⟨⟨rfl, rfl, rfl⟩, ⟨rfl, rfl⟩, rfl, by decide, by decide, by decide, by decide⟩
theorem witness_PayloadByteIsCaptured :
    let s := inPayload hdrV13 [0x0A] (.byte 0xD0)
    Ready s .payload ∧ Offers s (.byte 0xD0) [] [] ∧ s.pcnt.toNat + 1 < 3 * s.hdr[3].toNat :=
  ⟨⟨rfl, rfl, rfl⟩, ⟨rfl, rfl⟩, by decide⟩
/-- One for each clause: the end of V20's header, the end of V13's payload. -/
theorem witness_StepRunsTheCapturedFrame :
    (let s := lastHeaderByte hdrV20 0x5B
     Offers s (.byte 0x5B) [] [] ∧ Ready s .header ∧ s.hcnt = 9 ∧
       decode .scan (s.hdr.set 9 0x5B).toList = .ok (.scanHm fieldsV20, [])) ∧
    (let s := inPayload hdrV13 [0x0A, 0xD0] (.byte 0x07)
     Offers s (.byte 0x07) [] [] ∧ Ready s .payload ∧ s.hdr[2] &&& 0x01 = 0 ∧ s.pcnt.toNat + 1 = 3 * s.hdr[3].toNat ∧
       writtenBytes s.pbuf s.pcnt.toNat = some [0x0A, 0xD0] ∧
       decode .scan (s.hdr.toList ++ ([0x0A, 0xD0] ++ [0x07])) =
         .ok (.scanPc { freqCode := 60, sampleCount := 1, startFlag := 0, startAngle := 2880, endFlag := 0,
                        endAngle := 2880, checksum := 0x8BD0 } [⟨0x0A, 0xD0, 0x07⟩], [])) :=
  ⟨⟨⟨rfl, rfl⟩, ⟨rfl, rfl, rfl⟩, rfl, by decide⟩,
   ⟨⟨rfl, rfl⟩, ⟨rfl, rfl, rfl⟩, by decide, by decide, by decide, by decide⟩⟩
theorem witness_StepRunsTheHostsUnits :
    (let s := { State.reset with sched := [.hostSend], host := { HostSide.initial with cmds := [0xA5, 0x60] } }
     stopEnabled s = false ∧ s.sched = .hostSend :: [] ∧ s.host.call ≠ some .stopScan ∧ stopDutiesOwed s = false ∧
       s.host.cmds = 0xA5 :: 0x60 :: [] ∧ decode .command [0xA5, 0x60] = .ok (.cmdStart, [])) ∧
    (let s := stopping [.hostSend]
     stopEnabled s = false ∧ s.sched = .hostSend :: [] ∧ s.host.call = some .stopScan ∧ s.phase = .idle ∧
       s.idleByClosed = false) ∧
    (let s := { stopping [.hostSendFails] with idleByClosed := true }
     stopEnabled s = false ∧ (s.sched = .hostSend :: [] ∨ s.sched = .hostSendFails :: []) ∧
       s.host.call = some .stopScan ∧ s.phase = .idle ∧ s.idleByClosed = true) ∧
    (let s := { stopping [.hostSend] with phase := .payload }
     stopEnabled s = false ∧ s.sched = .hostSend :: [] ∧ s.host.call = some .stopScan ∧ s.phase ≠ .idle) ∧
    (let s := awaiting .startScan [0xA5, 0x5A, 0x05, 0, 0, 0x40] 0x81
     stopEnabled s = false ∧ s.sched = .hostRead :: [] ∧ s.rx = .byte 0x81 :: [] ∧ s.phase = .idle ∧ s.host.call ≠ none ∧
       s.host.call ≠ some .stopScan ∧ stopDutiesOwed s = false ∧ s.host.rsp = none ∧ s.host.rspBuf.length = 6 ∧
       decode .response (s.host.rspBuf ++ [0x81]) = .ok (.rspScanack fieldsV71, [])) := by decide
/-- Its clauses on the stop duties (R252): owed, at a sending, a reading and a `Start`; and the sensor obeys. -/
theorem witness_StepRunsTheHostsUnits_stopDuties :
    (let s := owing [.hostSend]
     stopEnabled s = false ∧ s.sched = .hostSend :: [] ∧ s.stopOwed = true ∧ s.phase = .idle ∧ s.idleByClosed = false) ∧
    (let s := owing [.hostRead]
     stopEnabled s = false ∧ s.sched = .hostRead :: [] ∧ s.rx = .byte 1 :: [] ∧ stopDutiesOwed s = true) ∧
    (let s := { State.reset with sched := [.stopObeyed], draining := true }
     stopEnabled s = false ∧ s.sched = .stopObeyed :: []) ∧
    (let s := owing [.start]
     stopEnabled s = false ∧ s.sched = .start :: [] ∧ stopDutiesOwed s = true ∧ s.out = none) := by decide
theorem witness_UnlistedCommandIsRefused :
    let s := { State.reset with sched := [.hostSend], host := { HostSide.initial with cmds := [0xA5, 0x61] } }
    stopEnabled s = false ∧ (s.sched = .hostSend :: [] ∨ s.sched = .hostSendFails :: []) ∧
      s.host.call ≠ some .stopScan ∧ stopDutiesOwed s = false ∧ s.host.cmds = 0xA5 :: 0x61 :: [] ∧
      ((0xA5 : Byte) ≠ 0xA5 ∨ ((0x61 : Byte) ≠ 0x60 ∧ (0x61 : Byte) ≠ 0x65 ∧ (0x61 : Byte) ≠ 0x90 ∧
        (0x61 : Byte) ≠ 0x92 ∧ (0x61 : Byte) ≠ 0x40)) := by decide
theorem witness_TimeoutRaisesShortRead :
    (Offers (started [.source] [.timeout]) .timeout [] [] ∧ Ready (started [.source] [.timeout]) .header) ∧
    (Offers (inPayload hdrV13 [0x0A, 0xD0] .timeout) .timeout [] [] ∧
      Ready (inPayload hdrV13 [0x0A, 0xD0] .timeout) .payload) :=
  ⟨⟨⟨rfl, rfl⟩, ⟨rfl, rfl, rfl⟩⟩, ⟨⟨rfl, rfl⟩, ⟨rfl, rfl, rfl⟩⟩⟩
theorem witness_IoFailAndClosed :
    Phase.header ≠ .idle ∧ Phase.payload ≠ .idle ∧ Ready (started [.source] [.ioFail]) .header ∧
    Offers (started [.source] [.ioFail]) .ioFail [] [] ∧ Ready (inPayload hdrV13 [] .closed) .payload ∧
    Offers (inPayload hdrV13 [] .closed) .closed [] [] :=
  ⟨by decide, by decide, ⟨rfl, rfl, rfl⟩, ⟨rfl, rfl⟩, ⟨rfl, rfl, rfl⟩, ⟨rfl, rfl⟩⟩
/-- One for each clause: all four conditions; all but HCNT = 0. -/
theorem witness_StopStepComesFirst :
    (let s := { started [] [] with stopPending := true }
     s.out = none ∧ s.phase = .header ∧ s.hcnt = 0 ∧ s.stopPending = true) ∧
    (let s := { started [.take] [] with stopPending := true, hcnt := 1 }
     ¬ (s.out = none ∧ s.phase = .header ∧ s.hcnt = 0 ∧ s.stopPending = true)) := by decide
theorem witness_StartIsAcceptedOnlyInIdle :
    let s := { State.reset with sched := [.start] }
    stopEnabled s = false ∧ s.sched = .start :: [] ∧ stopDutiesOwed s = false ∧
    stopEnabled (stopStep (started [.start] [])) = false ∧ (stopStep (started [.start] [])).out ≠ none := by decide
/-- One for each clause: HEADER with a request pending already, PAYLOAD, IDLE, and a turn that offers the event. -/
theorem witness_StopReqIsLatched :
    { started [] [] with stopPending := true }.phase = .header ∧ (inPayload hdrV13 [] .timeout).phase = .payload ∧
    State.reset.phase = .idle ∧ stopEnabled (started [.stopReq] []) = false ∧
    (started [.stopReq] []).sched = .stopReq :: [] := by decide
theorem witness_TakeEmptiesOut :
    (let s := { started [.take] [] with out := some .endOfStream }
     s.sched = .take :: [] ∧ s.out = some .endOfStream) ∧
    (let s := started [.take] []
     stopEnabled s = false ∧ s.sched = .take :: [] ∧ s.out = none) := by decide
theorem witness_SourceWaitsWhileBlocked :
    (let s := { started [.source] [.byte 1] with out := some .endOfStream }
     s.sched = .source :: [] ∧ s.out ≠ none) ∧
    (let s := { State.reset with sched := [.source], rx := [.byte 1] }
     s.sched = .source :: [] ∧ s.phase = .idle) := by decide

/-- The invariant holds in the middle of V13's payload. -/
theorem inv_inPayload : Inv (inPayload hdrV13 [0x0A, 0xD0] (.byte 0x07)) where
  idle h := absurd h (by decide)
  header h := absurd h (by decide)
  payload _ := by decide
  headerXacc h := absurd h (by decide)
  payloadXacc _ := ⟨[0x0A, 0xD0], rfl, rfl⟩
  memory := by decide
  scratch := rfl
  drained h := absurd h (by decide)

/-- The invariant holds with nine bytes of V20's header captured. -/
theorem inv_lastHeaderByte : Inv (lastHeaderByte hdrV20 0x5B) where
  idle h := absurd h (by decide)
  header _ := by decide
  payload h := absurd h (by decide)
  headerXacc _ _ := by decide
  payloadXacc h := absurd h (by decide)
  memory := by decide
  scratch := rfl
  drained h := absurd h (by decide)

theorem witness_EveryStepKeepsTheInvariant :
    Inv (inPayload hdrV13 [0x0A, 0xD0] (.byte 0x07)) ∧ OutOk (inPayload hdrV13 [0x0A, 0xD0] (.byte 0x07)) ∧
    ∃ t, step (inPayload hdrV13 [0x0A, 0xD0] (.byte 0x07)) = .next t :=
  ⟨inv_inPayload, fun _ h => (by cases h), _, rfl⟩
theorem witness_NoStepFaults : Inv (lastHeaderByte hdrV20 0x5B) := inv_lastHeaderByte
theorem witness_EveryItemWrittenIsSound :
    Inv (lastHeaderByte hdrV20 0x5B) ∧ OutOk (lastHeaderByte hdrV20 0x5B) ∧
    ∃ t, step (lastHeaderByte hdrV20 0x5B) = .next t ∧ t.out ≠ none :=
  ⟨inv_lastHeaderByte, fun _ h => (by cases h), _, rfl, by decide⟩
theorem witness_XaccAtCompletionIsXor16 :
    (Inv (lastHeaderByte hdrV20 0x5B) ∧ (lastHeaderByte hdrV20 0x5B).phase = .header ∧
      (lastHeaderByte hdrV20 0x5B).hcnt = 9) ∧
    (let s := inPayload hdrV13 [0x0A, 0xD0] (.byte 0x07)
     Inv s ∧ s.phase = .payload ∧ writtenBytes s.pbuf s.pcnt.toNat = some [0x0A, 0xD0]) :=
  ⟨⟨inv_lastHeaderByte, rfl, rfl⟩, ⟨inv_inPayload, rfl, rfl⟩⟩
/-- An item in OUT with a step that takes it, and OUT empty with a step. -/
theorem witness_ItemsAreNeverOverwrittenOrLost :
    (let s := { started [.take] [] with out := some .endOfStream }
     s.out = some .endOfStream ∧ ∃ t, step s = .next t) ∧
    (State.reset.out = none ∧ ∃ t, step State.reset = .next t) := ⟨⟨rfl, _, rfl⟩, ⟨rfl, _, rfl⟩⟩
theorem witness_IdleWritesNoItem : State.reset.phase = .idle ∧ ∃ t, step State.reset = .next t := ⟨rfl, _, rfl⟩
/-- Idle left by `Start`, and by the end of a negotiation; scanning left by the stop step. -/
theorem witness_ModesAreLeftAndEnteredOnlyAsListed :
    (let s := { State.reset with sched := [.start] }
     ∃ t, step s = .next t ∧ s.phase = .idle ∧ t.phase ≠ .idle) ∧
    (let s := awaiting .startScan [0xA5, 0x5A, 0x05, 0, 0, 0x40] 0x81
     ∃ t, step s = .next t ∧ s.phase = .idle ∧ t.phase ≠ .idle) ∧
    (let s := { started [] [] with stopPending := true }
     ∃ t, step s = .next t ∧ s.phase ≠ .idle ∧ t.phase = .idle) :=
  ⟨⟨_, rfl, rfl, by decide⟩, ⟨_, rfl, rfl, by decide⟩, ⟨_, rfl, by decide, rfl⟩⟩
/-- A byte taken by a step, a byte that arrives, one discarded as it arrives, and bytes discarded by the stop command and by
an accepted `Start`. -/
theorem witness_EventsAreConsumedInOrderOnce :
    (∃ t, step (inPayload hdrV13 [0x0A, 0xD0] (.byte 0x07)) = .next t ∧ t.rx = []) ∧
    (∃ t, step { State.reset with line := [.byte 1], sched := [.arrive] } = .next t ∧ t.rx = [.byte 1]) ∧
    (∃ t, step { State.reset with line := [.byte 1], sched := [.arrive], draining := true } = .next t ∧ t.rx = []) ∧
    (∃ t, step (stopping [.hostSend]) = .next t ∧ t.rx = []) ∧
    (∃ t, step (owing [.start]) = .next t ∧ t.rx = [] ∧ t.phase = .header) :=
  ⟨⟨_, rfl, rfl⟩, ⟨_, rfl, rfl⟩, ⟨_, rfl, rfl⟩, ⟨_, rfl, rfl⟩, ⟨_, rfl, rfl, rfl⟩⟩
/-- A step that writes an item, and a step from a frame boundary with OUT full. -/
theorem witness_StopPendingAllowsOneMoreItem :
    (let s := { lastHeaderByte hdrV20 0x5B with stopPending := true }
     Inv s ∧ s.phase ≠ .idle ∧ s.stopPending = true ∧ s.out = none ∧ ∃ t, step s = .next t ∧ t.out ≠ none) ∧
    (let s := { started [.take] [] with stopPending := true, out := some (.error .ioError) }
     Inv s ∧ s.phase = .header ∧ s.hcnt = 0 ∧ s.stopPending = true ∧ ∃ t, step s = .next t ∧ t.out = none) :=
  ⟨⟨⟨fun h => absurd h (by decide), fun _ => by decide, fun h => absurd h (by decide),
      fun _ _ => by decide, fun h => absurd h (by decide), by decide, rfl, fun h => absurd h (by decide)⟩, by decide, rfl, rfl, _, rfl,
      by decide⟩,
   ⟨⟨fun h => absurd h (by decide), fun _ => by decide, fun h => absurd h (by decide),
      fun _ h => absurd rfl h, fun h => absurd h (by decide), by decide, rfl, fun h => absurd h (by decide)⟩, rfl, rfl, rfl, _, rfl, rfl⟩⟩
theorem witness_CommandsLeaveTheBlockUntouched :
    Instr.cmdReset.place = .command ∧ ∃ t, exec .cmdReset State.reset = .next t := ⟨rfl, _, rfl⟩
/-- V20 and its payload of no byte; V13 and its payload of three. -/
theorem witness_WholeFrameYieldsDecodeFrame :
    FreshBoundary (started [] []) ∧ (hdrV20.toList.length = 10 ∧ ([] : List Byte).length = payloadLength hdrV20.toList) ∧
    (hdrV13.toList.length = 10 ∧ ([0x0A, 0xD0, 0x07] : List Byte).length = payloadLength hdrV13.toList) :=
  ⟨⟨rfl, rfl, rfl, rfl, rfl⟩, by decide, by decide⟩
theorem witness_PartOfAFrameYieldsNothing :
    FreshBoundary (started [] []) ∧ hdrV13.toList.length = 10 ∧
    ([0x0A, 0xD0, 0x07] : List Byte).length = payloadLength hdrV13.toList ∧ 12 < 10 + ([0x0A, 0xD0, 0x07] : List Byte).length :=
  ⟨⟨rfl, rfl, rfl, rfl, rfl⟩, by decide, by decide, by decide⟩
/-- A good acknowledgement; a response that ends before its first byte, and before its seventh. -/
theorem witness_NegotiationDecidesTheStart :
    let s := { State.reset with host := { HostSide.initial with call := some .startScan } }
    s.phase = .idle ∧ s.out = none ∧ stopDutiesOwed s = false ∧ s.host.call = some .startScan ∧ s.host.rspBuf = [] ∧ s.host.rsp = none ∧
    ([0xA5, 0x5A, 0x05, 0, 0, 0x40, 0x81] : List Byte).length = 7 ∧
    ([] : List Byte).length < 7 ∧ ([0xA5, 0x5A, 0x05, 0, 0, 0x40] : List Byte).length < 7 ∧
    (SrcEvent.timeout = .timeout ∨ SrcEvent.timeout = .ioFail ∨ SrcEvent.timeout = .closed) := by decide

end Sys2Proof.Tests
end

/-! ## ANGLE_EPS on the circle (R11, R203 to R210): R207 in the reals, and an implementation built on an approximate CORR -/

namespace Sys2Proof.Machine

/-! ### The emitted expressions as numbers -/

theorem fullTurn_cast : (Config.fullTurn : ℝ) = 360 := by simp [Config.fullTurn]

theorem rmod360_zero : rmod360 0 = 0 := by simp [rmod360]

theorem corrExact_ok : corrExact.Ok := by simp [Corr.Ok, corrExact]

theorem map_eval_interpolate {corr : Corr} (h : corr.Ok) (fsa span : Deg) (n i : Nat) (ds : List (BitVec 14)) :
    (interpolate fsa span n i ds).map (Deg.eval corr) =
      interpolateReal corr (fsa.eval corr) (span.eval corr) n i ds := by
  induction ds generalizing i with
  | nil => rfl
  | cons d ds ih => simp [interpolate, interpolateReal, eval_ofCorr h, ih]

/-- R207: the emitted expressions stand for the numbers of the formulas (R209). -/
theorem map_eval_angles {corr : Corr} (h : corr.Ok) (s e : ℚ) (d : List (BitVec 14)) :
    (angles s e d).map (Deg.eval corr) = anglesReal corr s e d := by
  match d with
  | [] => rfl
  | [d] => simp [angles, anglesReal, anglesOfSpan, eval_ofCorr h, Deg.eval]
  | d :: d' :: ds =>
    simp only [angles, anglesReal, anglesOfSpan, spanReal, map_eval_interpolate h, eval_plus, eval_minus, eval_wrap,
      eval_ofCorr h, Deg.eval]

theorem interpolateReal_inRange (corr : Corr) (fsa span : ℝ) (n i : Nat) (ds : List (BitVec 14)) :
    ∀ x ∈ interpolateReal corr fsa span n i ds, 0 ≤ x ∧ x < 360 := by
  induction ds generalizing i with
  | nil => simp [interpolateReal]
  | cons d ds ih => simpa [interpolateReal] using ⟨⟨rmod360_nonneg _, rmod360_lt _⟩, ih (i + 1)⟩

/-- Whatever span they are interpolated with, the angles are normalised (R206). -/
theorem anglesOfSpan_inRange (corr : Corr) (s span : ℝ) (d : List (BitVec 14)) :
    ∀ x ∈ anglesOfSpan corr s span d, 0 ≤ x ∧ x < 360 := by
  match d with
  | [] => simp [anglesOfSpan]
  | [d] => simpa [anglesOfSpan] using ⟨rmod360_nonneg _, rmod360_lt _⟩
  | d :: d' :: ds => exact interpolateReal_inRange _ _ _ _ _ _

/-! ### Within an ANGLE_EPS -/

/-- Raw angles within `eps` degrees are within `eps` on the circle once normalised (R210). -/
theorem angleWithin_rmod360 {eps x y : ℝ} (h : |x - y| ≤ eps) : AngleWithin eps (rmod360 x) (rmod360 y) :=
  ⟨rmod360_nonneg x, fullTurn_cast ▸ rmod360_lt x, (circleDist_rmod360_le x y 0).trans (by simpa using h)⟩

theorem angleWithin_zero_iff {x y : ℝ} (hy : 0 ≤ y ∧ y < 360) : AngleWithin 0 x y ↔ x = y := by
  constructor
  · rintro ⟨hx, hx', hd⟩
    rw [fullTurn_cast] at hx'
    exact eq_of_circleDist_le_zero hx hx' hy.1 hy.2 hd
  · rintro rfl
    exact ⟨hy.1, fullTurn_cast ▸ hy.2, by simp [circleDist]⟩

/-- ANGLE_EPS = 0 admits the exact angles alone (R210). -/
theorem anglesWithin_zero_iff {ys : List ℝ} (hy : ∀ y ∈ ys, 0 ≤ y ∧ y < 360) (xs : List ℝ) :
    AnglesWithin 0 xs ys ↔ xs = ys := by
  induction ys generalizing xs with
  | nil => exact List.forall₂_nil_right_iff
  | cons y ys ih =>
    obtain ⟨hy, hys⟩ := List.forall_mem_cons.mp hy
    cases xs with
    | nil => simp [AnglesWithin]
    | cons x xs =>
      rw [AnglesWithin, List.forall₂_cons, List.cons.injEq, angleWithin_zero_iff hy]
      exact and_congr_right' (ih hys xs)

/-! ### The span of an approximate correction (R203, R210) -/

/-- LSA - FSA (R203) before it is normalised. -/
noncomputable def rawSpan (corr : Corr) (s e : ℝ) : List (BitVec 14) → ℝ
  | [] => 0
  | [_] => 0
  | d :: d' :: ds => e + corr ((d' :: ds).getLast (List.cons_ne_nil _ _)) - (s + corr d)

theorem spanReal_eq_rmod360_rawSpan (corr : Corr) (s e : ℝ) (d : List (BitVec 14)) :
    spanReal corr s e d = rmod360 (rawSpan corr s e d) := by
  match d with
  | [] => exact rmod360_zero.symm
  | [_] => exact rmod360_zero.symm
  | _ :: _ :: _ => rfl

theorem Corr.Within.nonneg {eps : ℝ} {corr : Corr} (h : corr.Within eps) : 0 ≤ eps :=
  (abs_nonneg _).trans (h 0)

/-- The two ends of the span are corrected once each, so that its error is at most `2 * eps`. -/
theorem abs_rawSpan_sub_le {eps : ℝ} {corr : Corr} (h : corr.Within eps) (s e : ℝ) (d : List (BitVec 14)) :
    |rawSpan corr s e d - rawSpan corrExact s e d| ≤ 2 * eps := by
  have h0 := h.nonneg
  match d with
  | [] => simpa [rawSpan] using h0
  | [_] => simpa [rawSpan] using h0
  | d :: d' :: ds =>
    have hf := abs_le.mp (h d)
    have hl := abs_le.mp (h ((d' :: ds).getLast (List.cons_ne_nil _ _)))
    simp only [rawSpan, abs_le]
    constructor <;> linarith [hf.1, hf.2, hl.1, hl.2]

/-- The implementation that evaluates R207 with `corr` in place of the exact correction: its ANGLE_EPS, and the whole turns
by which its span differs from the exact one (R210). -/
noncomputable def Approx.ofCorr (corr : Corr) (eps : ℝ) : Approx :=
  { angleEps := 2 * eps
    spanNear := 2 * eps
    spanTurn := fun s e d => ⌊rawSpan corrExact s e d / 360⌋ - ⌊rawSpan corr s e d / 360⌋ }

/-- The span of `corr` is the one `Approx.ofCorr` decides on, but for the error of the raw span. -/
theorem spanReal_eq_ofCorr (corr : Corr) (eps : ℝ) (s e : ℚ) (d : List (BitVec 14)) :
    spanReal corr s e d = spanReal corrExact s e d + 360 * (Approx.ofCorr corr eps).spanTurn s e d +
      (rawSpan corr s e d - rawSpan corrExact s e d) := by
  simp only [spanReal_eq_rmod360_rawSpan, rmod360_eq, Approx.ofCorr]
  push_cast
  ring

/-- Two numbers at most one turn apart lie in the same or in neighbouring turns. -/
theorem floor_turn_sub {x y : ℝ} (h : |x - y| ≤ 360) :
    ⌊y / 360⌋ - ⌊x / 360⌋ = 0 ∨ ⌊y / 360⌋ - ⌊x / 360⌋ = 1 ∨ ⌊y / 360⌋ - ⌊x / 360⌋ = -1 := by
  obtain ⟨h1, h2⟩ := abs_le.mp h
  have hxy : ⌊x / 360⌋ ≤ ⌊y / 360⌋ + 1 := by
    rw [← Int.floor_add_one]; exact Int.floor_le_floor (by linarith)
  have hyx : ⌊y / 360⌋ ≤ ⌊x / 360⌋ + 1 := by
    rw [← Int.floor_add_one]; exact Int.floor_le_floor (by linarith)
  omega

/-- A span is decided otherwise than exactly only within `2 * eps` of 0 or 360 (R210). -/
theorem Approx.ofCorr_ok {eps : ℝ} {corr : Corr} (h : corr.Within eps) (heps : eps ≤ 180) :
    (Approx.ofCorr corr eps).Ok := by
  intro s e d
  have hraw := abs_rawSpan_sub_le h s e d
  have hspan := spanReal_eq_ofCorr corr eps s e d
  have hlo : 0 ≤ spanReal corr s e d := spanReal_eq_rmod360_rawSpan corr s e d ▸ rmod360_nonneg _
  have hhi : spanReal corr s e d < 360 := spanReal_eq_rmod360_rawSpan corr s e d ▸ rmod360_lt _
  obtain ⟨hraw1, hraw2⟩ := abs_le.mp hraw
  have hturn : (Approx.ofCorr corr eps).spanTurn s e d = 0 ∨ (Approx.ofCorr corr eps).spanTurn s e d = 1 ∨
      (Approx.ofCorr corr eps).spanTurn s e d = -1 := floor_turn_sub (hraw.trans (by linarith))
  have hnear : (Approx.ofCorr corr eps).spanNear = 2 * eps := rfl
  rw [hnear, fullTurn_cast]
  rcases hturn with hk | hk | hk <;> rw [hk] at hspan <;> push_cast at hspan
  · exact .inl hk
  · exact .inr (.inl ⟨hk, by linarith⟩)
  · exact .inr (.inr ⟨hk, by linarith⟩)

/-! ### The interpolated angles (R204) -/

/-- Between two ends that are off by at most `eps`, every point of the way is. -/
theorem abs_between_le {eps x y t : ℝ} (hx : |x| ≤ eps) (hy : |y| ≤ eps) (h0 : 0 ≤ t) (h1 : t ≤ 1) :
    |x + (y - x) * t| ≤ eps := by
  calc |x + (y - x) * t| = |(1 - t) * x + t * y| := by ring_nf
    _ ≤ (1 - t) * |x| + t * |y| := by
        refine (abs_add_le _ _).trans_eq ?_
        rw [abs_mul, abs_mul, abs_of_nonneg h0, abs_of_nonneg (sub_nonneg.mpr h1)]
    _ ≤ (1 - t) * eps + t * eps :=
        add_le_add (mul_le_mul_of_nonneg_left hx (sub_nonneg.mpr h1)) (mul_le_mul_of_nonneg_left hy h0)
    _ = eps := by ring

/-- Where first and last angle are off by at most `eps`, every interpolated and corrected angle is by at most `2 * eps`:
`eps` for its place between the ends and `eps` for its own correction. -/
theorem interpolateReal_within {eps : ℝ} {corr : Corr} (h : corr.Within eps) {fsa fsa' span span' : ℝ}
    (hf : |fsa - fsa'| ≤ eps) (hl : |(fsa + span) - (fsa' + span')| ≤ eps) (n i : Nat) (ds : List (BitVec 14))
    (hi : i + ds.length ≤ n + 1) :
    AnglesWithin (2 * eps) (interpolateReal corr fsa span n i ds) (interpolateReal corrExact fsa' span' n i ds) := by
  induction ds generalizing i with
  | nil => exact .nil
  | cons d ds ih =>
    rw [List.length_cons] at hi
    refine .cons (angleWithin_rmod360 ?_) (ih (i + 1) (by omega))
    have ht : (i : ℝ) / n ≤ 1 := div_le_one_of_le₀ (by exact_mod_cast (by omega : i ≤ n)) (Nat.cast_nonneg n)
    have hplace := abs_between_le hf hl (by positivity) ht
    calc |fsa + span / n * i + corr d - (fsa' + span' / n * i + corrExact d)|
        = |(fsa - fsa' + ((fsa + span) - (fsa' + span') - (fsa - fsa')) * (i / n)) + (corr d - corrExact d)| := by
          ring_nf
      _ ≤ eps + eps := (abs_add_le _ _).trans (add_le_add hplace (h d))
      _ = 2 * eps := by ring

/-- R205: one sample is off by the error of its correction alone. -/
theorem one_angle_within {eps : ℝ} {corr : Corr} (h : corr.Within eps) (s : ℝ) (d : BitVec 14) :
    AngleWithin eps (rmod360 (s + corr d)) (rmod360 (s + corrExact d)) :=
  angleWithin_rmod360 (by rw [add_sub_add_left_eq_sub]; exact h d)

/-- The angles computed with `corr` conform to what `Approx.ofCorr` states (R11, R210). -/
theorem Approx.ofCorr_conforms {eps : ℝ} {corr : Corr} (hok : corr.Ok) (h : corr.Within eps) (s e : ℚ)
    (d : List (BitVec 14)) : (Approx.ofCorr corr eps).Conforms s e d ((angles s e d).map (Deg.eval corr)) := by
  have h0 := h.nonneg
  have hspan := spanReal_eq_ofCorr corr eps s e d
  rw [map_eval_angles hok, Approx.Conforms, Approx.reference, anglesReal, fullTurn_cast]
  match d with
  | [] => exact .nil
  | [d] =>
    have hmono : Corr.Within (2 * eps) corr := fun x => (h x).trans (by linarith)
    exact .cons (one_angle_within hmono s d) .nil
  | d :: d' :: ds =>
    refine interpolateReal_within h (by rw [add_sub_add_left_eq_sub]; exact h d) ?_ _ 0 _ (by simp)
    rw [hspan]
    have hlast := h ((d' :: ds).getLast (List.cons_ne_nil _ _))
    simp only [rawSpan]
    refine (congrArg abs ?_).trans_le hlast
    ring

/-! ### Conforming to the exact span -/

/-- Where the span is not taken at the other end, the reference is what the model emits. -/
theorem Approx.reference_of_spanTurn_zero {imp : Approx} {s e : ℚ} {d : List (BitVec 14)} (h : imp.spanTurn s e d = 0) :
    imp.reference s e d = (angles s e d).map (Deg.eval corrExact) := by
  rw [Approx.reference, h, map_eval_angles corrExact_ok, anglesReal]
  simp

/-- R210: away from 0 and 360 the span is decided exactly. -/
theorem Approx.spanTurn_eq_zero {imp : Approx} (hok : imp.Ok) {s e : ℚ} {d : List (BitVec 14)}
    (hlo : imp.spanNear ≤ spanReal corrExact s e d) (hhi : spanReal corrExact s e d < 360 - imp.spanNear) :
    imp.spanTurn s e d = 0 := by
  rcases hok s e d with h | ⟨_, h⟩ | ⟨_, h⟩
  · exact h
  · exact absurd hlo (not_le.mpr h)
  · rw [fullTurn_cast] at h
    exact absurd hhi (not_lt.mpr h)

theorem angles_eval_inRange (s e : ℚ) (d : List (BitVec 14)) :
    ∀ x ∈ (angles s e d).map (Deg.eval corrExact), 0 ≤ x ∧ x < 360 := by
  rw [map_eval_angles corrExact_ok]
  exact anglesOfSpan_inRange _ _ _ _

/-- Settles O19: an implementation with an approximate CORR is `Approx.ofCorr`, and ANGLE_EPS = 0 leaves no other angle. -/
theorem approximateAngleStaysNearOnTheCircle : Obligations.ApproximateAngleStaysNearOnTheCircle := by
  refine ⟨fun eps corr hok hw => ⟨?_, fun heps => ?_⟩, fun imp s e d xs hok hlo hhi => ?_, fun s e d xs => ?_,
    fun p xs hp => ?_⟩
  · rintro s e d a ha
    cases ha
    simpa [eval_ofCorr hok, eval_ofCorr corrExact_ok, Deg.eval] using one_angle_within hw s d
  · exact ⟨Approx.ofCorr corr eps, Approx.ofCorr_ok hw heps, rfl, rfl, Approx.ofCorr_conforms hok hw⟩
  · rw [Approx.Conforms, Approx.reference_of_spanTurn_zero (Approx.spanTurn_eq_zero hok hlo hhi)]
  · rw [Approx.Conforms, Approx.reference_of_spanTurn_zero rfl]
    exact anglesWithin_zero_iff (angles_eval_inRange s e d) xs
  · refine anglesWithin_zero_iff (fun y hy => ?_) xs
    obtain ⟨x, hx, rfl⟩ := List.mem_map.mp hy
    exact hp x hx corrExact corrExact_ok

end Sys2Proof.Machine

/-! ## The events of a run (R18, R61, R252): what each step does to the line and to the received events -/

namespace Sys2Proof.Machine

/-! ### A flush -/

/-- The received events that a flush keeps are every one but the bytes (R252). -/
theorem bytesDiscarded_filter (rx : List SrcEvent) : BytesDiscarded rx (rx.filter (fun e => !e.isByte)) := by
  refine ⟨fun b hb => ?_, fun e he => ?_, List.filter_sublist⟩
  · simp [SrcEvent.isByte] at hb
  · refine List.count_filter ?_
    cases e with
    | byte b => exact absurd rfl (he b)
    | timeout => rfl
    | ioFail => rfl
    | closed => rfl

/-- The step leaves the line and the received events alone. -/
structure SameEvents (s t : State) : Prop where
  line : t.line = s.line
  rx : t.rx = s.rx

theorem SameEvents.refl (s : State) : SameEvents s s := ⟨rfl, rfl⟩

/-- Neither the turns to come nor the host's side belong to the events. -/
theorem SameEvents.of_env {s t : State} {q : List Turn} {c : HostSide}
    (h : SameEvents { s with sched := q, host := c } t) : SameEvents s t := ⟨h.line, h.rx⟩

theorem SameLink.sameEvents {s t : State} (h : SameLink s t) : SameEvents s t := ⟨h.line, h.rx⟩

/-- The step flushes the received bytes in Idle, and not after `Closed` (R252, R278). -/
structure Flushed (s t : State) : Prop where
  line : t.line = s.line
  phase : s.phase = .idle
  idleByClosed : s.idleByClosed = false
  rx : t.rx = s.rx.filter (fun e => !e.isByte)

theorem Flushed.of_env {s t : State} {q : List Turn} {c : HostSide}
    (h : Flushed { s with sched := q, host := c } t) : Flushed s t := ⟨h.line, h.phase, h.idleByClosed, h.rx⟩

/-! ### The block's own steps -/

/-- The meaning of a frame reads the captured bytes only, and leaves the events of SOURCE alone (R146, R150). -/
theorem execScan_sameEvents {bs rest : List Byte} {i : Instr} (hi : decodeScan bs = .ok (i, rest)) {s t : State}
    (h : exec i s = .next t) : SameEvents s t := by
  rcases decodeScan_ok hi with ⟨hd, rfl, _⟩ | ⟨hd, ss, rfl, _⟩
  · cases (execScanHm_eq s hd).symm.trans h
    split <;> exact ⟨rfl, rfl⟩
  · cases (execScanPc_eq s hd ss).symm.trans h
    split
    · exact ⟨rfl, rfl⟩
    · split <;> exact ⟨rfl, rfl⟩

/-- Whatever the registers hold, a captured frame is a unit of format SCAN (R89). -/
theorem fetchFrame_ok {s : State} {i : Instr} (h : fetchFrame s = .ok i) :
    ∃ bs rest, decodeScan bs = .ok (i, rest) := by
  unfold fetchFrame at h
  dsimp only at h
  split at h
  · cases h
  · split at h
    · next hd => cases h; exact ⟨_, _, hd⟩
    · cases h

theorem runFrame_sameEvents {s t : State} (h : runFrame s = .next t) : SameEvents s t := by
  unfold runFrame at h
  split at h
  · next hf =>
    obtain ⟨bs, rest, hd⟩ := fetchFrame_ok hf
    exact execScan_sameEvents hd h
  · cases h

theorem headerComplete_sameEvents {s t : State} (h : headerComplete s = .next t) : SameEvents s t := by
  unfold headerComplete dispatch at h
  split at h
  · cases h; exact ⟨rfl, rfl⟩
  · split at h
    · exact runFrame_sameEvents h
    · split at h
      · exact runFrame_sameEvents h
      · cases h; exact ⟨rfl, rfl⟩

theorem hdrCapture_sameEvents {b : Byte} {s t : State} (h : hdrCapture b s = .next t) : SameEvents s t := by
  unfold hdrCapture at h
  split at h
  · dsimp only at h
    split at h
    · cases h; exact ⟨rfl, rfl⟩
    · obtain ⟨hl, hr⟩ := headerComplete_sameEvents h
      exact ⟨hl, hr⟩
  · cases h

theorem payCapture_sameEvents {b : Byte} {s t : State} (h : payCapture b s = .next t) : SameEvents s t := by
  unfold payCapture at h
  split at h
  · cases h
  · dsimp only at h
    split at h
    · cases h; exact ⟨rfl, rfl⟩
    · obtain ⟨hl, hr⟩ := runFrame_sameEvents h
      exact ⟨hl, hr⟩

/-- An event that PARSER has taken is gone already, and what it does with the event touches no other one (R34). -/
theorem parserEvent_sameEvents {e : SrcEvent} {s t : State} (h : parserEvent e s = .next t) : SameEvents s t := by
  cases e with
  | byte b =>
    cases hp : s.phase with
    | header => exact hdrCapture_sameEvents ((byteArrives_header b hp).symm.trans h)
    | payload => exact payCapture_sameEvents ((byteArrives_payload b hp).symm.trans h)
    | idle =>
      simp only [parserEvent, byteArrives, hp] at h
      cases h; exact .refl s
  | timeout => cases h; exact ⟨rfl, rfl⟩
  | ioFail => cases h; exact ⟨rfl, rfl⟩
  | closed => cases h; exact ⟨rfl, rfl⟩

/-! ### The host's sending -/

/-- The stop duties, where they are due, flush and surface their result; else nothing happens (R252). -/
theorem stopDuties_events (r : CallResult) (drain : Bool) (s : State) :
    SameEvents s (stopDuties r drain s) ∨
      (Flushed s (stopDuties r drain s) ∧ (stopDuties r drain s).tx = s.tx ∧
        (stopDuties r drain s).host.result = some r) := by
  rcases stopDuties_cases r drain s with ⟨hd, he⟩ | ⟨_, he⟩ <;> rw [he]
  · obtain ⟨hp, hc⟩ := (stopDutiesDue_iff s).mp hd
    exact .inr ⟨⟨rfl, hp, hc, rfl⟩, rfl, rfl⟩
  · exact .inl (.refl s)

/-- What a sent command may do to the events: keep them, or, for CMD.STOP, flush after its two bytes (R252). -/
def SentEvents (s t : State) : Prop :=
  SameEvents s t ∨ (Flushed s t ∧ t.tx = s.tx ++ [0xA5, 0x65] ∧ t.host.result = some .stopped)

theorem execCommand_sentEvents {i : Instr}
    (hi : i = .cmdStart ∨ i = .cmdStop ∨ i = .cmdDevinfo ∨ i = .cmdHealth ∨ i = .cmdReset) {s t : State}
    (h : exec i s = .next t) : SentEvents s t := by
  rcases hi with rfl | rfl | rfl | rfl | rfl <;> cases h
  · obtain ⟨hl, hr⟩ := (beginCall_sameLink .startScan (setSensor true (transmit Config.opStart s))).sameEvents
    exact .inl ⟨hl, hr⟩
  · rcases stopDuties_events .stopped true (setSensor false (transmit Config.opStop s)) with
      ⟨hl, hr⟩ | ⟨⟨hl, hp, hc, hr⟩, htx, hres⟩
    · exact .inl ⟨hl, hr⟩
    · exact .inr ⟨⟨hl, hp, hc, hr⟩, htx, hres⟩
  · obtain ⟨hl, hr⟩ := (beginCall_sameLink .deviceInfo (transmit Config.opDevinfo s)).sameEvents
    exact .inl ⟨hl, hr⟩
  · obtain ⟨hl, hr⟩ := (beginCall_sameLink .healthStatus (transmit Config.opHealth s)).sameEvents
    exact .inl ⟨hl, hr⟩
  · exact .inl ⟨rfl, rfl⟩

theorem hostSend_sentEvents {s t : State} (h : hostSend s = .next t) : SentEvents s t := by
  rcases withCommand_cases exec s with he | ⟨_, _, he⟩ | ⟨_, _, _, he⟩ | ⟨_, _, b0, b1, r, i, _, hd, he⟩ | ⟨b0, b1, he⟩
  · cases he.symm.trans h; exact .inl (.refl _)
  · exact execCommand_sentEvents (.inr (.inl rfl)) (he.symm.trans h)
  · cases he.symm.trans h; exact .inl ⟨rfl, rfl⟩
  · obtain ⟨hi, _⟩ := decodeCommand_ok hd
    exact (execCommand_sentEvents hi (he.symm.trans h)).imp .of_env fun ⟨hf, hx⟩ => ⟨hf.of_env, hx⟩
  · cases he.symm.trans h

/-- What a failed sending may do to the events: keep them, or, for CMD.STOP, flush with IoError (R252, log entry 18). -/
def SendFailedEvents (s t : State) : Prop :=
  SameEvents s t ∨ (Flushed s t ∧ t.tx = s.tx ∧ t.host.result = some .ioError)

theorem commandFailed_events {i : Instr} {s t : State} (h : commandFailed i s = .next t) : SendFailedEvents s t := by
  cases h
  split
  · exact stopDuties_events .ioError false s
  · split <;> exact .inl ⟨rfl, rfl⟩

theorem hostSendFails_events {s t : State} (h : hostSendFails s = .next t) : SendFailedEvents s t := by
  rcases withCommand_cases commandFailed s with
    he | ⟨_, _, he⟩ | ⟨_, _, _, he⟩ | ⟨_, _, b0, b1, r, i, _, _, he⟩ | ⟨b0, b1, he⟩
  · cases he.symm.trans h; exact .inl (.refl _)
  · exact commandFailed_events (he.symm.trans h)
  · cases he.symm.trans h; exact .inl ⟨rfl, rfl⟩
  · exact (commandFailed_events (he.symm.trans h)).imp .of_env fun ⟨hf, hx⟩ => ⟨hf.of_env, hx⟩
  · cases he.symm.trans h

/-! ### The other turns -/

/-- The next event of the line has arrived, or is a byte discarded as it arrives (R50, R252). -/
def Arrived (s t : State) : Prop :=
  ∃ e, s.line = e :: t.line ∧
    ((t.rx = s.rx ++ [e] ∧ (s.draining = true → ∀ b, e ≠ .byte b)) ∨ (t.rx = s.rx ∧ s.draining = true ∧ ∃ b, e = .byte b))

theorem arriveNext_events (s : State) : SameEvents s (arriveNext s) ∨ Arrived s (arriveNext s) := by
  rcases arriveNext_cases s with ⟨_, he⟩ | ⟨e, r, hline, hk, he⟩ | ⟨b, r, hline, hd, he⟩ <;> rw [he]
  · exact .inl (.refl s)
  · refine .inr ⟨e, hline, .inl ⟨rfl, ?_⟩⟩
    rintro hd b rfl
    simp [hd, SrcEvent.isByte] at hk
  · exact .inr ⟨_, hline, .inr ⟨rfl, hd, b, rfl⟩⟩

/-- The first received event is taken, by PARSER or by the host's read (R34, R246). -/
def FirstTaken (s t : State) : Prop := t.line = s.line ∧ ∃ e, s.rx = e :: t.rx

theorem sourceOffer_events {s t : State} (h : sourceOffer s = .next t) : SameEvents s t ∨ FirstTaken s t := by
  rcases sourceOffer_cases s with ⟨he, _⟩ | ⟨e, r, hrx, _, he⟩
  · cases he.symm.trans h; exact .inl (.refl _)
  · obtain ⟨hl, hr⟩ := parserEvent_sameEvents (he.symm.trans h)
    exact .inr ⟨hl, e, by rw [hr, hrx]⟩

theorem hostRead_events {s t : State} (h : hostRead s = .next t) : SameEvents s t ∨ FirstTaken s t := by
  obtain ⟨u, hu, hc⟩ := hostRead_cases s
  cases hu.symm.trans h
  rcases hc with rfl | ⟨_, e, r, hrx, hl, _⟩
  · exact .inl (.refl _)
  · exact .inr ⟨hl.line, e, by rw [hl.rx, hrx]⟩

/-- A `Start` of CONTROL flushes where it is accepted with the stop duties owed, and only there (R252, log entry 13). -/
theorem controlStart_events (s : State) :
    SameEvents s (controlStart s) ∨
      (Flushed s (controlStart s) ∧ s.stopOwed = true ∧ (controlStart s).phase = .header) := by
  rcases controlStart_cases s with ⟨howed, hout, he⟩ | ⟨_, he⟩ <;> rw [he]
  · obtain ⟨hp, hc, hso⟩ := (stopDutiesOwed_iff s).mp howed
    have hl := acceptStart_sameLink (flushRx s)
    rcases acceptStart_cases (flushRx s) with ⟨_, _, ha⟩ | ⟨hn, _⟩
    · exact .inr ⟨⟨hl.line, hp, hc, hl.rx⟩, hso, by rw [ha]⟩
    · exact absurd ⟨hp, hout⟩ hn
  · exact .inl (acceptStart_sameLink s).sameEvents

theorem callStopScan_sameEvents (s : State) : SameEvents s (callStopScan s) := by
  rcases callStopScan_cases s with ⟨_, he⟩ | ⟨_, he⟩ <;> rw [he] <;> exact ⟨rfl, rfl⟩

theorem acceptStopReq_sameEvents (s : State) : SameEvents s (acceptStopReq s) := by
  unfold acceptStopReq; split <;> exact ⟨rfl, rfl⟩

theorem takeItem_sameEvents (s : State) : SameEvents s (takeItem s) := by
  unfold takeItem; split <;> exact ⟨rfl, rfl⟩

/-! ### The step -/

/-- Why a step flushes: CMD.STOP is sent, its sending has failed, or a `Start` is accepted with the duties owed (R252). -/
def FlushCause (s t : State) : Prop :=
  (t.tx = s.tx ++ [0xA5, 0x65] ∧ t.host.result = some .stopped) ∨ (t.tx = s.tx ∧ t.host.result = some .ioError) ∨
    (s.stopOwed = true ∧ t.phase = .header ∧ ∃ ts, s.sched = .start :: ts)

/-- What a step can do to the events of a run. -/
def EventsStep (s t : State) : Prop := SameEvents s t ∨ Arrived s t ∨ FirstTaken s t ∨ (Flushed s t ∧ FlushCause s t)

/-- A turn runs in `s` without that turn. -/
theorem runTurn_events {s t : State} {a : Turn} {ts : List Turn} (hs : s.sched = a :: ts)
    (h : runTurn a { s with sched := ts } = .next t) : EventsStep s t := by
  cases a with
  | arrive => cases h; exact (arriveNext_events _).imp .of_env .inl
  | stopObeyed => cases h; exact .inl ⟨rfl, rfl⟩
  | source => exact (sourceOffer_events h).imp .of_env fun hf => .inr (.inl hf)
  | start =>
    cases h
    exact (controlStart_events _).imp .of_env fun ⟨hf, howed, hphase⟩ =>
      .inr (.inr ⟨hf.of_env, .inr (.inr ⟨howed, hphase, ts, hs⟩)⟩)
  | stopReq => cases h; exact .inl (acceptStopReq_sameEvents _).of_env
  | take => cases h; exact .inl (takeItem_sameEvents _).of_env
  | stopScan => cases h; exact .inl (callStopScan_sameEvents _).of_env
  | hostSend => exact (hostSend_sentEvents h).imp .of_env fun ⟨hf, hx⟩ => .inr (.inr ⟨hf.of_env, .inl hx⟩)
  | hostSendFails =>
    exact (hostSendFails_events h).imp .of_env fun ⟨hf, hx⟩ => .inr (.inr ⟨hf.of_env, .inr (.inl hx)⟩)
  | hostRead => exact (hostRead_events h).imp .of_env fun hf => .inr (.inl hf)

theorem step_events {s t : State} (h : step s = .next t) : EventsStep s t := by
  rcases step_cases s with ⟨_, he⟩ | ⟨_, _, he⟩ | ⟨_, a, ts, hs, he⟩
  · cases he.symm.trans h; exact .inl ⟨rfl, rfl⟩
  · cases he.symm.trans h; exact .inl (.refl _)
  · exact runTurn_events hs (he.symm.trans h)

/-- Settles O55, by what each turn does to the events; a flush is `bytesDiscarded_filter`. -/
theorem eventsAreConsumedInOrderOnce : Obligations.EventsAreConsumedInOrderOnce := by
  intro s t h
  rcases step_events h with ⟨hl, hr⟩ | ha | ⟨hl, hf⟩ | ⟨⟨hl, hp, hc, hr⟩, hcause⟩
  · exact .inr ⟨hl, .inl hr⟩
  · exact .inl ha
  · exact .inr ⟨hl, .inr (.inl hf)⟩
  · exact .inr ⟨hl, .inr (.inr ⟨hp, hc, hr ▸ bytesDiscarded_filter s.rx, hcause⟩)⟩

end Sys2Proof.Machine

/-! ## Small statements on PBUF, on reset and on single steps (R28, R34 to R36, R251) -/

namespace Sys2Proof.Machine

/-! ### PBUF -/

/-- A write leaves every byte read but its own (R57). -/
theorem memReadByte_write_other (m : Memory) {a x : Nat} (v : Byte) (h : x ≠ a) :
    memReadByte (m.write a v) x = memReadByte m x := by
  simp only [memReadByte, Memory.read_write_other m v h]

/-- Settles O20: inside the buffer `memWrite` is `Memory.write`, outside it both accesses are refused. -/
theorem pbufWriteChangesOneByte : Obligations.PbufWriteChangesOneByte := by
  intro m a v
  refine ⟨fun ha => ?_, fun ha => ?_⟩
  · rw [← pbufLen_eq] at ha
    exact ⟨m.write a v, memWrite_eq v ha, memReadByte_eq ha (Memory.read_write_same m a v),
      fun x hx => memReadByte_write_other m v hx, fun hm => Memory.wf_write v hm ha⟩
  · have hn : ¬ a < Config.pbufLen := Nat.not_lt.mpr ha
    simp [memWrite, memReadByte, hn]

/-! ### Reset -/

/-- Settles O32: the reset values, and a memory that lists no byte. -/
theorem resetIsIdleAndEmpty : Obligations.ResetIsIdleAndEmpty :=
  ⟨rfl, rfl, rfl, rfl, rfl, fun _ => rfl⟩

/-- Settles O47: in Idle only item 1 of R33 and the model's own parts say anything. -/
theorem invariantHoldsAtReset : Obligations.InvariantHoldsAtReset where
  idle _ := ⟨rfl, rfl, rfl⟩
  header h := absurd h (by decide)
  payload h := absurd h (by decide)
  headerXacc h := absurd h (by decide)
  payloadXacc h := absurd h (by decide)
  memory := Memory.wf_nil
  scratch := rfl
  drained h := absurd h (by decide)

/-! ### The stop step and single turns -/

/-- With an item in OUT the stop step is not due (R251). -/
theorem stopEnabled_of_out {s : State} (h : s.out ≠ none) : stopEnabled s = false :=
  Bool.eq_false_iff.mpr fun he => h ((stopEnabled_iff s).mp he).1

/-- In Idle the stop step is not due (R251). -/
theorem stopEnabled_of_idle {s : State} (h : s.phase = .idle) : stopEnabled s = false := by
  refine Bool.eq_false_iff.mpr fun he => ?_
  obtain ⟨_, hp, _⟩ := (stopEnabled_iff s).mp he
  exact absurd (h.symm.trans hp) (by decide)

/-- PARSER takes no event while OUT is full, nor in Idle (R34). -/
theorem sourceEnabled_of_blocked {s : State} (h : s.out ≠ none ∨ s.phase = .idle) : sourceEnabled s = false := by
  refine Bool.eq_false_iff.mpr fun he => ?_
  obtain ⟨ho, hp, _⟩ := (sourceEnabled_iff s).mp he
  exact h.elim (· ho) hp

theorem sourceOffer_of_blocked {s : State} (h : s.out ≠ none ∨ s.phase = .idle) : sourceOffer s = .next s := by
  rcases sourceOffer_cases s with ⟨he, _⟩ | ⟨_, _, _, he, _⟩
  · exact he
  · exact absurd he (by simp [sourceEnabled_of_blocked h])

theorem takeItem_some {s : State} {it : Item} (h : s.out = some it) :
    takeItem s = { s with out := none, sink := s.sink ++ [it] } := by
  simp [takeItem, h]

theorem takeItem_none {s : State} (h : s.out = none) : takeItem s = s := by
  simp [takeItem, h]

/-- Where no turn is left and the stop step is not due, every agent waits (log entry 8). -/
theorem step_of_no_turn {s : State} (h : stopEnabled s = false) (hs : s.sched = []) : step s = .next s := by
  unfold step; simp [h, hs]

/-- Settles O42: the guard of `step` is the stop step's condition of R251. -/
theorem stopStepComesFirst : Obligations.StopStepComesFirst := by
  intro s
  refine ⟨fun h => ?_, fun h => ?_⟩
  · rw [step, if_pos ((stopEnabled_iff s).mpr h), stopStep_eq]
  · have hst : stopEnabled s = false := Bool.eq_false_iff.mpr (mt (stopEnabled_iff s).mp h)
    cases hs : s.sched with
    | nil => exact step_of_no_turn hst hs
    | cons t ts => exact step_turn hst hs

/-- Settles O45: a full OUT excludes the stop step, and the turn of SINK is `takeItem`. -/
theorem takeEmptiesOut : Obligations.TakeEmptiesOut := by
  intro s ts hs
  refine ⟨fun it hit => ?_, fun hout hst => ?_⟩
  · rw [step_turn (stopEnabled_of_out (by simp [hit])) hs, runTurn, takeItem_some (s := { s with sched := ts }) hit]
  · rw [step_turn hst hs, runTurn, takeItem_none (s := { s with sched := ts }) hout]

/-- Settles O46: what blocks PARSER excludes the stop step as well, so that the step is SOURCE's turn, which waits. -/
theorem sourceWaitsWhileBlocked : Obligations.SourceWaitsWhileBlocked := by
  intro s ts hs hblocked
  rw [step_turn (hblocked.elim stopEnabled_of_out stopEnabled_of_idle) hs]
  exact sourceOffer_of_blocked hblocked

end Sys2Proof.Machine

/-! ## The invariant (R33, R252): every step has a next state and keeps it, or refuses two bytes that are no command (R97) -/

namespace Sys2Proof.Machine

/-! ### The invariant in parts -/

/-- Until the sensor has obeyed the stop command, SOURCE has no byte to offer (R252). -/
def Drained (s : State) : Prop := s.draining = true → ∀ b, SrcEvent.byte b ∉ s.rx

/-- What the invariant says whatever PHASE is. -/
structure StoreOk (s : State) : Prop where
  memory : s.pbuf.wf
  scratch : s.decoded = []
  drained : Drained s

theorem Inv.storeOk {s : State} (h : Inv s) : StoreOk s := ⟨h.memory, h.scratch, h.drained⟩

/-- While the header is read items 2 and 4 are asked (R33). -/
theorem StoreOk.inv_of_header {s : State} (h : StoreOk s) (hphase : s.phase = .header) (hpcnt : s.pcnt = 0)
    (hhcnt : s.hcnt.toNat ≤ 9) (hx : s.hcnt ≠ 0 → s.xacc = xor16 (s.hdr.toList.take (min s.hcnt.toNat 8))) : Inv s where
  idle hp := by simp [hphase] at hp
  header _ := ⟨hpcnt, hhcnt⟩
  payload hp := by simp [hphase] at hp
  headerXacc _ := hx
  payloadXacc hp := by simp [hphase] at hp
  memory := h.memory
  scratch := h.scratch
  drained := h.drained

/-- While the payload is read items 3, 4 and 5 are asked (R33). -/
theorem StoreOk.inv_of_payload {s : State} {p : List Byte} (h : StoreOk s) (hphase : s.phase = .payload) (hhcnt : s.hcnt = 0)
    (hpre : hdrPreamble s = Config.preamble) (htype : packetType s = 0) (hcount : 1 ≤ sampleCount s)
    (hlt : s.pcnt.toNat < plen s) (hw : writtenBytes s.pbuf s.pcnt.toNat = some p)
    (hx : s.xacc = xor16 (s.hdr.toList.take 8 ++ p)) : Inv s where
  idle hp := by simp [hphase] at hp
  header hp := by simp [hphase] at hp
  payload _ := ⟨hhcnt, hpre, htype, hcount, hlt⟩
  headerXacc hp := by simp [hphase] at hp
  payloadXacc _ := ⟨p, hw, hx⟩
  memory := h.memory
  scratch := h.scratch
  drained := h.drained

/-- At a frame boundary nothing is asked of the captured bytes (R27). -/
theorem StoreOk.inv_of_boundary {s : State} (h : StoreOk s) (hphase : s.phase = .header) (hhcnt : s.hcnt = 0)
    (hpcnt : s.pcnt = 0) : Inv s :=
  h.inv_of_header hphase hpcnt (by simp [hhcnt]) fun hne => absurd hhcnt hne

/-- In Idle only item 1 is asked (R33). -/
theorem StoreOk.inv_of_idle {s : State} (h : StoreOk s) (hphase : s.phase = .idle) (hhcnt : s.hcnt = 0)
    (hpcnt : s.pcnt = 0) (hstop : s.stopPending = false) : Inv s where
  idle _ := ⟨hhcnt, hpcnt, hstop⟩
  header hp := by simp [hphase] at hp
  payload hp := by simp [hphase] at hp
  headerXacc hp := by simp [hphase] at hp
  payloadXacc hp := by simp [hphase] at hp
  memory := h.memory
  scratch := h.scratch
  drained := h.drained

/-- The read in progress is the same: its position and all that it has captured. -/
structure SameRead (s t : State) : Prop where
  phase : t.phase = s.phase
  hcnt : t.hcnt = s.hcnt
  pcnt : t.pcnt = s.pcnt
  hdr : t.hdr = s.hdr
  pbuf : t.pbuf = s.pbuf
  xacc : t.xacc = s.xacc
  decoded : t.decoded = s.decoded
  stopPending : s.phase = .idle → t.stopPending = s.stopPending

theorem SameBlock.sameRead {s t : State} (h : SameBlock s t) : SameRead s t :=
  ⟨h.phase, h.hcnt, h.pcnt, h.hdr, h.pbuf, h.xacc, h.decoded, fun _ => h.stopPending⟩

theorem SameRead.refl (s : State) : SameRead s s := ⟨rfl, rfl, rfl, rfl, rfl, rfl, rfl, fun _ => rfl⟩

/-- The invariant speaks of the read in progress, and of the received events through `Drained` alone. -/
theorem SameRead.inv {s t : State} (h : SameRead s t) (hd : Drained t) (hi : Inv s) : Inv t := by
  have hpre : hdrPreamble t = hdrPreamble s := by simp only [hdrPreamble, h.hdr]
  have htype : packetType t = packetType s := by simp only [packetType, h.hdr]
  have hcount : sampleCount t = sampleCount s := by simp only [sampleCount, h.hdr]
  have hplen : plen t = plen s := by simp only [plen, hcount]
  constructor
  case idle => intro hp; rw [h.phase] at hp; rw [h.hcnt, h.pcnt, h.stopPending hp]; exact hi.idle hp
  case header => rw [h.phase, h.pcnt, h.hcnt]; exact hi.header
  case payload => rw [h.phase, h.hcnt, hpre, htype, hcount, h.pcnt, hplen]; exact hi.payload
  case headerXacc => rw [h.phase, h.hcnt, h.xacc, h.hdr]; exact hi.headerXacc
  case payloadXacc => rw [h.phase, h.pbuf, h.pcnt, h.xacc, h.hdr]; exact hi.payloadXacc
  case memory => rw [h.pbuf]; exact hi.memory
  case scratch => rw [h.decoded]; exact hi.scratch
  case drained => exact hd

/-! ### The received events while the sensor has not obeyed -/

theorem SameLink.drained {s t : State} (h : SameLink s t) (hd : Drained s) : Drained t := by
  unfold Drained; rw [h.draining, h.rx]; exact hd

theorem not_byte_mem_flush (b : Byte) (rx : List SrcEvent) : SrcEvent.byte b ∉ rx.filter (fun e => !e.isByte) :=
  (bytesDiscarded_filter rx).1 b

/-- A sending keeps the link or discards the received bytes (R252). -/
theorem SentLink.drained {s t : State} (h : SentLink s t) (hd : Drained s) : Drained t := by
  unfold Drained
  rcases h.rx with ⟨hrx, hdr⟩ | ⟨_, _, hrx⟩
  · rw [hrx, hdr]; exact hd
  · rw [hrx]; exact fun _ b => not_byte_mem_flush b s.rx

/-- An event taken leaves no byte behind that was not there. -/
theorem Drained.tail {s : State} {e : SrcEvent} {r : List SrcEvent} (hrx : s.rx = e :: r) (h : Drained s) :
    Drained { s with rx := r } :=
  fun hd b hb => h hd b (hrx ▸ List.mem_cons_of_mem e hb)

/-- What arrives while bytes are discarded is no byte (R252). -/
theorem arriveNext_drained {s : State} (h : Drained s) : Drained (arriveNext s) := by
  rcases arriveNext_cases s with ⟨_, he⟩ | ⟨e, r, _, hkept, he⟩ | ⟨b, r, _, _, he⟩ <;> rw [he]
  · exact h
  · intro hd b hb
    replace hd : s.draining = true := hd
    rcases List.mem_append.mp hb with hb | hb
    · exact h hd b hb
    · rw [hd, ← List.mem_singleton.mp hb] at hkept
      cases hkept
  · exact h

/-! ### XACC while the header is read (R174) -/

/-- HDR up to the byte captured at `k`. -/
theorem take_set_hdr (v : Vector Byte 10) {k : Nat} (hk : k < 10) (b : Byte) :
    (v.set k b hk).toList.take (k + 1) = v.toList.take k ++ [b] := by
  rw [Vector.toList_set, List.take_add_one, List.take_set_of_le (le_refl k)]
  simp [hk]

theorem length_take_hdr (v : Vector Byte 10) {k : Nat} (hk : k ≤ 10) : (v.toList.take k).length = k := by
  simp [hk]

/-- One more header byte captured: XACC covers the captured bytes up to the checksum field (R171, R174). -/
theorem xaccUpdateHeader_capture {x : Word16} {v : Vector Byte 10} {k : Nat} (b : Byte) (hk : k < 9)
    (hx : k ≠ 0 → x = xor16 (v.toList.take (min k 8))) :
    xaccUpdateHeader x k b = xor16 ((v.set k b (by omega)).toList.take (min (k + 1) 8)) := by
  have hlen := length_take_hdr v (show k ≤ 10 by omega)
  by_cases h8 : k < 8
  · rw [Nat.min_eq_left (by omega), take_set_hdr]
    by_cases h0 : k = 0
    · subst h0; exact xaccUpdateHeader_zero x b
    · rw [hx h0, Nat.min_eq_left (by omega)]
      calc xaccUpdateHeader (xor16 (v.toList.take k)) k b
          = xaccUpdateHeader (xor16 (v.toList.take k)) (v.toList.take k).length b := by rw [hlen]
        _ = xor16 (v.toList.take k ++ [b]) := xaccUpdateHeader_mid _ b (by omega) (by omega)
  · have hk8 : 8 ≤ k := by omega
    rw [xaccUpdateHeader_checksum x b hk8, hx (by omega), Nat.min_eq_right hk8, Nat.min_eq_right (by omega),
      Vector.toList_set, List.take_set_of_le hk8]

/-! ### A whole frame -/

/-- An error ends at the frame boundary (R280). -/
theorem raiseErr_inv (e : Err) {s : State} (h : StoreOk s) : Inv (raiseErr e s) :=
  StoreOk.inv_of_boundary ⟨h.memory, h.scratch, h.drained⟩ rfl rfl rfl

/-- SCAN.PC ends at the frame boundary whatever it finds (R146, R152). -/
theorem execScanPc_keeps_inv (h : ScanHeader) (ss : List RawSample) {s : State} (hs : StoreOk s) :
    ∃ t, exec (.scanPc h ss) s = .next t ∧ Inv t := by
  refine ⟨_, execScanPc_eq s h ss, ?_⟩
  split
  · exact raiseErr_inv _ hs
  · split
    · exact StoreOk.inv_of_boundary ⟨hs.memory, rfl, hs.drained⟩ rfl rfl rfl
    · exact raiseErr_inv _ hs

/-- SCAN.HM leaves the position, which is the frame boundary, as it is (R150). -/
theorem execScanHm_keeps_inv (h : ScanHeader) {s : State} (hs : StoreOk s) (hphase : s.phase = .header)
    (hhcnt : s.hcnt = 0) (hpcnt : s.pcnt = 0) : ∃ t, exec (.scanHm h) s = .next t ∧ Inv t := by
  refine ⟨_, execScanHm_eq s h, ?_⟩
  split
  · exact StoreOk.inv_of_boundary ⟨hs.memory, hs.scratch, hs.drained⟩ hphase hhcnt hpcnt
  · exact raiseErr_inv _ hs

/-! ### PARSER's events -/

/-- A complete header: a frame without payload ends at the boundary; else the payload read begins with the header accepted,
no byte of it captured, and XACC over the eight covered header bytes (R145). -/
theorem headerComplete_keeps_inv {s : State} (hs : StoreOk s) (hphase : s.phase = .header) (hhcnt : s.hcnt = 0)
    (hpcnt : s.pcnt = 0) (hx : s.xacc = xor16 (s.hdr.toList.take 8)) :
    ∃ t, headerComplete s = .next t ∧ Inv t := by
  rcases headerComplete_cases s with ⟨_, he⟩ | ⟨_, _, he⟩ | ⟨_, _, _, he⟩ | ⟨hpre, htype, hcount, he⟩
  · exact ⟨_, he, raiseErr_inv _ hs⟩
  · rw [he]; exact execScanHm_keeps_inv _ hs hphase hhcnt hpcnt
  · exact ⟨_, he, raiseErr_inv _ hs⟩
  · have hpos : 1 ≤ sampleCount s := Nat.one_le_iff_ne_zero.mpr hcount
    exact ⟨_, he, StoreOk.inv_of_payload (p := []) ⟨hs.memory, hs.scratch, hs.drained⟩ rfl hhcnt hpre htype hpos
      (Nat.mul_pos (by decide) hpos) rfl (by rw [List.append_nil]; exact hx)⟩

/-- A header byte: the tenth one completes the header, any other one goes on with the read (R122). -/
theorem hdrCapture_keeps_inv (b : Byte) {s : State} (hi : Inv s) (hphase : s.phase = .header) :
    ∃ t, hdrCapture b s = .next t ∧ Inv t := by
  obtain ⟨hpcnt, hhcnt⟩ := hi.header hphase
  rcases hdrCapture_cases b s hhcnt with ⟨hlt, hk, he⟩ | ⟨h9, he⟩
  · have hnext : (s.hcnt + 1).toNat = s.hcnt.toNat + 1 := by rw [BitVec.toNat_add]; simp; omega
    have hx : s.hcnt.toNat ≠ 0 → s.xacc = xor16 (s.hdr.toList.take (min s.hcnt.toNat 8)) := fun h0 =>
      hi.headerXacc hphase fun hz => h0 (by rw [hz]; rfl)
    refine ⟨_, he, StoreOk.inv_of_header ⟨hi.memory, hi.scratch, hi.drained⟩ hphase hpcnt ?_ fun _ => ?_⟩
    · show (s.hcnt + 1).toNat ≤ 9
      omega
    · show xaccUpdateHeader s.xacc s.hcnt.toNat b =
        xor16 ((s.hdr.set s.hcnt.toNat b).toList.take (min (s.hcnt + 1).toNat 8))
      rw [hnext]; exact xaccUpdateHeader_capture b hlt hx
  · have hx : s.xacc = xor16 (s.hdr.toList.take 8) := by
      have := hi.headerXacc hphase (by rw [h9]; decide)
      rwa [h9] at this
    rw [he]
    refine headerComplete_keeps_inv ⟨hi.memory, hi.scratch, hi.drained⟩ hphase rfl hpcnt ?_
    show s.xacc = xor16 ((s.hdr.set 9 b).toList.take 8)
    rw [Vector.toList_set, List.take_set_of_le (by decide)]; exact hx

/-- A payload byte: stored behind the written ones and accumulated; the last one completes the frame (R148). -/
theorem payCapture_keeps_inv (b : Byte) {s : State} (hi : Inv s) (hphase : s.phase = .payload) :
    ∃ t, payCapture b s = .next t ∧ Inv t := by
  obtain ⟨hhcnt, hpre, htype, hcount, hlt⟩ := hi.payload hphase
  obtain ⟨p, hw, hx⟩ := hi.payloadXacc hphase
  obtain ⟨ha, _, hc⟩ := payCapture_cases b s hw hpre htype hlt
  have hmem := Memory.wf_write b hi.memory ha
  rcases hc with ⟨hmore, he⟩ | ⟨_, ss, _, _, he⟩
  · have hnext : (s.pcnt + 1).toNat = s.pcnt.toNat + 1 := by
      rw [pbufLen_eq] at ha; rw [BitVec.toNat_add]; simp; omega
    refine ⟨_, he, StoreOk.inv_of_payload (p := p ++ [b]) ⟨hmem, hi.scratch, hi.drained⟩ hphase hhcnt hpre htype hcount
      ?_ ?_ ?_⟩
    · show (s.pcnt + 1).toNat < plen s
      omega
    · show writtenBytes (s.pbuf.write s.pcnt.toNat b) (s.pcnt + 1).toNat = some (p ++ [b])
      rw [hnext]; exact writtenBytes_write b hw
    · show xaccUpdatePayload s.xacc s.pcnt.toNat b = xor16 (s.hdr.toList.take 8 ++ (p ++ [b]))
      rw [hx, ← writtenBytes_length hw]
      exact xaccUpdatePayload_snoc _ p b (by rw [length_take_hdr _ (by decide)])
  · rw [he]; exact execScanPc_keeps_inv _ ss ⟨hmem, hi.scratch, hi.drained⟩

/-- The end of the stream leaves the block in Idle (R278). -/
theorem endStream_inv {s : State} (h : StoreOk s) : Inv (endStream s) :=
  StoreOk.inv_of_idle ⟨h.memory, h.scratch, h.drained⟩ rfl rfl rfl rfl

/-- An event that the block takes while it scans (R34). -/
theorem parserEvent_keeps_inv (e : SrcEvent) {s : State} (hi : Inv s) (hphase : s.phase ≠ .idle) :
    ∃ t, parserEvent e s = .next t ∧ Inv t := by
  cases e with
  | byte b =>
    rw [parserEvent]
    cases hp : s.phase with
    | idle => exact absurd hp hphase
    | header => rw [byteArrives_header b hp]; exact hdrCapture_keeps_inv b hi hp
    | payload => rw [byteArrives_payload b hp]; exact payCapture_keeps_inv b hi hp
  | timeout => exact ⟨_, rfl, raiseErr_inv _ hi.storeOk⟩
  | ioFail => exact ⟨_, rfl, raiseErr_inv _ hi.storeOk⟩
  | closed => exact ⟨_, rfl, endStream_inv hi.storeOk⟩

/-! ### The turns -/

theorem sourceOffer_keeps_inv {s : State} (hi : Inv s) : ∃ t, sourceOffer s = .next t ∧ Inv t := by
  rcases sourceOffer_cases s with ⟨he, _⟩ | ⟨e, r, hrx, hen, he⟩
  · exact ⟨s, he, hi⟩
  · obtain ⟨_, hphase, _⟩ := (sourceEnabled_iff s).mp hen
    rw [he]
    refine parserEvent_keeps_inv e ?_ hphase
    exact (SameBlock.env s r s.line s.sched s.host).sameRead.inv (Drained.tail hrx hi.drained) hi

/-- `Start` begins at a frame boundary, or is ignored (R248). -/
theorem acceptStart_inv {s : State} (hi : Inv s) : Inv (acceptStart s) := by
  rcases acceptStart_cases s with ⟨_, _, he⟩ | ⟨_, he⟩ <;> rw [he]
  · exact StoreOk.inv_of_boundary ⟨hi.memory, hi.scratch, hi.drained⟩ rfl rfl rfl
  · exact hi

theorem flushRx_inv {s : State} (hi : Inv s) : Inv (flushRx s) :=
  SameRead.inv (s := s) ⟨rfl, rfl, rfl, rfl, rfl, rfl, rfl, fun _ => rfl⟩ (fun _ b => not_byte_mem_flush b s.rx) hi

theorem controlStart_inv {s : State} (hi : Inv s) : Inv (controlStart s) := by
  rcases controlStart_cases s with ⟨_, _, he⟩ | ⟨_, he⟩ <;> rw [he]
  · exact acceptStart_inv (flushRx_inv hi)
  · exact acceptStart_inv hi

/-- `StopReq` is latched where the invariant allows a pending stop, outside Idle (R250). -/
theorem acceptStopReq_sameRead (s : State) : SameRead s (acceptStopReq s) := by
  unfold acceptStopReq
  split
  · exact .refl s
  · next hp => exact ⟨rfl, rfl, rfl, rfl, rfl, rfl, rfl, fun h => absurd h hp⟩

theorem acceptStopReq_inv {s : State} (hi : Inv s) : Inv (acceptStopReq s) := by
  refine (acceptStopReq_sameRead s).inv ?_ hi
  unfold acceptStopReq; split <;> exact hi.drained

theorem setCall_inv (c : HostCall) {s : State} (hi : Inv s) : Inv (setCall c s) :=
  SameRead.inv (s := s) ⟨rfl, rfl, rfl, rfl, rfl, rfl, rfl, fun _ => rfl⟩ hi.drained hi

theorem takeItem_inv {s : State} (hi : Inv s) : Inv (takeItem s) := by
  cases ho : s.out with
  | none => rw [takeItem_none ho]; exact hi
  | some it =>
    rw [takeItem_some ho]
    exact SameRead.inv (s := s) ⟨rfl, rfl, rfl, rfl, rfl, rfl, rfl, fun _ => rfl⟩ hi.drained hi

theorem arriveNext_inv {s : State} (hi : Inv s) : Inv (arriveNext s) := by
  refine SameRead.inv ?_ (arriveNext_drained hi.drained) hi
  rcases arriveNext_cases s with ⟨_, he⟩ | ⟨_, _, _, _, he⟩ | ⟨_, _, _, _, he⟩ <;> rw [he] <;>
    exact ⟨rfl, rfl, rfl, rfl, rfl, rfl, rfl, fun _ => rfl⟩

theorem stopObeyed_inv {s : State} (hi : Inv s) : Inv (stopObeyed s) :=
  SameRead.inv (s := s) ⟨rfl, rfl, rfl, rfl, rfl, rfl, rfl, fun _ => rfl⟩ (fun h => by cases h) hi

/-- A read of the host leaves the block alone, or is the last byte of a good negotiation, which gives `Start` (R245). -/
theorem hostRead_keeps_inv {s : State} (hi : Inv s) : ∃ t, hostRead s = .next t ∧ Inv t := by
  obtain ⟨t, ht, hc⟩ := hostRead_cases s
  refine ⟨t, ht, ?_⟩
  rcases hc with rfl | ⟨_, e, r, hrx, hlink, hblock | ⟨_, h, rfl⟩⟩
  · exact hi
  · exact hblock.sameRead.inv (hlink.drained (Drained.tail hrx hi.drained)) hi
  · refine acceptStart_inv (SameRead.inv (s := s) ⟨rfl, rfl, rfl, rfl, rfl, rfl, rfl, fun _ => rfl⟩ ?_ hi)
    exact Drained.tail (s := s) hrx hi.drained

theorem SentLink.inv {s t : State} (hlink : SentLink s t) (hblock : SameBlock s t) (hi : Inv s) : Inv t :=
  hblock.sameRead.inv (hlink.drained hi.drained) hi

/-! ### The step -/

/-- A next state that satisfies the invariant, or the refusal of two bytes that are no command (R97, R239). -/
def SafeOutcome (o : Host.Outcome State Fault Refusal) : Prop :=
  (∃ t, o = .next t ∧ Inv t) ∨ ∃ b0 b1, o = .refused (.unlistedCommand b0 b1)

theorem safeOutcome_next {t : State} (h : Inv t) : SafeOutcome (.next t) := .inl ⟨t, rfl, h⟩

theorem runTurn_safe (a : Turn) {s : State} (hi : Inv s) : SafeOutcome (runTurn a s) := by
  cases a with
  | arrive => exact safeOutcome_next (arriveNext_inv hi)
  | stopObeyed => exact safeOutcome_next (stopObeyed_inv hi)
  | source => exact .inl (sourceOffer_keeps_inv hi)
  | start => exact safeOutcome_next (controlStart_inv hi)
  | stopReq => exact safeOutcome_next (acceptStopReq_inv hi)
  | take => exact safeOutcome_next (takeItem_inv hi)
  | stopScan => exact safeOutcome_next (acceptStopReq_inv (setCall_inv .stopScan hi))
  | hostSend =>
    exact (hostSend_cases s).imp_left fun ⟨t, ht, hblock, hlink⟩ => ⟨t, ht, hlink.inv hblock hi⟩
  | hostSendFails =>
    exact (hostSendFails_cases s).imp_left fun ⟨t, ht, hblock, hlink, _⟩ => ⟨t, ht, hlink.inv hblock hi⟩
  | hostRead => exact .inl (hostRead_keeps_inv hi)

/-- The stop step is taken with the counters at 0 and clears the pending stop (R251). -/
theorem stopStep_inv {s : State} (hi : Inv s) (hst : stopEnabled s = true) : Inv (stopStep s) := by
  obtain ⟨_, hphase, hhcnt, _⟩ := (stopEnabled_iff s).mp hst
  obtain ⟨hpcnt, _⟩ := hi.header hphase
  exact StoreOk.inv_of_idle ⟨hi.memory, hi.scratch, hi.drained⟩ rfl hhcnt hpcnt rfl

theorem step_safe {s : State} (hi : Inv s) : SafeOutcome (step s) := by
  rcases step_cases s with ⟨hst, he⟩ | ⟨_, _, he⟩ | ⟨_, a, ts, _, he⟩ <;> rw [he]
  · exact safeOutcome_next (stopStep_inv hi hst)
  · exact safeOutcome_next hi
  · exact runTurn_safe a ((SameBlock.env s s.rx s.line ts s.host).sameRead.inv hi.drained hi)

/-- Settles O48, by `step_safe`. -/
theorem everyStepKeepsTheInvariant : Obligations.EveryStepKeepsTheInvariant := by
  intro s t hi h
  rcases step_safe hi with ⟨u, he, hu⟩ | ⟨_, _, he⟩ <;> cases he.symm.trans h
  exact hu

/-- Settles O49, by `step_safe`. -/
theorem noStepFaults : Obligations.NoStepFaults := fun _ hi =>
  (step_safe hi).imp_left fun ⟨t, he, _⟩ => ⟨t, he⟩

end Sys2Proof.Machine

/-! ## Items (R31, R35, R254, R257): which steps write OUT, which empty it, and what the consumer has received -/

namespace Sys2Proof.Machine

/-! ### What PARSER leaves alone -/

/-- The agents around the block are as before: the received events, the turns, what the consumer has received, the sensor
and the host. -/
structure SameAgents (s t : State) : Prop where
  rx : t.rx = s.rx
  line : t.line = s.line
  sched : t.sched = s.sched
  sink : t.sink = s.sink
  tx : t.tx = s.tx
  sensorScan : t.sensorScan = s.sensorScan
  draining : t.draining = s.draining
  freeIdx : t.freeIdx = s.freeIdx
  host : t.host = s.host

theorem SameAgents.refl (s : State) : SameAgents s s := ⟨rfl, rfl, rfl, rfl, rfl, rfl, rfl, rfl, rfl⟩

/-- What has been captured does not belong to the agents. -/
theorem SameAgents.of_captured {s t : State} {v : Vector Byte 10} {m : Memory} {x : Word16} {k : BitVec 4} {j : BitVec 10}
    (h : SameAgents { s with hdr := v, pbuf := m, xacc := x, hcnt := k, pcnt := j } t) : SameAgents s t :=
  ⟨h.rx, h.line, h.sched, h.sink, h.tx, h.sensorScan, h.draining, h.freeIdx, h.host⟩

theorem raiseErr_sameAgents (e : Err) (s : State) : SameAgents s (raiseErr e s) :=
  ⟨rfl, rfl, rfl, rfl, rfl, rfl, rfl, rfl, rfl⟩

theorem execScanHm_sameAgents {h : ScanHeader} {s t : State} (ht : exec (.scanHm h) s = .next t) : SameAgents s t := by
  cases (execScanHm_eq s h).symm.trans ht
  split
  · exact ⟨rfl, rfl, rfl, rfl, rfl, rfl, rfl, rfl, rfl⟩
  · exact raiseErr_sameAgents _ s

theorem execScanPc_sameAgents {h : ScanHeader} {ss : List RawSample} {s t : State}
    (ht : exec (.scanPc h ss) s = .next t) : SameAgents s t := by
  cases (execScanPc_eq s h ss).symm.trans ht
  split
  · exact raiseErr_sameAgents _ s
  · split
    · exact ⟨rfl, rfl, rfl, rfl, rfl, rfl, rfl, rfl, rfl⟩
    · exact raiseErr_sameAgents _ s

theorem runFrame_sameAgents {s t : State} (h : runFrame s = .next t) : SameAgents s t := by
  unfold runFrame at h
  split at h
  · next hf =>
    obtain ⟨bs, rest, hd⟩ := fetchFrame_ok hf
    rcases decodeScan_ok hd with ⟨_, rfl, _⟩ | ⟨_, _, rfl, _⟩
    · exact execScanHm_sameAgents h
    · exact execScanPc_sameAgents h
  · cases h

theorem headerComplete_sameAgents {s t : State} (h : headerComplete s = .next t) : SameAgents s t := by
  rcases headerComplete_cases s with ⟨_, he⟩ | ⟨_, _, he⟩ | ⟨_, _, _, he⟩ | ⟨_, _, _, he⟩ <;> have hn := he.symm.trans h
  · cases hn; exact raiseErr_sameAgents _ s
  · exact execScanHm_sameAgents hn
  · cases hn; exact raiseErr_sameAgents _ s
  · cases hn; exact ⟨rfl, rfl, rfl, rfl, rfl, rfl, rfl, rfl, rfl⟩

/-- Past the tenth byte there is no HDR[HCNT] (R23). -/
theorem hdrCapture_of_range (b : Byte) {s : State} (h : 9 < s.hcnt.toNat) :
    hdrCapture b s = .fault (.hcntRange s.hcnt.toNat) :=
  dif_neg (Nat.not_lt.mpr h)

theorem hdrCapture_sameAgents {b : Byte} {s t : State} (h : hdrCapture b s = .next t) : SameAgents s t := by
  by_cases hk : s.hcnt.toNat ≤ 9
  · rcases hdrCapture_cases b s hk with ⟨_, _, he⟩ | ⟨_, he⟩
    · cases he.symm.trans h; exact ⟨rfl, rfl, rfl, rfl, rfl, rfl, rfl, rfl, rfl⟩
    · exact (headerComplete_sameAgents (he.symm.trans h)).of_captured
  · cases (hdrCapture_of_range b (Nat.lt_of_not_le hk)).symm.trans h

theorem payCapture_sameAgents {b : Byte} {s t : State} (h : payCapture b s = .next t) : SameAgents s t := by
  unfold payCapture at h
  split at h
  · cases h
  · dsimp only at h
    split at h
    · cases h; exact ⟨rfl, rfl, rfl, rfl, rfl, rfl, rfl, rfl, rfl⟩
    · exact (runFrame_sameAgents h).of_captured

/-- PARSER's taking of an event, from any state, touches the block alone (R34). -/
theorem parserEvent_sameAgents {e : SrcEvent} {s t : State} (h : parserEvent e s = .next t) : SameAgents s t := by
  cases e with
  | byte b =>
    rw [parserEvent] at h
    cases hp : s.phase with
    | header => exact hdrCapture_sameAgents ((byteArrives_header b hp).symm.trans h)
    | payload => exact payCapture_sameAgents ((byteArrives_payload b hp).symm.trans h)
    | idle =>
      simp only [byteArrives, hp] at h
      cases h; exact .refl s
  | timeout => cases h; exact raiseErr_sameAgents _ s
  | ioFail => cases h; exact raiseErr_sameAgents _ s
  | closed => cases h; exact ⟨rfl, rfl, rfl, rfl, rfl, rfl, rfl, rfl, rfl⟩

/-! ### OUT and the consumer's record -/

/-- OUT and what the consumer has received are as before. -/
structure SameOutput (s t : State) : Prop where
  out : t.out = s.out
  sink : t.sink = s.sink

/-- SINK has taken the item in OUT (R35). -/
def ItemTaken (s t : State) : Prop := ∃ it, s.out = some it ∧ t.out = none ∧ t.sink = s.sink ++ [it]

/-- The block was scanning with OUT empty, where alone it may write an item (R31, R34). -/
structure MayWrite (s t : State) : Prop where
  out : s.out = none
  phase : s.phase ≠ .idle
  sink : t.sink = s.sink

/-- What a step can do to OUT and to the consumer's record. -/
def OutputStep (s t : State) : Prop := SameOutput s t ∨ ItemTaken s t ∨ MayWrite s t

theorem SameOutput.refl (s : State) : SameOutput s s := ⟨rfl, rfl⟩

theorem SameBlock.sameOutput {s t : State} (h : SameBlock s t) : SameOutput s t := ⟨h.out, h.sink⟩

/-- Neither the received events, nor the turns to come, nor the host's side belong to the output. -/
theorem SameOutput.of_env {s t : State} {r : List SrcEvent} {q : List Turn} {h : HostSide}
    (ho : SameOutput { s with rx := r, sched := q, host := h } t) : SameOutput s t := ⟨ho.out, ho.sink⟩

theorem acceptStart_sameOutput (s : State) : SameOutput s (acceptStart s) := by
  unfold acceptStart; split <;> exact ⟨rfl, rfl⟩

theorem controlStart_sameOutput (s : State) : SameOutput s (controlStart s) := by
  rcases controlStart_cases s with ⟨_, _, he⟩ | ⟨_, he⟩ <;> rw [he]
  · exact (acceptStart_sameOutput (flushRx s)).of_env
  · exact acceptStart_sameOutput s

theorem acceptStopReq_sameOutput (s : State) : SameOutput s (acceptStopReq s) := by
  unfold acceptStopReq; split <;> exact ⟨rfl, rfl⟩

theorem callStopScan_sameOutput (s : State) : SameOutput s (callStopScan s) :=
  (acceptStopReq_sameOutput (setCall .stopScan s)).of_env

theorem arriveNext_sameOutput (s : State) : SameOutput s (arriveNext s) := by
  unfold arriveNext; split <;> exact ⟨rfl, rfl⟩

theorem takeItem_output (s : State) : SameOutput s (takeItem s) ∨ ItemTaken s (takeItem s) := by
  cases ho : s.out with
  | none => rw [takeItem_none ho]; exact .inl (.refl s)
  | some it => rw [takeItem_some ho]; exact .inr ⟨it, ho, rfl, rfl⟩

/-- SOURCE's event reaches PARSER only while the block scans with OUT empty (R34). -/
theorem sourceOffer_output {s t : State} (h : sourceOffer s = .next t) : SameOutput s t ∨ MayWrite s t := by
  rcases sourceOffer_cases s with ⟨he, _⟩ | ⟨e, r, _, hen, he⟩
  · cases he.symm.trans h; exact .inl (.refl _)
  · obtain ⟨hout, hphase, _⟩ := (sourceEnabled_iff s).mp hen
    exact .inr ⟨hout, hphase, (parserEvent_sameAgents (he.symm.trans h)).sink⟩

theorem hostSend_sameOutput {s t : State} (h : hostSend s = .next t) : SameOutput s t := by
  rcases hostSend_cases s with ⟨u, he, hb, _⟩ | ⟨_, _, he⟩ <;> cases he.symm.trans h
  exact hb.sameOutput

theorem hostSendFails_sameOutput {s t : State} (h : hostSendFails s = .next t) : SameOutput s t := by
  rcases hostSendFails_cases s with ⟨u, he, hb, _⟩ | ⟨_, _, he⟩ <;> cases he.symm.trans h
  exact hb.sameOutput

theorem hostRead_sameOutput {s t : State} (h : hostRead s = .next t) : SameOutput s t := by
  obtain ⟨u, he, hc⟩ := hostRead_cases s
  cases he.symm.trans h
  rcases hc with rfl | ⟨_, _, r, _, _, hb | ⟨_, c, rfl⟩⟩
  · exact .refl _
  · exact hb.sameOutput
  · exact SameOutput.of_env (s := s) (acceptStart_sameOutput (finishCall .started { s with rx := r, host := c }))

theorem runTurn_output {a : Turn} {s t : State} (h : runTurn a s = .next t) : OutputStep s t := by
  cases a with
  | arrive => cases h; exact .inl (arriveNext_sameOutput s)
  | stopObeyed => cases h; exact .inl ⟨rfl, rfl⟩
  | source => exact (sourceOffer_output h).imp_right .inr
  | start => cases h; exact .inl (controlStart_sameOutput s)
  | stopReq => cases h; exact .inl (acceptStopReq_sameOutput s)
  | take => cases h; exact (takeItem_output s).imp_right .inl
  | stopScan => cases h; exact .inl (callStopScan_sameOutput s)
  | hostSend => exact .inl (hostSend_sameOutput h)
  | hostSendFails => exact .inl (hostSendFails_sameOutput h)
  | hostRead => exact .inl (hostRead_sameOutput h)

/-- A step leaves the output alone, hands the item to the consumer, or may write one, scanning with OUT empty. -/
theorem step_output {s t : State} (h : step s = .next t) : OutputStep s t := by
  rcases step_cases s with ⟨hst, he⟩ | ⟨_, _, he⟩ | ⟨_, a, ts, _, he⟩
  · obtain ⟨hout, hphase, _⟩ := (stopEnabled_iff s).mp hst
    cases he.symm.trans h
    exact .inr (.inr ⟨hout, by simp [hphase], rfl⟩)
  · cases he.symm.trans h; exact .inl (.refl _)
  · exact (runTurn_output (he.symm.trans h)).imp .of_env (.imp_right fun ⟨ho, hp, hsink⟩ => ⟨ho, hp, hsink⟩)

/-- Settles O52, by the three outcomes of `step_output`: only the one with OUT empty may write. -/
theorem itemsAreNeverOverwrittenOrLost : Obligations.ItemsAreNeverOverwrittenOrLost := by
  intro s t h
  rcases step_output h with ⟨ho, hs⟩ | ⟨it, hit, hnone, hs⟩ | ⟨ho, _, hs⟩
  · exact ⟨fun it hit => .inl ⟨ho.trans hit, hs⟩, fun _ => hs⟩
  · refine ⟨fun it' hit' => .inr ⟨hnone, ?_⟩, fun hn => ?_⟩
    · cases hit.symm.trans hit'; exact hs
    · cases hit.symm.trans hn
  · refine ⟨fun it hit => ?_, fun _ => hs⟩
    cases ho.symm.trans hit

/-- Settles O53: of the outcomes of `step_output`, Idle excludes the writing one. -/
theorem idleWritesNoItem : Obligations.IdleWritesNoItem := by
  intro s t hidle h
  rcases step_output h with ⟨ho, _⟩ | ⟨_, _, hnone, _⟩ | ⟨_, hp, _⟩
  · exact .inl ho
  · exact .inr hnone
  · exact absurd hidle hp

end Sys2Proof.Machine

/-! ## A whole frame, byte by byte (R64, R145, R155): the block's state after each part of a frame, and `decode_frame` on the
captured registers -/

namespace Sys2Proof.Machine

/-! ### Runs over offered bytes -/

/-- One more step at the end of a run of any machine. -/
theorem run_succ_of_run {M : Host.Core} {k : Nat} {s t u : M.State} (h : M.run k s = .next t) (ht : M.step t = .next u) :
    M.run (k + 1) s = .next u := by
  induction k generalizing s with
  | zero =>
    cases h
    simp only [Host.Core.run, ht]
  | succ k ih =>
    rw [Host.Core.run] at h ⊢
    cases hs : M.step s with
    | next v => rw [hs] at h; exact ih h
    | fault r => rw [hs] at h; cases h
    | refused r => rw [hs] at h; cases h

/-- One more step at the end of a run. -/
theorem steps_succ_of_steps {k : Nat} {s t u : State} (h : steps k s = .next t) (ht : step t = .next u) :
    steps (k + 1) s = .next u :=
  run_succ_of_run (M := Sys2Proof.core) h ht

/-- While the block scans with OUT empty and no stop pending, the next step takes the next byte offered (R34). -/
theorem step_feed_source {s : State} (b : Byte) (bs : List Byte) (hout : s.out = none) (hphase : s.phase ≠ .idle)
    (hstop : s.stopPending = false) : step (feed .source (b :: bs) s) = byteArrives b (feed .source bs s) := by
  have hst : ∀ cs, stopEnabled (feed .source cs s) = false := fun cs => by simp [stopEnabled, feed, hstop]
  have hen : sourceEnabled (feed .source (b :: bs) s) = true := (sourceEnabled_iff _).mpr ⟨hout, hphase, hst _⟩
  rw [step_turn (hst _) rfl]
  exact if_pos hen

/-! ### The captured header as a byte string -/

theorem hdr_getD (v : Vector Byte 10) {i : Nat} (hi : i < 10) : v.toList.getD i 0 = v[i] := by
  simp [List.getD_eq_getElem?_getD, hi]

/-- PLEN of a captured header (R26), where a payload follows it at all (R145). -/
theorem payloadLength_hdr (s : State) :
    payloadLength s.hdr.toList = if hdrPreamble s = Config.preamble ∧ packetType s = 0 then plen s else 0 := by
  simp only [payloadLength, hdr_getD, Nat.reduceLT, hdrPreamble, le16_eq_preamble, packetType, plen, sampleCount, and_assoc]

/-- A payload follows the captured header exactly where the block begins a payload read (R145). -/
theorem payloadLength_hdr_pos {s : State} :
    0 < payloadLength s.hdr.toList ↔ hdrPreamble s = Config.preamble ∧ packetType s = 0 ∧ sampleCount s ≠ 0 := by
  rw [payloadLength_hdr]
  split
  · next h => simp [h, plen, Config.sampleLen, Nat.pos_iff_ne_zero]
  · next h => exact ⟨fun h0 => absurd h0 (lt_irrefl 0), fun ⟨hp, ht, _⟩ => absurd ⟨hp, ht⟩ h⟩

/-! ### `decode_frame` on the captured registers -/

theorem le16_toNat (lo hi : Byte) : (le16 lo hi).toNat = lo.toNat + 256 * hi.toNat := by
  rw [le16, BitVec.toNat_append, ← Nat.shiftLeft_add_eq_or_of_lt lo.isLt, Nat.shiftLeft_eq]
  omega

/-- The two forms of an angle code's degrees (R144). -/
theorem codeToDeg_eq (lo hi : Byte) : codeToDeg lo hi = degOfAngle (codeAngle (le16 lo hi)) := by
  have h : (codeAngle (le16 lo hi)).toNat = (lo.toNat + 256 * hi.toNat) / 2 := by
    rw [codeAngle, BitVec.extractLsb'_toNat, le16_toNat, Nat.shiftRight_eq_div_pow, Config.angleShift]
    omega
  rw [codeToDeg, degOfAngle, h]

/-- The marker's one sample has distance 0, so that no correction changes its angle (R153). -/
theorem attachAngles_marker (s e : Rat) :
    attachAngles [(0, 0)] (angles s e [0]) = [{ distance := 0, intensity := 0, angle := .rat (ratMod360 s) }] := by
  simp [attachAngles, angles, Deg.ofCorr, Deg.plus, Deg.wrap, ratAdd_eq]

/-- R155 in the words of the block: `decode_frame` of the ten header registers and a payload. -/
theorem decodeFrame_hdr (s : State) (p : List Byte) :
    decodeFrame s.hdr.toList p =
      if hdrPreamble s ≠ Config.preamble then .error .badPreamble
      else if packetType s = 1 then
        if xor16 (s.hdr.toList.take 8) ≠ hdrChecksum s then .error .checksumError
        else .packet (headingMarkerPacket (capturedHeader s))
      else if sampleCount s = 0 then .error .emptyPointCloud
      else if xor16 (s.hdr.toList.take 8 ++ p.take (plen s)) ≠ hdrChecksum s then .error .checksumError
      else .packet (pointCloudPacket (capturedHeader s)
        ((List.range (sampleCount s)).map fun i => sampleDecode (rawSampleAt p i))) := by
  have hcount : sampleCount s = 0 ↔ s.hdr[3] = 0 := by simp [sampleCount, BitVec.toNat_eq]
  simp only [decodeFrame, hdr_getD, Nat.reduceLT, hdrPreamble, ne_eq, le16_eq_preamble, packetType, hcount, hdrChecksum,
    codeToDeg_eq, headingMarkerPacket, pointCloudPacket, attachAngles_marker, not_and_or]
  rfl

/-- The samples of a payload, found by their positions (R189). -/
theorem map_rawSampleAt_payloadBytes (ss : List RawSample) :
    (List.range ss.length).map (rawSampleAt (payloadBytes ss)) = ss := by
  induction ss with
  | nil => rfl
  | cons r rs ih =>
    have hshift : rawSampleAt (payloadBytes (r :: rs)) ∘ Nat.succ = rawSampleAt (payloadBytes rs) := by
      funext i
      simp [rawSampleAt, payloadBytes, RawSample.bytes, Nat.mul_succ]
    rw [List.length_cons, List.range_succ_eq_map, List.map_cons, List.map_map, hshift, ih]
    rfl

/-- CHK.COMPARE on a frame whose header is captured (R171, R176). -/
theorem checksumGood_captured (s : State) (p : List Byte) :
    checksumGood (s.hdr.toList ++ p) (capturedHeader s).checksum = true ↔
      xor16 (s.hdr.toList.take 8 ++ p) = hdrChecksum s := by
  rw [checksumGood, covered_append (by simp), beq_iff_eq]
  rfl

/-! ### The states of a frame's reception -/

/-- The agents around the block are as before, and so are the pending stop and the records of how Idle was entered: what a
capture and a completed frame leave alone. -/
structure SameAround (s t : State) : Prop extends SameAgents s t where
  stopPending : t.stopPending = s.stopPending
  idleByClosed : t.idleByClosed = s.idleByClosed
  stopOwed : t.stopOwed = s.stopOwed

theorem SameAround.trans {s t u : State} (h : SameAround s t) (k : SameAround t u) : SameAround s u where
  rx := k.rx.trans h.rx
  line := k.line.trans h.line
  sched := k.sched.trans h.sched
  sink := k.sink.trans h.sink
  tx := k.tx.trans h.tx
  sensorScan := k.sensorScan.trans h.sensorScan
  draining := k.draining.trans h.draining
  freeIdx := k.freeIdx.trans h.freeIdx
  host := k.host.trans h.host
  stopPending := k.stopPending.trans h.stopPending
  idleByClosed := k.idleByClosed.trans h.idleByClosed
  stopOwed := k.stopOwed.trans h.stopOwed

theorem sameAround_update (s : State) (f : Phase) (k : BitVec 4) (j : BitVec 10) (v : Vector Byte 10) (m : Memory) (x : Word16)
    (o : Option Item) (d : List (BitVec 10 × BitVec 14)) :
    SameAround s { s with phase := f, hcnt := k, pcnt := j, hdr := v, pbuf := m, xacc := x, out := o, decoded := d } :=
  ⟨⟨rfl, rfl, rfl, rfl, rfl, rfl, rfl, rfl, rfl⟩, rfl, rfl, rfl⟩

/-- A frame that began in `s` is being read in `t`: no item has been written and no stop is pending. -/
structure FrameOpen (s t : State) : Prop extends SameAround s t where
  out : t.out = none
  noStop : t.stopPending = false

/-- The header bytes `c`, fewer than ten, have been captured since the frame boundary `s` (R122). -/
structure HeaderRead (s : State) (c : List Byte) (t : State) : Prop extends FrameOpen s t where
  phase : t.phase = .header
  hcnt : t.hcnt.toNat = c.length
  pcnt : t.pcnt = 0
  hdr : t.hdr.toList.take c.length = c

/-- The header `h` has been captured whole since the frame boundary `s`, and nothing has been done with it yet (R123). -/
structure HeaderWhole (s : State) (h : List Byte) (t : State) : Prop extends FrameOpen s t where
  phase : t.phase = .header
  hcnt : t.hcnt = 0
  pcnt : t.pcnt = 0
  hdr : t.hdr.toList = h

/-- After the header `h` the payload bytes `c`, not all of them, have been captured (R148). -/
structure PayloadRead (s : State) (h c : List Byte) (t : State) : Prop extends FrameOpen s t where
  phase : t.phase = .payload
  hcnt : t.hcnt = 0
  pcnt : t.pcnt.toNat = c.length
  hdr : t.hdr.toList = h
  written : writtenBytes t.pbuf c.length = some c

/-- A frame that began in `s` is over: OUT holds `it` and the block is at a frame boundary. -/
structure FrameDone (s : State) (it : Item) (t : State) : Prop extends SameAround s t where
  out : t.out = some it
  phase : t.phase = .header
  hcnt : t.hcnt = 0
  pcnt : t.pcnt = 0

theorem FrameDone.of_sameAround {s t u : State} {it : Item} (hs : SameAround s t) (h : FrameDone t it u) : FrameDone s it u :=
  ⟨hs.trans h.toSameAround, h.out, h.phase, h.hcnt, h.pcnt⟩

theorem raiseErr_frameDone (e : Err) (s : State) : FrameDone s (.error e) (raiseErr e s) :=
  ⟨sameAround_update .., rfl, rfl, rfl, rfl⟩

/-! ### The end of a frame -/

/-- A frame without a payload is decoded in the step of its last header byte (R145, R150, R152). -/
theorem headerComplete_decodeFrame {s : State} (hphase : s.phase = .header) (hhcnt : s.hcnt = 0) (hpcnt : s.pcnt = 0)
    (hlen : payloadLength s.hdr.toList = 0) :
    ∃ t, headerComplete s = .next t ∧ FrameDone s (decodeFrame s.hdr.toList []) t := by
  rcases headerComplete_cases s with ⟨hp, he⟩ | ⟨hp, ht, he⟩ | ⟨hp, ht, hc, he⟩ | ⟨hp, ht, hc, _⟩
  · refine ⟨_, he, ?_⟩
    rw [decodeFrame_hdr, if_pos hp]
    exact raiseErr_frameDone _ s
  · refine ⟨_, he.trans (execScanHm_eq s _), ?_⟩
    have henc : encode (.scanHm (capturedHeader s)) = s.hdr.toList := by
      rw [← encodeHeader_captured hp, (packetType_eq_one s).mp ht, encode]
    have hcs := checksumGood_captured s []
    rw [List.append_nil, List.append_nil] at hcs
    rw [decodeFrame_hdr, if_neg (not_not.mpr hp), if_pos ht, henc]
    by_cases hx : xor16 (s.hdr.toList.take 8) = hdrChecksum s
    · rw [if_pos (hcs.mpr hx), if_neg (not_not.mpr hx)]
      exact ⟨sameAround_update .., rfl, hphase, hhcnt, hpcnt⟩
    · rw [if_neg (mt hcs.mp hx), if_pos hx]
      exact raiseErr_frameDone _ s
  · refine ⟨_, he, ?_⟩
    rw [decodeFrame_hdr, if_neg (not_not.mpr hp), if_neg (by rw [ht]; decide), if_pos hc]
    exact raiseErr_frameDone _ s
  · exact absurd (payloadLength_hdr_pos.mpr ⟨hp, ht, hc⟩) (by omega)

/-- A PointCloud whose payload is captured is decoded by its instruction (R146). -/
theorem execScanPc_decodeFrame {s : State} {ss : List RawSample} (hp : hdrPreamble s = Config.preamble)
    (ht : packetType s = 0) (hn : sampleCount s ≠ 0) (hss : ss.length = sampleCount s) :
    ∃ t, exec (.scanPc (capturedHeader s) ss) s = .next t ∧ FrameDone s (decodeFrame s.hdr.toList (payloadBytes ss)) t := by
  refine ⟨_, execScanPc_eq s _ ss, ?_⟩
  have henc : encode (.scanPc (capturedHeader s) ss) = s.hdr.toList ++ payloadBytes ss := by
    rw [← encodeHeader_captured hp, (packetType_eq_zero s).mp ht, encode]
  have hcs := checksumGood_captured s (payloadBytes ss)
  have hcount : ¬ (capturedHeader s).sampleCount = 0 := fun h => hn (congrArg BitVec.toNat h)
  have htake : (payloadBytes ss).take (plen s) = payloadBytes ss :=
    List.take_of_length_le (by rw [payloadBytes_length, hss]; exact le_refl _)
  have hpairs : (List.range (sampleCount s)).map (fun i => sampleDecode (rawSampleAt (payloadBytes ss) i)) =
      ss.map sampleDecode := by
    conv_rhs => rw [← map_rawSampleAt_payloadBytes ss, List.map_map, hss]
    rfl
  rw [decodeFrame_hdr, if_neg (not_not.mpr hp), if_neg (by rw [ht]; decide), if_neg hn, htake, hpairs, if_neg hcount, henc]
  by_cases hx : xor16 (s.hdr.toList.take 8 ++ payloadBytes ss) = hdrChecksum s
  · rw [if_pos (hcs.mpr hx), if_neg (not_not.mpr hx)]
    exact ⟨sameAround_update .., rfl, rfl, rfl, rfl⟩
  · rw [if_neg (mt hcs.mp hx), if_pos hx]
    exact raiseErr_frameDone _ s

/-! ### One byte of a frame -/

theorem HeaderRead.of_freshBoundary {s : State} (h : FreshBoundary s) : HeaderRead s [] s := by
  obtain ⟨hphase, hhcnt, hpcnt, hout, hstop⟩ := h
  exact ⟨⟨sameAround_update s .., hout, hstop⟩, hphase, by rw [hhcnt]; rfl, hpcnt, rfl⟩

/-- The next byte offered during a header read is captured in HDR (R122). -/
theorem HeaderRead.step_eq {s u : State} {c : List Byte} (h : HeaderRead s c u) (b : Byte) (bs : List Byte) :
    step (feed .source (b :: bs) u) = hdrCapture b (feed .source bs u) :=
  (step_feed_source b bs h.out (by simp [h.phase]) h.noStop).trans (byteArrives_header b h.phase)

/-- A header byte before the tenth goes on with the read (R122). -/
theorem HeaderRead.snoc {s u : State} {c : List Byte} (h : HeaderRead s c u) (hc : c.length < 9) (b : Byte) (bs : List Byte) :
    ∃ t, step (feed .source (b :: bs) u) = .next (feed .source bs t) ∧ HeaderRead s (c ++ [b]) t := by
  have hk := h.hcnt
  rw [h.step_eq]
  rcases hdrCapture_cases b (feed .source bs u) (show u.hcnt.toNat ≤ 9 by omega) with ⟨_, hlt, he⟩ | ⟨h9, _⟩
  · refine ⟨{ captureHeader u.hcnt.toNat hlt b u with hcnt := u.hcnt + 1 }, he,
      ⟨h.toSameAround.trans (sameAround_update u ..), h.out, h.noStop⟩, h.phase, ?_, h.pcnt, ?_⟩
    · show (u.hcnt + 1).toNat = (c ++ [b]).length
      rw [BitVec.toNat_add, hk, List.length_append]
      exact Nat.mod_eq_of_lt (by simp; omega)
    · show (u.hdr.set u.hcnt.toNat b hlt).toList.take (c ++ [b]).length = c ++ [b]
      rw [List.length_append, ← hk]
      refine (take_set_hdr u.hdr hlt b).trans ?_
      rw [show (feed .source bs u).hcnt.toNat = c.length from hk, h.hdr]
  · have : u.hcnt.toNat = 9 := congrArg BitVec.toNat h9
    omega

/-- The tenth header byte completes the header (R122). -/
theorem HeaderRead.last {s u : State} {c : List Byte} (h : HeaderRead s c u) (hc : c.length = 9) (b : Byte) (bs : List Byte) :
    ∃ t, step (feed .source (b :: bs) u) = headerComplete (feed .source bs t) ∧ HeaderWhole s (c ++ [b]) t := by
  have hk := h.hcnt
  rw [h.step_eq]
  rcases hdrCapture_cases b (feed .source bs u) (show u.hcnt.toNat ≤ 9 by omega) with ⟨hlt, _⟩ | ⟨_, he⟩
  · exact absurd (show u.hcnt.toNat < 9 from hlt) (by omega)
  · refine ⟨{ u with hdr := u.hdr.set 9 b, hcnt := 0 }, he,
      ⟨h.toSameAround.trans (sameAround_update u ..), h.out, h.noStop⟩, h.phase, rfl, h.pcnt, ?_⟩
    have hset := take_set_hdr u.hdr (show 9 < 10 by decide) b
    have hhdr := h.hdr
    rw [hc] at hhdr
    rwa [hhdr, List.take_of_length_le (by simp)] at hset

/-- A header that announces a payload begins its read (R145). -/
theorem HeaderWhole.beginPayload {s u : State} {h : List Byte} (hu : HeaderWhole s h u) (hlen : 0 < payloadLength h)
    (bs : List Byte) :
    ∃ t, headerComplete (feed .source bs u) = .next (feed .source bs t) ∧ PayloadRead s h [] t := by
  rw [← hu.hdr] at hlen
  obtain ⟨hp, ht, hn⟩ := payloadLength_hdr_pos.mp hlen
  rcases headerComplete_cases (feed .source bs u) with ⟨hp', _⟩ | ⟨_, ht', _⟩ | ⟨_, _, hn', _⟩ | ⟨_, _, _, he⟩
  · exact absurd hp hp'
  · exact absurd (ht.symm.trans ht') (by decide)
  · exact absurd hn' hn
  · exact ⟨{ u with phase := .payload, pcnt := 0 }, he,
      ⟨hu.toSameAround.trans (sameAround_update u ..), hu.out, hu.noStop⟩, rfl, hu.hcnt, rfl, hu.hdr, rfl⟩

section Payload

variable {s u : State} {h c : List Byte}

/-- The next byte offered during a payload read is captured in PBUF (R148). -/
theorem PayloadRead.step_eq (hu : PayloadRead s h c u) (b : Byte) (bs : List Byte) :
    step (feed .source (b :: bs) u) = payCapture b (feed .source bs u) :=
  (step_feed_source b bs hu.out (by simp [hu.phase]) hu.noStop).trans (byteArrives_payload b hu.phase)

/-- Where a payload byte is awaited, the header is a PointCloud's, and `h` announces PLEN bytes (R26, R145). -/
theorem PayloadRead.header (hu : PayloadRead s h c u) (hc : c.length < payloadLength h) :
    hdrPreamble u = Config.preamble ∧ packetType u = 0 ∧ sampleCount u ≠ 0 ∧ plen u = payloadLength h := by
  rw [← hu.hdr] at hc ⊢
  obtain ⟨hp, ht, hn⟩ := payloadLength_hdr_pos.mp (Nat.zero_lt_of_lt hc)
  exact ⟨hp, ht, hn, by rw [payloadLength_hdr, if_pos ⟨hp, ht⟩]⟩

/-- A payload byte before the last goes on with the read (R148). -/
theorem PayloadRead.snoc (hu : PayloadRead s h c u) (hc : c.length + 1 < payloadLength h) (b : Byte) (bs : List Byte) :
    ∃ t, step (feed .source (b :: bs) u) = .next (feed .source bs t) ∧ PayloadRead s h (c ++ [b]) t := by
  have hj := hu.pcnt
  obtain ⟨hp, ht, _, hl⟩ := hu.header (by omega)
  rw [hu.step_eq]
  obtain ⟨ha, _, ⟨_, he⟩ | ⟨hlast, _⟩⟩ := payCapture_cases b (feed .source bs u) (p := c)
    (by rw [← hu.written, ← hj]; rfl) hp ht (show u.pcnt.toNat < plen u by omega)
  · refine ⟨{ u with
        pbuf := u.pbuf.write u.pcnt.toNat b, xacc := xaccUpdatePayload u.xacc u.pcnt.toNat b, pcnt := u.pcnt + 1 }, he,
      ⟨hu.toSameAround.trans (sameAround_update u ..), hu.out, hu.noStop⟩, hu.phase, hu.hcnt, ?_, hu.hdr, ?_⟩
    · replace ha : u.pcnt.toNat < 765 := ha
      show (u.pcnt + 1).toNat = (c ++ [b]).length
      rw [BitVec.toNat_add, hj, List.length_append]
      exact Nat.mod_eq_of_lt (by simp; omega)
    · show writtenBytes (u.pbuf.write u.pcnt.toNat b) (c ++ [b]).length = some (c ++ [b])
      rw [hj, List.length_append]
      exact writtenBytes_write b hu.written
  · exact absurd (show u.pcnt.toNat + 1 = plen u from hlast) (by omega)

/-- The last payload byte completes the frame, which is decoded in the same step (R146, R148). -/
theorem PayloadRead.last (hu : PayloadRead s h c u) (b : Byte) (hc : c.length + 1 = payloadLength h) :
    ∃ t, step (feed .source [b] u) = .next t ∧ FrameDone s (decodeFrame h (c ++ [b])) t := by
  have hj := hu.pcnt
  obtain ⟨hp, ht, hn, hl⟩ := hu.header (by omega)
  rw [hu.step_eq]
  obtain ⟨_, _, ⟨hmore, _⟩ | ⟨_, ss, hss, hlen, he⟩⟩ := payCapture_cases b (feed .source [] u) (p := c)
    (by rw [← hu.written, ← hj]; rfl) hp ht (show u.pcnt.toNat < plen u by omega)
  · exact absurd (show u.pcnt.toNat + 1 < plen u from hmore) (by omega)
  · obtain ⟨t, hrun, hdone⟩ := execScanPc_decodeFrame (s := { u with
      pbuf := u.pbuf.write u.pcnt.toNat b, xacc := xaccUpdatePayload u.xacc u.pcnt.toNat b, pcnt := 0 }) hp ht hn hlen
    simp only [hss, hu.hdr] at hdone
    exact ⟨t, he.trans hrun, .of_sameAround (hu.toSameAround.trans (sameAround_update u ..)) hdone⟩

end Payload

/-! ### A part of a frame, and the whole -/

/-- The block after the first `k` bytes of the frame `h ++ p` that began in `s`, `k` short of the whole. -/
def FramePart (s : State) (h p : List Byte) (k : Nat) (t : State) : Prop :=
  (k ≤ 9 ∧ HeaderRead s (h.take k) t) ∨ (10 ≤ k ∧ PayloadRead s h (p.take (k - 10)) t)

theorem FramePart.frameOpen {s t : State} {h p : List Byte} {k : Nat} (ht : FramePart s h p k t) :
    FrameOpen s t ∧ t.phase ≠ .idle := by
  rcases ht with ⟨_, hr⟩ | ⟨_, hr⟩
  · exact ⟨hr.toFrameOpen, by simp [hr.phase]⟩
  · exact ⟨hr.toFrameOpen, by simp [hr.phase]⟩

section Frame

variable {s u : State} {h p : List Byte} {k : Nat}

/-- One more byte of a frame, not the last (R64, R147). -/
theorem FramePart.succ (hu : FramePart s h p k u) (hh : h.length = 10) (hp : p.length = payloadLength h)
    (hk : k + 1 < 10 + p.length) :
    ∃ t, step (feed .source ((h ++ p).drop k) u) = .next (feed .source ((h ++ p).drop (k + 1)) t) ∧
      FramePart s h p (k + 1) t := by
  have hlen : k < (h ++ p).length := by simp; omega
  rw [List.drop_eq_getElem_cons hlen]
  rcases hu with ⟨hk9, hr⟩ | ⟨hk10, hr⟩
  · have hkh : k < h.length := by omega
    have hl : (h.take k).length = k := by simp; omega
    rw [List.getElem_append_left hkh]
    have hsnoc : h.take k ++ [h[k]] = h.take (k + 1) := List.take_append_getElem hkh
    by_cases h9 : k = 9
    · obtain ⟨v, he, hw⟩ := hr.last (hl.trans h9) h[k] ((h ++ p).drop (k + 1))
      rw [hsnoc, List.take_of_length_le (by omega)] at hw
      obtain ⟨t, he', ht⟩ := hw.beginPayload (by omega) ((h ++ p).drop (k + 1))
      exact ⟨t, he.trans he', .inr ⟨by omega, by simpa [h9] using ht⟩⟩
    · obtain ⟨t, he, ht⟩ := hr.snoc (by omega) h[k] ((h ++ p).drop (k + 1))
      exact ⟨t, he, .inl ⟨by omega, hsnoc ▸ ht⟩⟩
  · have hkp : k - 10 < p.length := by omega
    have hl : (p.take (k - 10)).length = k - 10 := by simp; omega
    obtain ⟨t, he, ht⟩ := hr.snoc (by omega) (h ++ p)[k] ((h ++ p).drop (k + 1))
    refine ⟨t, he, .inr ⟨by omega, ?_⟩⟩
    have hget : (h ++ p)[k] = p[k - 10] := by simp [List.getElem_append_right (show h.length ≤ k by omega), hh]
    rw [hget, List.take_append_getElem hkp] at ht
    rwa [show k + 1 - 10 = k - 10 + 1 by omega]

/-- The last byte of a frame (R145, R147). -/
theorem FramePart.last (hu : FramePart s h p k u) (hh : h.length = 10) (hp : p.length = payloadLength h)
    (hk : k + 1 = 10 + p.length) :
    ∃ t, step (feed .source ((h ++ p).drop k) u) = .next t ∧ FrameDone s (decodeFrame h p) t := by
  have hlen : k < (h ++ p).length := by simp; omega
  rw [List.drop_eq_getElem_cons hlen, List.drop_of_length_le (by simp; omega)]
  rcases hu with ⟨hk9, hr⟩ | ⟨hk10, hr⟩
  · obtain rfl : p = [] := List.eq_nil_of_length_eq_zero (by omega)
    obtain rfl : k = 9 := by simpa using hk
    obtain ⟨v, he, hw⟩ := hr.last (by simp [hh]) (h ++ [])[9] []
    rw [List.getElem_append_left (by omega), List.take_append_getElem (by omega), List.take_of_length_le (by omega)] at hw
    obtain ⟨t, ht, hdone⟩ := headerComplete_decodeFrame hw.phase hw.hcnt hw.pcnt (by rw [hw.hdr]; exact hp.symm)
    rw [hw.hdr] at hdone
    exact ⟨t, he.trans ht, .of_sameAround hw.toSameAround hdone⟩
  · obtain ⟨t, he, ht⟩ := hr.last (h ++ p)[k] (by simp; omega)
    refine ⟨t, he, ?_⟩
    have hget : (h ++ p)[k] = p[k - 10]'(by omega) := by simp [List.getElem_append_right (show h.length ≤ k by omega), hh]
    rwa [hget, List.take_append_getElem, List.take_of_length_le (by omega)] at ht

/-- After any proper part of a frame (R64). -/
theorem steps_framePart (hs : FreshBoundary s) (hh : h.length = 10) (hp : p.length = payloadLength h) (hk : k < 10 + p.length) :
    ∃ t, steps k (feed .source (h ++ p) s) = .next (feed .source ((h ++ p).drop k) t) ∧ FramePart s h p k t := by
  induction k with
  | zero => exact ⟨s, rfl, .inl ⟨by omega, .of_freshBoundary hs⟩⟩
  | succ k ih =>
    obtain ⟨u, hrun, hu⟩ := ih (by omega)
    obtain ⟨t, hstep, ht⟩ := hu.succ hh hp hk
    exact ⟨t, steps_succ_of_steps hrun hstep, ht⟩

end Frame

/-- Settles O58: the last byte after `steps_framePart` decodes the frame, by `FramePart.last`. -/
theorem wholeFrameYieldsDecodeFrame : Obligations.WholeFrameYieldsDecodeFrame := by
  intro s h p hs hh hp
  obtain ⟨u, hrun, hu⟩ := steps_framePart (k := 9 + p.length) hs hh hp (by omega)
  obtain ⟨t, hstep, ht⟩ := hu.last hh hp (by omega)
  obtain ⟨_, _, _, _, hstop⟩ := hs
  refine ⟨t, ?_, ht.out, ht.phase, ht.hcnt, ht.pcnt, ht.stopPending.trans hstop, ht.rx, ht.line, ht.sched, ht.sink, ht.tx,
    ht.sensorScan, ht.idleByClosed, ht.stopOwed, ht.draining, ht.freeIdx, ht.host⟩
  rw [show 10 + p.length = 9 + p.length + 1 by omega]
  exact steps_succ_of_steps hrun hstep

/-- Settles O59: a frame of which only a part has arrived is still open, with OUT empty. -/
theorem partOfAFrameYieldsNothing : Obligations.PartOfAFrameYieldsNothing := by
  intro s h p k hs hh hp hk
  obtain ⟨t, hrun, ht⟩ := steps_framePart hs hh hp hk
  obtain ⟨hopen, hphase⟩ := ht.frameOpen
  exact ⟨_, hrun, hopen.out, hphase, hopen.sink⟩

end Sys2Proof.Machine

/-! ## The encoding (R80 to R97, R141 to R144): both round trips, the operands as formulas, and what is refused by name -/

namespace Sys2Proof

/-! ### Decoding what the encoder wrote -/

/-- The fields of a scan header are read back from its bytes at offsets 2 to 9 (R81, R91). -/
theorem scanHeaderOf_encoded (t : BitVec 1) (h : ScanHeader) :
    scanHeaderOf (h.freqCode ++ t) h.sampleCount (loByte (angleCode h.startAngle h.startFlag))
      (hiByte (angleCode h.startAngle h.startFlag)) (loByte (angleCode h.endAngle h.endFlag))
      (hiByte (angleCode h.endAngle h.endFlag)) (loByte h.checksum) (hiByte h.checksum) = h := by
  simp [scanHeaderOf]

/-- The fields of a response header are read back from its bytes at offsets 2 to 5 (R87). -/
theorem rspFieldsOf_encoded (f : RspFields) :
    rspFieldsOf (f.sizeHi ++ f.payloadSize) f.reserved3 f.reserved4 (f.responseMode ++ f.modeLo) = f := by
  have hlow : (f.responseMode ++ f.modeLo).extractLsb' 0 6 = f.modeLo := extract_low _ _
  simp [rspFieldsOf, hlow]

/-- The row of a scan frame is chosen by its type bit (R82); a HeadingMarker has no payload (R84). -/
theorem decodeScan_encodeHeader {t : BitVec 1} {h : ScanHeader} {ss : List RawSample} (rest : List Byte)
    (hn : t = 0 → ss.length = h.sampleCount.toNat) (h1 : t = 1 → ss = []) :
    decodeScan (encodeHeader t h ++ (payloadBytes ss ++ rest)) = .ok (if t = 1 then .scanHm h else .scanPc h ss, rest) := by
  have hd := decodeScan_header (h.freqCode ++ t) h.sampleCount (loByte (angleCode h.startAngle h.startFlag))
    (hiByte (angleCode h.startAngle h.startFlag)) (loByte (angleCode h.endAngle h.endFlag))
    (hiByte (angleCode h.endAngle h.endFlag)) (loByte h.checksum) (hiByte h.checksum) ss rest
    (by rwa [typeBit_append]) (by rwa [typeBit_append])
  rwa [typeBit_append, scanHeaderOf_encoded] at hd

/-- After a good preamble the row of a response header is chosen by its type code (R87, R89). -/
theorem decodeResponse_preamble (b2 b3 b4 b5 t : Byte) (rest : List Byte) :
    decodeResponse (Config.preB0 :: Config.preB1 :: b2 :: b3 :: b4 :: b5 :: t :: rest) =
      if t = Config.typeScanack then .ok (.rspScanack (rspFieldsOf b2 b3 b4 b5), rest)
      else if t = Config.typeDevinfo then .ok (.rspDevinfo (rspFieldsOf b2 b3 b4 b5), rest)
      else if t = Config.typeHealth then .ok (.rspHealth (rspFieldsOf b2 b3 b4 b5), rest)
      else .error (.unlistedTypeCode t) := by
  have hp : le16 Config.preB0 Config.preB1 = Config.preamble := (le16_eq_preamble _ _).mpr ⟨rfl, rfl⟩
  rw [decodeResponse, if_neg (not_not.mpr hp)]

theorem decodeResponse_encodeResponse (t : Byte) (f : RspFields) (rest : List Byte) :
    decodeResponse (encodeResponse t f ++ rest) =
      if t = Config.typeScanack then .ok (.rspScanack f, rest)
      else if t = Config.typeDevinfo then .ok (.rspDevinfo f, rest)
      else if t = Config.typeHealth then .ok (.rspHealth f, rest)
      else .error (.unlistedTypeCode t) := by
  have hd := decodeResponse_preamble (f.sizeHi ++ f.payloadSize) f.reserved3 f.reserved4 (f.responseMode ++ f.modeLo) t rest
  rwa [rspFieldsOf_encoded] at hd

/-- Settles O2, one case per row: a scan frame by its type bit, a response header by its type code; a sample and a command
have no field to assemble. -/
theorem decodeOfEncodeGivesUnitBack : Obligations.DecodeOfEncodeGivesUnitBack := by
  intro i rest hwf
  cases i with
  | scanPc h ss =>
    have hlen : ss.length = h.sampleCount.toNat := by simpa [Instr.WellFormed, Instr.wellFormed] using hwf
    rw [encode, List.append_assoc]
    exact decodeScan_encodeHeader rest (fun _ => hlen) (fun ht => absurd ht (by decide))
  | scanHm h => exact decodeScan_encodeHeader (ss := []) rest (fun ht => absurd ht (by decide)) (fun _ => rfl)
  | sample raw => rfl
  | cmdStart => rfl
  | cmdStop => rfl
  | cmdDevinfo => rfl
  | cmdHealth => rfl
  | cmdReset => rfl
  | rspScanack f => exact decodeResponse_encodeResponse Config.typeScanack f rest
  | rspDevinfo f => exact decodeResponse_encodeResponse Config.typeDevinfo f rest
  | rspHealth f => exact decodeResponse_encodeResponse Config.typeHealth f rest

/-- A byte string that is the encoding of a unit decodes to it. -/
theorem decode_of_encode_eq {p : Place} {i : Instr} {bs : List Byte} (hwf : i.WellFormed) (hp : i.place = p)
    (henc : encode i = bs) : decode p bs = .ok (i, []) := by
  have h := decodeOfEncodeGivesUnitBack i [] hwf
  rwa [List.append_nil, hp, henc] at h

/-- Settles O1: each word is the encoding of its unit, so that O2 decodes it. -/
theorem writtenWordsDecode : Obligations.WrittenWordsDecode := by
  refine ⟨?_, ?_, ?_, ?_, ?_, ?_, ?_, ?_, ?_, ?_, ?_⟩ <;> exact decode_of_encode_eq rfl rfl (by decide)

/-! ### Encoding what the decoder read -/

/-- The unit of format SAMPLE (R85): three bytes, none of them dropped. -/
theorem decodeSample_ok {bs rest : List Byte} {i : Instr} (h : decodeSample bs = .ok (i, rest)) :
    ∃ raw, i = .sample raw ∧ bs = raw.bytes ++ rest := by
  unfold decodeSample at h
  split at h
  · next b0 b1 b2 r => cases h; exact ⟨⟨b0, b1, b2⟩, rfl, rfl⟩
  · cases h

/-- Settles O3, place by place: what each format's decoder can answer says from which bytes. -/
theorem decodedUnitEncodesToItsBytes : Obligations.DecodedUnitEncodesToItsBytes := by
  intro p bs rest i h
  cases p with
  | scan =>
    obtain ⟨hd, rfl, rfl⟩ | ⟨hd, ss, rfl, hlen, rfl⟩ := decodeScan_ok h
    · exact ⟨rfl, rfl, rfl⟩
    · exact ⟨by simp [Instr.WellFormed, Instr.wellFormed, hlen], rfl, rfl⟩
  | payload =>
    obtain ⟨raw, rfl, rfl⟩ := decodeSample_ok h
    exact ⟨rfl, rfl, rfl⟩
  | command =>
    obtain ⟨hi, rfl⟩ := decodeCommand_ok h
    rcases hi with rfl | rfl | rfl | rfl | rfl <;> exact ⟨rfl, rfl, rfl⟩
  | response =>
    obtain ⟨⟨f, hi⟩, rfl⟩ := decodeResponse_ok h
    rcases hi with rfl | rfl | rfl <;> exact ⟨rfl, rfl, rfl⟩

/-! ### The operands as formulas (R91, R141 to R144) -/

theorem typeBit_toNat (b : Byte) : (typeBit b).toNat = b.toNat &&& 0x01 := by
  rw [typeBit, BitVec.toNat_setWidth, BitVec.toNat_and]
  exact Nat.mod_eq_of_lt (Nat.and_lt_two_pow _ (by decide))

theorem freqField_toNat (b : Byte) : (freqField b).toNat = (b.toNat >>> 1) &&& 0x7F := by
  rw [freqField, BitVec.toNat_setWidth, BitVec.toNat_and, BitVec.toNat_ushiftRight]
  exact Nat.mod_eq_of_lt (Nat.and_lt_two_pow _ (by decide))

theorem sizeField_toNat (b : Byte) : (sizeField b).toNat = b.toNat &&& 0x3F := by
  rw [sizeField, BitVec.toNat_setWidth, BitVec.toNat_and]
  exact Nat.mod_eq_of_lt (Nat.and_lt_two_pow _ (by decide))

/-- No mask is needed above the top two bits of a byte. -/
theorem topField_toNat (b : Byte) : (topField b).toNat = b.toNat >>> 6 := by
  rw [topField, BitVec.extractLsb'_toNat, Nat.shiftRight_eq_div_pow]
  exact Nat.mod_eq_of_lt (by have := b.isLt; omega)

/-- An angle code's degrees as a quotient of rationals (R91, R144). -/
theorem degOfAngle_codeAngle (lo hi : Byte) :
    Machine.degOfAngle (codeAngle (le16 lo hi)) = (((lo.toNat + 256 * hi.toNat) >>> 1 : Nat) : ℚ) / 64 := by
  rw [← Machine.codeToDeg_eq, Machine.codeToDeg, Rat.mkRat_eq_div, Nat.shiftRight_eq_div_pow]
  rfl

/-- Settles O4: each operand by the formula of its field. -/
theorem operandsAssembleByFormulas : Obligations.OperandsAssembleByFormulas :=
  ⟨fun b2 _ b4 b5 b6 b7 b8 b9 =>
    ⟨typeBit_toNat b2, freqField_toNat b2, rfl, degOfAngle_codeAngle b4 b5, degOfAngle_codeAngle b6 b7,
      Machine.le16_toNat b8 b9⟩,
    fun r2 _ _ r5 => ⟨sizeField_toNat r2, topField_toNat r5⟩⟩

/-! ### What is no unit (R92, R97) -/

/-- Ten bytes are looked at as a header, the preamble first (R92). -/
theorem decodeScan_badPreamble {b0 b1 : Byte} {rest : List Byte} (hlen : 8 ≤ rest.length)
    (h : ¬ (b0 = Config.preB0 ∧ b1 = Config.preB1)) : decodeScan (b0 :: b1 :: rest) = .error .badPreamble := by
  have hp : le16 b0 b1 ≠ Config.preamble := mt (le16_eq_preamble b0 b1).mp h
  match rest, hlen with
  | _ :: _ :: _ :: _ :: _ :: _ :: _ :: _ :: _, _ => rw [decodeScan, if_pos hp]

/-- A command begins with CMD_SYNC (R86). -/
theorem decodeCommand_badSync {b0 : Byte} (b1 : Byte) (rest : List Byte) (h : b0 ≠ Config.cmdSync) :
    decodeCommand (b0 :: b1 :: rest) = .error (.badSync b0) := by
  rw [decodeCommand, if_pos h]

/-- No opcode but the five is listed (R97). -/
theorem decodeCommand_unlistedOpcode {op : Byte} (rest : List Byte) (hstart : op ≠ Config.opStart)
    (hstop : op ≠ Config.opStop) (hdev : op ≠ Config.opDevinfo) (hhealth : op ≠ Config.opHealth)
    (hreset : op ≠ Config.opReset) : decodeCommand (Config.cmdSync :: op :: rest) = .error (.unlistedOpcode op) := by
  simp [decodeCommand, hstart, hstop, hdev, hhealth, hreset]

/-- No type code but the three is listed (R97). -/
theorem decodeResponse_unlistedTypeCode (b2 b3 b4 b5 : Byte) {t : Byte} (rest : List Byte) (hack : t ≠ Config.typeScanack)
    (hdev : t ≠ Config.typeDevinfo) (hhealth : t ≠ Config.typeHealth) :
    decodeResponse (Config.preB0 :: Config.preB1 :: b2 :: b3 :: b4 :: b5 :: t :: rest) = .error (.unlistedTypeCode t) := by
  rw [decodeResponse_preamble, if_neg hack, if_neg hdev, if_neg hhealth]

/-- Settles O6: one refusal of each decoder. -/
theorem otherCodesAreRefused : Obligations.OtherCodesAreRefused := by
  refine ⟨fun b0 b1 rest hlen hne => ?_, fun op hstart hstop hdev hhealth hreset => ?_,
    fun t r2 r3 r4 r5 hack hdev hhealth => ?_⟩
  · refine decodeScan_badPreamble hlen ?_
    rw [preB0_eq, preB1_eq]
    exact not_and_or.mpr hne
  · exact decodeCommand_unlistedOpcode [] hstart hstop hdev hhealth hreset
  · exact decodeResponse_unlistedTypeCode r2 r3 r4 r5 [] hack hdev hhealth

end Sys2Proof

namespace Sys2Proof.Machine

/-- Where the host turns to its command line, two bytes that do not decode are refused, whatever it was to do with a
command (R97, U7). -/
theorem withCommand_refused {act : Instr → State → Host.Outcome State Fault Refusal} {s : State} {b0 b1 : Byte}
    {c : List Byte} {e : DecodeError} (hcall : s.host.call ≠ some .stopScan) (howed : stopDutiesOwed s = false)
    (hcmds : s.host.cmds = b0 :: b1 :: c) (he : decodeCommand [b0, b1] = .error e) :
    withCommand act s = .refused (.unlistedCommand b0 b1) := by
  simp [withCommand, hcall, howed, hcmds, decode, he]

/-- Settles O39: the two bytes fail to decode by the first or by the second of them, and both turns of the sending host
refuse what does not decode. -/
theorem unlistedCommandIsRefused : Obligations.UnlistedCommandIsRefused := by
  intro s b0 b1 c ts hst hs hcall howed hcmds hne
  obtain ⟨e, he⟩ : ∃ e, decodeCommand [b0, b1] = .error e := by
    by_cases hsync : b0 = Config.cmdSync
    · obtain ⟨hstart, hstop, hdev, hhealth, hreset⟩ := hne.resolve_left (not_not.mpr hsync)
      exact ⟨_, hsync ▸ decodeCommand_unlistedOpcode [] hstart hstop hdev hhealth hreset⟩
    · exact ⟨_, decodeCommand_badSync b1 [] hsync⟩
  rcases hs with hs | hs <;> exact (step_turn hst hs).trans (withCommand_refused hcall howed hcmds he)

end Sys2Proof.Machine

/-! ## The event on offer in a read (R121 to R125, R145 to R149, R276): a captured byte, the tenth byte, a whole frame, a timeout -/

namespace Sys2Proof.Machine

/-- Where PARSER may take one, the first event received is consumed (R34). -/
theorem sourceOffer_of_enabled {s : State} {e : SrcEvent} {r : List SrcEvent} (hrx : s.rx = e :: r)
    (hen : sourceEnabled s = true) : sourceOffer s = parserEvent e { s with rx := r } := by
  simp only [sourceOffer, hrx, if_pos hen]

section Offered

variable {s : State} {ts : List Turn} {r : List SrcEvent}

/-- Where PARSER may take the event on offer, the step is what it does with it, the event consumed (R34). -/
theorem step_of_offers {e : SrcEvent} {p : Phase} (hoffer : Offers s e ts r) (hready : Ready s p) (hp : p ≠ .idle) :
    step s = parserEvent e { s with sched := ts, rx := r } := by
  obtain ⟨hs, hrx⟩ := hoffer
  obtain ⟨rfl, hout, hst⟩ := hready
  have hen : sourceEnabled { s with sched := ts } = true := (sourceEnabled_iff _).mpr ⟨hout, hp, hst⟩
  exact (step_turn hst hs).trans (sourceOffer_of_enabled hrx hen)

/-- A byte offered during the header read is captured in HDR (R122). -/
theorem step_header_byte {b : Byte} (hoffer : Offers s (.byte b) ts r) (hready : Ready s .header) :
    step s = hdrCapture b { s with sched := ts, rx := r } :=
  (step_of_offers hoffer hready (by decide)).trans (byteArrives_header b hready.1)

/-- A byte offered during the payload read is captured in PBUF (R148). -/
theorem step_payload_byte {b : Byte} (hoffer : Offers s (.byte b) ts r) (hready : Ready s .payload) :
    step s = payCapture b { s with sched := ts, rx := r } :=
  (step_of_offers hoffer hready (by decide)).trans (byteArrives_payload b hready.1)

/-- The tenth byte, of the checksum field as the ninth is, leaves XACC and completes the header (R122, R174). -/
theorem step_tenth_byte {b : Byte} (hoffer : Offers s (.byte b) ts r) (hready : Ready s .header) (h9 : s.hcnt = 9) :
    step s = headerComplete { s with sched := ts, rx := r, hdr := s.hdr.set 9 b, hcnt := 0 } := by
  have h9' : s.hcnt.toNat = 9 := congrArg BitVec.toNat h9
  rw [step_header_byte hoffer hready]
  rcases hdrCapture_cases b { s with sched := ts, rx := r } h9'.le with ⟨hlt, _⟩ | ⟨_, he⟩
  · exact absurd h9' hlt.ne
  · exact he

end Offered

/-! ### A complete header (R123, R124, R145) -/

section Dispatch

variable {s : State}

/-- The preamble is right exactly where the first two bytes are `A5 5A` (R22, R124). -/
theorem hdrPreamble_iff : hdrPreamble s = Config.preamble ↔ s.hdr[0] = 0xA5 ∧ s.hdr[1] = 0x5A :=
  preB0_eq ▸ preB1_eq ▸ le16_eq_preamble s.hdr[0] s.hdr[1]

theorem headerComplete_of_badPreamble (hp : hdrPreamble s ≠ Config.preamble) :
    headerComplete s = .next (raiseErr .badPreamble s) := if_pos hp

theorem headerComplete_of_preamble (hp : hdrPreamble s = Config.preamble) : headerComplete s = dispatch s :=
  if_neg (not_not.mpr hp)

/-- A PointCloud header with samples begins the payload read (R145). -/
theorem dispatch_payload (ht : packetType s = 0) (hn : sampleCount s ≠ 0) :
    dispatch s = .next { s with phase := .payload, pcnt := 0 } := by
  rw [dispatch, if_neg ((packetType_ne_one s).mpr ht), if_neg hn]

/-- Any other header is a whole frame (R145). -/
theorem dispatch_whole (h : packetType s = 1 ∨ sampleCount s = 0) : dispatch s = runFrame s := by
  by_cases ht : packetType s = 1
  · rw [dispatch, if_pos ht]
  · rw [dispatch, if_neg ht, if_pos (h.resolve_left ht)]

/-! ### A whole frame decodes (R146, R189) -/

/-- The captured frame, its samples read from PBUF, is run as what its bytes decode to. -/
theorem runFrame_of_decode {ss : List RawSample} {i : Instr} {rest : List Byte}
    (hm : memReadSamples s.pbuf 0 (if packetType s = 1 then 0 else sampleCount s) = .ok ss)
    (hd : decode .scan (s.hdr.toList ++ payloadBytes ss) = .ok (i, rest)) : runFrame s = exec i s := by
  have hf : fetchFrame s = .ok i := by simp only [fetchFrame, hm, hd]
  rw [runFrame, hf]

/-- Ten bytes that decode as a whole frame have the preamble, and are a HeadingMarker or announce no sample (R145). -/
theorem header_of_decode {i : Instr} {rest : List Byte} (hd : decode .scan s.hdr.toList = .ok (i, rest)) :
    hdrPreamble s = Config.preamble ∧ (packetType s = 1 ∨ sampleCount s = 0) := by
  rw [hdr_toList, decode, decodeScan] at hd
  split at hd
  · cases hd
  next hp =>
  refine ⟨not_not.mp hp, ?_⟩
  dsimp only at hd
  split at hd
  · next ht => exact .inl ((packetType_eq_one s).mpr ht)
  · split at hd
    · next hss =>
      obtain ⟨hlen, hnil⟩ := takeSamples_eq_some hss
      have hnil' := congrArg List.length hnil
      rw [List.length_append, payloadBytes_length, List.length_nil] at hnil'
      exact .inr (show s.hdr[3].toNat = 0 by omega)
    · cases hd

/-- A header that decodes as a whole frame is run in the step that completes it (R123, R145). -/
theorem headerComplete_of_decode {i : Instr} {rest : List Byte} (hd : decode .scan s.hdr.toList = .ok (i, rest)) :
    headerComplete s = exec i s := by
  obtain ⟨hp, hwhole⟩ := header_of_decode hd
  have hn : (if packetType s = 1 then 0 else sampleCount s) = 0 := by
    split
    · rfl
    · next ht => exact hwhole.resolve_left ht
  rw [headerComplete_of_preamble hp, dispatch_whole hwhole]
  exact runFrame_of_decode (ss := []) (by rw [hn, memReadSamples]) (by rwa [payloadBytes, List.append_nil])

/-- The last byte of a payload is written behind the others, and a frame that decodes with it is run (R146, R148). -/
theorem payCapture_last_of_decode {p : List Byte} {b : Byte} {i : Instr} {rest : List Byte} (ht : packetType s = 0)
    (hlast : s.pcnt.toNat + 1 = plen s) (hw : writtenBytes s.pbuf s.pcnt.toNat = some p)
    (hd : decode .scan (s.hdr.toList ++ (p ++ [b])) = .ok (i, rest)) :
    ∃ m, memWrite s.pbuf s.pcnt.toNat b = .ok m ∧ payCapture b s =
      exec i { s with pbuf := m, xacc := xaccUpdatePayload s.xacc s.pcnt.toNat b, pcnt := 0 } := by
  have hplen : plen s = 3 * sampleCount s := rfl
  have hroom : plen s ≤ Config.pbufLen := Nat.mul_le_mul_left 3 (Nat.le_of_lt_succ s.hdr[3].isLt)
  have hwrite := memWrite_eq (m := s.pbuf) b (show s.pcnt.toNat < Config.pbufLen by omega)
  have hwhole : writtenBytes (s.pbuf.write s.pcnt.toNat b) (plen s) = some (p ++ [b]) := hlast ▸ writtenBytes_write b hw
  obtain ⟨ss, hm, hss⟩ := memReadSamples_written hwhole hroom 0 (sampleCount s) (by omega)
  rw [Nat.mul_zero, List.drop_zero, ← hplen, ← writtenBytes_length hwhole, List.take_length] at hss
  refine ⟨_, hwrite, ?_⟩
  simp only [payCapture, hwrite]
  rw [if_neg (by omega)]
  refine runFrame_of_decode (ss := ss) ?_ (hss ▸ hd)
  exact (congrArg _ (if_neg ((packetType_ne_one s).mpr ht))).trans hm

end Dispatch

/-! ### A read that falls short (R125, R149, R272) -/

theorem shortRead_header {s : State} (h : s.phase = .header) :
    shortRead s = raiseErr (.shortRead 10 s.hcnt.toNat) s := by
  simp only [shortRead, readProgress, h, Config.hdrLen]

theorem shortRead_payload {s : State} (h : s.phase = .payload) :
    shortRead s = raiseErr (.shortRead (plen s) s.pcnt.toNat) s := by
  simp only [shortRead, readProgress, h]

/-! ### The statements -/

/-- Settles O33: of the two cases of `hdrCapture` it is the byte before the tenth. -/
theorem headerByteIsCaptured : Obligations.HeaderByteIsCaptured := by
  intro s b ts r hk hready hoffer
  rw [step_header_byte hoffer hready]
  rcases hdrCapture_cases b { s with sched := ts, rx := r } (Nat.le_of_lt hk) with ⟨_, _, he⟩ | ⟨h9, _⟩
  · exact he
  · exact absurd (congrArg BitVec.toNat h9) hk.ne

/-- Settles O34: the tenth byte leaves the two preamble bytes as they are, and the preamble is looked at first. -/
theorem badPreambleIsRaised : Obligations.BadPreambleIsRaised := by
  intro s b ts r hready hoffer h9 hbad
  rw [step_tenth_byte hoffer hready h9]
  refine headerComplete_of_badPreamble (mt hdrPreamble_iff.mp ?_)
  simpa [imp_iff_not_or] using hbad

/-- Settles O35: with the preamble right, type and count decide for the payload read. -/
theorem payloadReadBegins : Obligations.PayloadReadBegins := by
  intro s b ts r hready hoffer h9 h0 h1 htype hcount
  have hp : hdrPreamble { s with sched := ts, rx := r, hdr := s.hdr.set 9 b, hcnt := 0 } = Config.preamble :=
    hdrPreamble_iff.mpr (by simp [h0, h1])
  rw [step_tenth_byte hoffer hready h9, headerComplete_of_preamble hp]
  refine dispatch_payload ?_ ?_
  · simpa [packetType, Config.typeMask] using htype
  · simpa [sampleCount, BitVec.toNat_eq] using hcount

/-- Settles O37: `headerComplete_of_decode` for a frame that ends with its header, `payCapture_last_of_decode` for one that
ends with its payload. -/
theorem stepRunsTheCapturedFrame : Obligations.StepRunsTheCapturedFrame := by
  intro s b ts r i hoffer
  refine ⟨fun hready h9 hd => ?_, fun p hready htype hlast hw hd => ?_⟩
  · rw [step_tenth_byte hoffer hready h9]
    exact headerComplete_of_decode hd
  · rw [step_payload_byte hoffer hready]
    exact payCapture_last_of_decode (s := { s with sched := ts, rx := r }) htype hlast hw hd

/-- Settles O40: the phase says which read fell short, and so its size and its counter. -/
theorem timeoutRaisesShortRead : Obligations.TimeoutRaisesShortRead := by
  intro s ts r hoffer
  refine ⟨fun hready => ?_, fun hready => ?_⟩
  · rw [step_of_offers hoffer hready (by decide), parserEvent]
    exact congrArg _ (shortRead_header (s := { s with sched := ts, rx := r }) hready.1)
  · rw [step_of_offers hoffer hready (by decide), parserEvent]
    exact congrArg _ (shortRead_payload (s := { s with sched := ts, rx := r }) hready.1)

end Sys2Proof.Machine

/-! ## The two scan frames and the sample (R146 to R153, R188): the packet, the errors, the pair -/

namespace Sys2Proof.Machine

/-! ### CHK.COMPARE on an encoded frame (R171, R176) -/

theorem encodeHeader_length (t : BitVec 1) (h : ScanHeader) : (encodeHeader t h).length = 10 := rfl

/-- A PointCloud's checksum covers the first eight header bytes and the payload. -/
theorem checksumGood_scanPc (h : ScanHeader) (ss : List RawSample) :
    checksumGood (encode (.scanPc h ss)) h.checksum = true ↔
      xor16 ((encodeHeader 0 h).take 8 ++ payloadBytes ss) = h.checksum := by
  rw [checksumGood, encode, covered_append (encodeHeader_length 0 h), beq_iff_eq]

/-- A HeadingMarker's checksum covers the first eight header bytes alone. -/
theorem checksumGood_scanHm (h : ScanHeader) :
    checksumGood (encode (.scanHm h)) h.checksum = true ↔ xor16 ((encodeHeader 1 h).take 8) = h.checksum := by
  have hc := covered_append (p := []) (encodeHeader_length 1 h)
  rw [List.append_nil, List.append_nil] at hc
  rw [checksumGood, encode, hc, beq_iff_eq]

/-! ### SCAN.PC (R146, R152) -/

section ScanPc

variable {h : ScanHeader} {ss : List RawSample} (s : State)

theorem exec_scanPc_empty (hc : h.sampleCount = 0) : exec (.scanPc h ss) s = .next (raiseErr .emptyPointCloud s) :=
  (execScanPc_eq s h ss).trans (by rw [if_pos hc])

theorem exec_scanPc_badChecksum (hc : h.sampleCount ≠ 0)
    (hx : xor16 ((encodeHeader 0 h).take 8 ++ payloadBytes ss) ≠ h.checksum) :
    exec (.scanPc h ss) s = .next (raiseErr .checksumError s) :=
  (execScanPc_eq s h ss).trans (by rw [if_neg hc, if_neg (mt (checksumGood_scanPc h ss).mp hx)])

theorem exec_scanPc_good (hc : h.sampleCount ≠ 0)
    (hx : xor16 ((encodeHeader 0 h).take 8 ++ payloadBytes ss) = h.checksum) :
    exec (.scanPc h ss) s = .next { s with
      out := some (.packet (pointCloudPacket h (ss.map sampleDecode))), phase := .header, hcnt := 0, pcnt := 0,
      decoded := [] } :=
  (execScanPc_eq s h ss).trans (by rw [if_neg hc, if_pos ((checksumGood_scanPc h ss).mpr hx)])

end ScanPc

/-- Settles O21: the packet of `exec_scanPc_good`, its distances read off the decoded pairs. -/
theorem scanPcEmitsItsPacket : Obligations.ScanPcEmitsItsPacket := by
  intro h ss s hc _ hx
  rw [exec_scanPc_good s hc hx, pointCloudPacket, List.map_map]
  rfl

/-- Settles O22: the count is looked at before the checksum, and both errors are `raiseErr`. -/
theorem scanPcRaisesOnCountAndChecksum : Obligations.ScanPcRaisesOnCountAndChecksum := fun _ _ s =>
  ⟨fun hc => exec_scanPc_empty s hc, fun hc hx => exec_scanPc_badChecksum s hc hx⟩

/-! ### SCAN.HM (R150, R151, R153) -/

section ScanHm

variable {h : ScanHeader} (s : State)

theorem exec_scanHm_good (hx : xor16 ((encodeHeader 1 h).take 8) = h.checksum) :
    exec (.scanHm h) s = .next { s with out := some (.packet (headingMarkerPacket h)) } :=
  (execScanHm_eq s h).trans (by rw [if_pos ((checksumGood_scanHm h).mpr hx)])

theorem exec_scanHm_badChecksum (hx : xor16 ((encodeHeader 1 h).take 8) ≠ h.checksum) :
    exec (.scanHm h) s = .next (raiseErr .checksumError s) :=
  (execScanHm_eq s h).trans (by rw [if_neg (mt (checksumGood_scanHm h).mp hx)])

end ScanHm

/-- Settles O23: the marker's one sample is `attachAngles_marker`; the count decides for the anomaly alone. -/
theorem scanHmEmitsOrRaises : Obligations.ScanHmEmitsOrRaises := by
  intro h s
  refine ⟨fun hx => ?_, fun hx => exec_scanHm_badChecksum s hx⟩
  rw [exec_scanHm_good s hx, headingMarkerPacket, attachAngles_marker]
  rfl

/-! ### SAMPLE (R186 to R188) -/

/-- Ten bits hold every intensity (R186, R191). -/
theorem sampleDecode_intensity (r : RawSample) :
    (sampleDecode r).1.toNat = r.b0.toNat + (r.b1.toNat &&& 0x03) * 256 := by
  have hb0 := r.b0.isLt
  have hb1 : r.b1.toNat &&& 0x03 < 2 ^ 2 := Nat.and_lt_two_pow _ (by decide)
  have hq : sampleIntensity r = r.b0.toNat + (r.b1.toNat &&& 0x03) * 256 := by
    rw [sampleIntensity, BitVec.toNat_and]; rfl
  rw [sampleDecode, BitVec.toNat_ofNat, hq]
  exact Nat.mod_eq_of_lt (by omega)

/-- Fourteen bits hold every distance (R187, R191). -/
theorem sampleDecode_distance (r : RawSample) :
    (sampleDecode r).2.toNat = (r.b2.toNat <<< 6) + (r.b1.toNat >>> 2) := by
  have hb1 := r.b1.isLt
  have hb2 := r.b2.isLt
  have hd : sampleDistance r = (r.b2.toNat <<< 6) + (r.b1.toNat >>> 2) := by
    rw [sampleDistance, BitVec.toNat_ushiftRight]; rfl
  rw [sampleDecode, BitVec.toNat_ofNat, hd]
  exact Nat.mod_eq_of_lt (by rw [Nat.shiftLeft_eq, Nat.shiftRight_eq_div_pow]; omega)

/-- Settles O24: the pair is `sampleDecode` of the three bytes. -/
theorem sampleYieldsItsPair : Obligations.SampleYieldsItsPair := fun r _ =>
  ⟨_, rfl, _, _, rfl, sampleDecode_intensity r, sampleDecode_distance r⟩

/-! ### PAY.CAPTURE before the last byte (R148) -/

/-- A payload fits into PBUF (R28). -/
theorem plen_le_pbufLen (s : State) : plen s ≤ Config.pbufLen :=
  Nat.mul_le_mul_left 3 (Nat.le_of_lt_succ s.hdr[3].isLt)

theorem payCapture_of_more (b : Byte) {s : State} {m : Memory} (hw : memWrite s.pbuf s.pcnt.toNat b = .ok m)
    (hmore : s.pcnt.toNat + 1 < plen s) : payCapture b s = .next { s with
      pbuf := m, xacc := xaccUpdatePayload s.xacc s.pcnt.toNat b, pcnt := s.pcnt + 1 } := by
  simp only [payCapture, hw]
  rw [if_pos (Nat.lt_sub_of_add_lt hmore)]

/-- Settles O36: with a byte still to come PCNT is below 764, so that the write succeeds. -/
theorem payloadByteIsCaptured : Obligations.PayloadByteIsCaptured := by
  intro s b ts r hready hoffer hmore
  have hroom : s.pcnt.toNat < Config.pbufLen := (Nat.lt_of_succ_lt hmore).trans_le (plen_le_pbufLen s)
  have hw := memWrite_eq (m := s.pbuf) b hroom
  refine ⟨_, hw, ?_⟩
  rw [step_payload_byte hoffer hready]
  exact payCapture_of_more (s := { s with sched := ts, rx := r }) b hw hmore

end Sys2Proof.Machine

/-! ## The item in OUT (R154, R272): the frame it stands for stays captured, and what a completed frame writes satisfies
R154 -/

namespace Sys2Proof.Machine

/-! ### Soundness speaks of the captured frame alone -/

/-- The captured frame is the same: HDR and PBUF. -/
structure SameFrame (s t : State) : Prop where
  hdr : t.hdr = s.hdr
  pbuf : t.pbuf = s.pbuf

theorem SameFrame.itemOk {s t : State} (h : SameFrame s t) {it : Item} (hi : ItemOk s it) : ItemOk t it := by
  have htype : packetType t = packetType s := by simp only [packetType, h.hdr]
  have hcount : sampleCount t = sampleCount s := by simp only [sampleCount, h.hdr]
  have hcs : hdrChecksum t = hdrChecksum s := by simp only [hdrChecksum, h.hdr]
  cases it with
  | packet p =>
    show PacketOk t p
    unfold PacketOk
    rw [htype, hcount, hcs, plen, hcount, h.hdr, h.pbuf]
    exact hi
  | error e => cases e <;> exact hi
  | endOfStream => trivial

theorem outOk_of_none {s : State} (h : s.out = none) : OutOk s := fun it hit => by cases h.symm.trans hit

/-- A step that writes an item keeps the frame that the item stands for. -/
theorem SameFrame.outOk_of_written {s t : State} {it : Item} (h : SameFrame s t) (hout : t.out = some it)
    (hi : ItemOk s it) : OutOk t := fun it' hit' => by
  cases hout.symm.trans hit'
  exact h.itemOk hi

theorem raiseErr_outOk {e : Err} {s : State} (h : ItemOk s (.error e)) : OutOk (raiseErr e s) :=
  SameFrame.outOk_of_written ⟨rfl, rfl⟩ rfl h

/-- No item is written, and the captured frame stays while one is in OUT. -/
structure OutKept (s t : State) : Prop extends SameFrame s t where
  out : t.out = s.out ∨ t.out = none

theorem OutKept.outOk {s t : State} (h : OutKept s t) (ho : OutOk s) : OutOk t := by
  rcases h.out with hout | hout
  · exact fun it hit => h.itemOk (ho it (hout.symm.trans hit))
  · exact outOk_of_none hout

theorem OutKept.refl (s : State) : OutKept s s := ⟨⟨rfl, rfl⟩, .inl rfl⟩

/-- Neither the received events, nor the turns to come, nor the host's side belong to the captured frame or to OUT. -/
theorem OutKept.of_env {s t : State} {r : List SrcEvent} {q : List Turn} {h : HostSide}
    (ho : OutKept { s with rx := r, sched := q, host := h } t) : OutKept s t := ⟨⟨ho.hdr, ho.pbuf⟩, ho.out⟩

theorem SameBlock.outKept {s t : State} (h : SameBlock s t) : OutKept s t := ⟨⟨h.hdr, h.pbuf⟩, .inl h.out⟩

/-! ### The packet of a completed frame (R154) -/

/-- Every emitted angle is normalised (R206). -/
theorem angles_inRange (s e : ℚ) (d : List (BitVec 14)) : ∀ a ∈ angles s e d, a.InRange := fun a ha corr hok => by
  have hmem := List.mem_map_of_mem (f := Deg.eval corr) ha
  rw [map_eval_angles hok] at hmem
  exact anglesOfSpan_inRange _ _ _ _ _ hmem

/-- A sample's angle is one of those computed for the packet (R189). -/
theorem angle_mem_of_mem_attachAngles {pairs : List (BitVec 10 × BitVec 14)} {as : List Deg} {x : Sample}
    (hx : x ∈ attachAngles pairs as) : x.angle ∈ as := by
  rw [attachAngles, ← List.map_uncurry_zip_eq_zipWith] at hx
  obtain ⟨⟨p, a⟩, hpa, rfl⟩ := List.mem_map.mp hx
  exact (List.of_mem_zip hpa).2

theorem attachAngles_inRange (pairs : List (BitVec 10 × BitVec 14)) (s e : ℚ) (d : List (BitVec 14)) :
    ∀ x ∈ attachAngles pairs (angles s e d), x.angle.InRange := fun _ hx =>
  angles_inRange s e d _ (angle_mem_of_mem_attachAngles hx)

theorem pointCloudPacket_length (h : ScanHeader) (pairs : List (BitVec 10 × BitVec 14)) :
    (pointCloudPacket h pairs).samples.length = pairs.length := by
  simp [pointCloudPacket, attachAngles]

/-- A HeadingMarker whose checksum validated (R150, R154). -/
theorem headingMarkerPacket_ok {s : State} (ht : packetType s = 1)
    (hx : xor16 (s.hdr.toList.take 8) = hdrChecksum s) : PacketOk s (headingMarkerPacket (capturedHeader s)) :=
  ⟨attachAngles_inRange _ _ _ _, ht, by rw [headingMarkerPacket, attachAngles_marker]; rfl, rfl, hx⟩

/-- A PointCloud whose payload is written and whose checksum validated (R146, R154). -/
theorem pointCloudPacket_ok {s : State} {ss : List RawSample} (ht : packetType s = 0) (hn : 1 ≤ sampleCount s)
    (hss : ss.length = sampleCount s) (hw : writtenBytes s.pbuf (plen s) = some (payloadBytes ss))
    (hx : xor16 (s.hdr.toList.take 8 ++ payloadBytes ss) = hdrChecksum s) :
    PacketOk s (pointCloudPacket (capturedHeader s) (ss.map sampleDecode)) :=
  ⟨attachAngles_inRange _ _ _ _, ht, hn, by rw [pointCloudPacket_length, List.length_map, hss], rfl, rfl, _, hw, hx⟩

/-! ### What a completed frame writes -/

theorem execScanHm_outOk {s t : State} (hp : hdrPreamble s = Config.preamble) (ht : packetType s = 1)
    (h : exec (.scanHm (capturedHeader s)) s = .next t) : OutOk t := by
  have henc : encodeHeader 1 (capturedHeader s) = s.hdr.toList := by
    rw [← encodeHeader_captured hp, (packetType_eq_one s).mp ht]
  by_cases hx : xor16 (s.hdr.toList.take 8) = hdrChecksum s
  · cases (exec_scanHm_good s (henc.symm ▸ hx)).symm.trans h
    exact SameFrame.outOk_of_written (s := s) ⟨rfl, rfl⟩ rfl (headingMarkerPacket_ok ht hx)
  · cases (exec_scanHm_badChecksum s (henc.symm ▸ hx)).symm.trans h
    exact raiseErr_outOk trivial

theorem execScanPc_outOk {s t : State} {ss : List RawSample} (hp : hdrPreamble s = Config.preamble)
    (ht : packetType s = 0) (hn : 1 ≤ sampleCount s) (hss : ss.length = sampleCount s)
    (hw : writtenBytes s.pbuf (plen s) = some (payloadBytes ss))
    (h : exec (.scanPc (capturedHeader s) ss) s = .next t) : OutOk t := by
  have henc : encodeHeader 0 (capturedHeader s) = s.hdr.toList := by
    rw [← encodeHeader_captured hp, (packetType_eq_zero s).mp ht]
  have hc : (capturedHeader s).sampleCount ≠ 0 := fun h0 => Nat.one_le_iff_ne_zero.mp hn (congrArg BitVec.toNat h0)
  by_cases hx : xor16 (s.hdr.toList.take 8 ++ payloadBytes ss) = hdrChecksum s
  · cases (exec_scanPc_good s hc (henc.symm ▸ hx)).symm.trans h
    exact SameFrame.outOk_of_written (s := s) ⟨rfl, rfl⟩ rfl (pointCloudPacket_ok ht hn hss hw hx)
  · cases (exec_scanPc_badChecksum s hc (henc.symm ▸ hx)).symm.trans h
    exact raiseErr_outOk trivial

/-! ### PARSER's events, taken with OUT empty (R34) -/

/-- A complete header writes an error or a marker's packet, or begins the payload read with OUT empty (R145). -/
theorem headerComplete_outOk {s t : State} (hout : s.out = none) (h : headerComplete s = .next t) : OutOk t := by
  rcases headerComplete_cases s with ⟨_, he⟩ | ⟨hp, ht, he⟩ | ⟨_, _, _, he⟩ | ⟨_, _, _, he⟩ <;> have hn := he.symm.trans h
  · cases hn; exact raiseErr_outOk trivial
  · exact execScanHm_outOk hp ht hn
  · cases hn; exact raiseErr_outOk trivial
  · cases hn; exact outOk_of_none hout

theorem hdrCapture_outOk {b : Byte} {s t : State} (hi : Inv s) (hphase : s.phase = .header) (hout : s.out = none)
    (h : hdrCapture b s = .next t) : OutOk t := by
  obtain ⟨_, hhcnt⟩ := hi.header hphase
  rcases hdrCapture_cases b s hhcnt with ⟨_, _, he⟩ | ⟨_, he⟩
  · cases he.symm.trans h; exact outOk_of_none hout
  · refine headerComplete_outOk ?_ (he.symm.trans h)
    exact hout

/-- The last payload byte finds the whole payload written, as the packet's soundness asks (R148, R154). -/
theorem payCapture_outOk {b : Byte} {s t : State} (hi : Inv s) (hphase : s.phase = .payload) (hout : s.out = none)
    (h : payCapture b s = .next t) : OutOk t := by
  obtain ⟨_, hpre, htype, hcount, hlt⟩ := hi.payload hphase
  obtain ⟨p, hw, _⟩ := hi.payloadXacc hphase
  obtain ⟨_, _, ⟨_, he⟩ | ⟨hlast, ss, hss, hlen, he⟩⟩ := payCapture_cases b s hw hpre htype hlt
  · cases he.symm.trans h; exact outOk_of_none hout
  · have hwhole : writtenBytes (s.pbuf.write s.pcnt.toNat b) (plen s) = some (payloadBytes ss) := by
      rw [← hlast, hss]; exact writtenBytes_write b hw
    exact execScanPc_outOk (s := { s with
      pbuf := s.pbuf.write s.pcnt.toNat b, xacc := xaccUpdatePayload s.xacc s.pcnt.toNat b, pcnt := 0 }) hpre htype
      hcount hlen hwhole (he.symm.trans h)

/-- R272: a read that falls short has not had all its bytes. -/
theorem shortRead_outOk {s : State} (hi : Inv s) (hphase : s.phase ≠ .idle) : OutOk (shortRead s) := by
  cases hp : s.phase with
  | idle => exact absurd hp hphase
  | header =>
    obtain ⟨_, hhcnt⟩ := hi.header hp
    rw [shortRead_header hp]
    exact raiseErr_outOk ⟨Nat.lt_succ_of_le hhcnt, by decide⟩
  | payload =>
    obtain ⟨_, _, _, _, hlt⟩ := hi.payload hp
    rw [shortRead_payload hp]
    exact raiseErr_outOk ⟨hlt, plen_le_pbufLen s⟩

theorem parserEvent_outOk {e : SrcEvent} {s t : State} (hi : Inv s) (hphase : s.phase ≠ .idle) (hout : s.out = none)
    (h : parserEvent e s = .next t) : OutOk t := by
  cases e with
  | byte b =>
    rw [parserEvent] at h
    cases hp : s.phase with
    | idle => exact absurd hp hphase
    | header => exact hdrCapture_outOk hi hp hout ((byteArrives_header b hp).symm.trans h)
    | payload => exact payCapture_outOk hi hp hout ((byteArrives_payload b hp).symm.trans h)
  | timeout => cases h; exact shortRead_outOk hi hphase
  | ioFail => cases h; exact raiseErr_outOk trivial
  | closed => cases h; exact SameFrame.outOk_of_written (s := s) ⟨rfl, rfl⟩ rfl trivial

/-! ### The turns and the step -/

theorem sourceOffer_outOk {s t : State} (hi : Inv s) (ho : OutOk s) (h : sourceOffer s = .next t) : OutOk t := by
  rcases sourceOffer_cases s with ⟨he, _⟩ | ⟨e, r, hrx, hen, he⟩
  · cases he.symm.trans h; exact ho
  · obtain ⟨hout, hphase, _⟩ := (sourceEnabled_iff s).mp hen
    have hi' : Inv { s with rx := r } :=
      (SameBlock.env s r s.line s.sched s.host).sameRead.inv (Drained.tail hrx hi.drained) hi
    exact parserEvent_outOk hi' hphase hout (he.symm.trans h)

theorem acceptStart_outKept (s : State) : OutKept s (acceptStart s) := by
  unfold acceptStart; split <;> exact ⟨⟨rfl, rfl⟩, .inl rfl⟩

theorem controlStart_outKept (s : State) : OutKept s (controlStart s) := by
  rcases controlStart_cases s with ⟨_, _, he⟩ | ⟨_, he⟩ <;> rw [he]
  · exact (acceptStart_outKept (flushRx s)).of_env
  · exact acceptStart_outKept s

theorem acceptStopReq_outKept (s : State) : OutKept s (acceptStopReq s) := by
  unfold acceptStopReq; split <;> exact ⟨⟨rfl, rfl⟩, .inl rfl⟩

theorem arriveNext_outKept (s : State) : OutKept s (arriveNext s) := by
  unfold arriveNext; split <;> exact ⟨⟨rfl, rfl⟩, .inl rfl⟩

/-- SINK takes the item and leaves the frame (R35). -/
theorem takeItem_outKept (s : State) : OutKept s (takeItem s) := by
  cases ho : s.out with
  | none => rw [takeItem_none ho]; exact .refl s
  | some it => rw [takeItem_some ho]; exact ⟨⟨rfl, rfl⟩, .inr rfl⟩

theorem hostSend_outKept {s t : State} (h : hostSend s = .next t) : OutKept s t := by
  rcases hostSend_cases s with ⟨u, he, hb, _⟩ | ⟨_, _, he⟩ <;> cases he.symm.trans h
  exact hb.outKept

theorem hostSendFails_outKept {s t : State} (h : hostSendFails s = .next t) : OutKept s t := by
  rcases hostSendFails_cases s with ⟨u, he, hb, _⟩ | ⟨_, _, he⟩ <;> cases he.symm.trans h
  exact hb.outKept

theorem hostRead_outKept {s t : State} (h : hostRead s = .next t) : OutKept s t := by
  obtain ⟨u, he, hc⟩ := hostRead_cases s
  cases he.symm.trans h
  rcases hc with rfl | ⟨_, _, r, _, _, hb | ⟨_, c, rfl⟩⟩
  · exact .refl _
  · exact hb.outKept
  · exact OutKept.of_env (s := s) (acceptStart_outKept (finishCall .started { s with rx := r, host := c }))

/-- Of the turns SOURCE's alone can write an item (R34). -/
theorem runTurn_outOk {a : Turn} {s t : State} (hi : Inv s) (ho : OutOk s) (h : runTurn a s = .next t) : OutOk t := by
  cases a with
  | arrive => cases h; exact (arriveNext_outKept s).outOk ho
  | stopObeyed => cases h; exact OutKept.outOk (s := s) ⟨⟨rfl, rfl⟩, .inl rfl⟩ ho
  | source => exact sourceOffer_outOk hi ho h
  | start => cases h; exact (controlStart_outKept s).outOk ho
  | stopReq => cases h; exact (acceptStopReq_outKept s).outOk ho
  | take => cases h; exact (takeItem_outKept s).outOk ho
  | stopScan => cases h; exact (acceptStopReq_outKept (setCall .stopScan s)).of_env.outOk ho
  | hostSend => exact (hostSend_outKept h).outOk ho
  | hostSendFails => exact (hostSendFails_outKept h).outOk ho
  | hostRead => exact (hostRead_outKept h).outOk ho

/-- Settles O50: the stop step writes EndOfStream, and a turn runs in `s` without that turn. -/
theorem everyItemWrittenIsSound : Obligations.EveryItemWrittenIsSound := by
  intro s t hi ho h
  rcases step_cases s with ⟨_, he⟩ | ⟨_, _, he⟩ | ⟨_, a, ts, _, he⟩
  · cases he.symm.trans h; exact SameFrame.outOk_of_written (s := s) ⟨rfl, rfl⟩ rfl trivial
  · cases he.symm.trans h; exact ho
  · have henv := SameBlock.env s s.rx s.line ts s.host
    exact runTurn_outOk (henv.sameRead.inv hi.drained hi) (henv.outKept.outOk ho) (he.symm.trans h)

end Sys2Proof.Machine

/-! ## Idle and scanning (R156, R157, R248, R288): which steps leave Idle, which enter it, and the record of how it was
entered -/

namespace Sys2Proof.Machine

/-- Idle is neither left nor entered, and the record of how it was entered stays. -/
structure SameMode (s t : State) : Prop where
  phase : t.phase = .idle ↔ s.phase = .idle
  idleByClosed : t.idleByClosed = s.idleByClosed

/-- Idle is left for the frame boundary, as an accepted `Start` does (R248). -/
structure IdleLeft (s t : State) : Prop where
  idle : s.phase = .idle
  empty : s.out = none
  phase : t.phase = .header
  hcnt : t.hcnt = 0
  pcnt : t.pcnt = 0
  stopPending : t.stopPending = false
  idleByClosed : t.idleByClosed = s.idleByClosed

/-- Idle is entered with EndOfStream (R251, R278). -/
structure IdleEntered (s t : State) : Prop where
  scanning : s.phase ≠ .idle
  phase : t.phase = .idle
  out : t.out = some .endOfStream
  stopPending : t.stopPending = false

theorem SameMode.refl (s : State) : SameMode s s := ⟨.rfl, rfl⟩

theorem SameMode.of_phase_eq {s t : State} (hp : t.phase = s.phase) (hc : t.idleByClosed = s.idleByClosed) : SameMode s t :=
  ⟨by rw [hp], hc⟩

theorem SameBlock.sameMode {s t : State} (h : SameBlock s t) : SameMode s t := .of_phase_eq h.phase h.idleByClosed

section Environment

variable {s t : State} {r : List SrcEvent} {q : List Turn} {c : HostSide}

/-- Neither the received events, nor the turns to come, nor the host's side belong to the mode. -/
theorem SameMode.of_env (h : SameMode { s with rx := r, sched := q, host := c } t) : SameMode s t :=
  ⟨h.phase, h.idleByClosed⟩

theorem IdleLeft.of_env (h : IdleLeft { s with rx := r, sched := q, host := c } t) : IdleLeft s t :=
  ⟨h.idle, h.empty, h.phase, h.hcnt, h.pcnt, h.stopPending, h.idleByClosed⟩

theorem IdleEntered.of_env (h : IdleEntered { s with rx := r, sched := q, host := c } t) : IdleEntered s t :=
  ⟨h.scanning, h.phase, h.out, h.stopPending⟩

end Environment

/-! ### A captured byte and a completed frame keep the block scanning -/

/-- A scanning block goes on scanning. -/
structure ScansOn (s t : State) : Prop where
  phase : s.phase ≠ .idle → t.phase ≠ .idle
  idleByClosed : t.idleByClosed = s.idleByClosed

theorem ScansOn.sameMode {s t : State} (h : ScansOn s t) (hs : s.phase ≠ .idle) : SameMode s t :=
  ⟨iff_of_false (h.phase hs) hs, h.idleByClosed⟩

/-- What is captured does not belong to the mode. -/
theorem ScansOn.of_captured {s t : State} {v : Vector Byte 10} {m : Memory} {x : Word16} {k : BitVec 4} {j : BitVec 10}
    (h : ScansOn { s with hdr := v, pbuf := m, xacc := x, hcnt := k, pcnt := j } t) : ScansOn s t :=
  ⟨h.phase, h.idleByClosed⟩

/-- The block is in the header read afterwards. -/
theorem ScansOn.of_header {s t : State} (hp : t.phase = .header) (hc : t.idleByClosed = s.idleByClosed) : ScansOn s t :=
  ⟨fun _ => by simp [hp], hc⟩

/-- The position is as before. -/
theorem ScansOn.of_phase_eq {s t : State} (hp : t.phase = s.phase) (hc : t.idleByClosed = s.idleByClosed) : ScansOn s t :=
  ⟨fun hs => by rwa [hp], hc⟩

theorem raiseErr_scansOn (e : Err) (s : State) : ScansOn s (raiseErr e s) := .of_header rfl rfl

theorem execScanHm_scansOn {h : ScanHeader} {s t : State} (ht : exec (.scanHm h) s = .next t) : ScansOn s t := by
  cases (execScanHm_eq s h).symm.trans ht
  split
  · exact .of_phase_eq rfl rfl
  · exact raiseErr_scansOn _ s

theorem execScanPc_scansOn {h : ScanHeader} {ss : List RawSample} {s t : State} (ht : exec (.scanPc h ss) s = .next t) :
    ScansOn s t := by
  cases (execScanPc_eq s h ss).symm.trans ht
  split
  · exact raiseErr_scansOn _ s
  · split
    · exact .of_header rfl rfl
    · exact raiseErr_scansOn _ s

theorem runFrame_scansOn {s t : State} (h : runFrame s = .next t) : ScansOn s t := by
  unfold runFrame at h
  split at h
  · next hf =>
    obtain ⟨bs, rest, hd⟩ := fetchFrame_ok hf
    rcases decodeScan_ok hd with ⟨_, rfl, _⟩ | ⟨_, _, rfl, _⟩
    · exact execScanHm_scansOn h
    · exact execScanPc_scansOn h
  · cases h

theorem headerComplete_scansOn {s t : State} (h : headerComplete s = .next t) : ScansOn s t := by
  rcases headerComplete_cases s with ⟨_, he⟩ | ⟨_, _, he⟩ | ⟨_, _, _, he⟩ | ⟨_, _, _, he⟩ <;> have hn := he.symm.trans h
  · cases hn; exact raiseErr_scansOn _ s
  · exact execScanHm_scansOn hn
  · cases hn; exact raiseErr_scansOn _ s
  · cases hn; exact ⟨fun _ => nofun, rfl⟩

theorem hdrCapture_scansOn {b : Byte} {s t : State} (h : hdrCapture b s = .next t) : ScansOn s t := by
  by_cases hk : s.hcnt.toNat ≤ 9
  · rcases hdrCapture_cases b s hk with ⟨_, _, he⟩ | ⟨_, he⟩
    · cases he.symm.trans h; exact .of_phase_eq rfl rfl
    · exact (headerComplete_scansOn (he.symm.trans h)).of_captured
  · cases (hdrCapture_of_range b (Nat.lt_of_not_le hk)).symm.trans h

/-- A captured payload byte goes on with the read or completes the frame, from any state (R148). -/
theorem payCapture_next {b : Byte} {s t : State} (h : payCapture b s = .next t) : ∃ m,
    t = { s with pbuf := m, xacc := xaccUpdatePayload s.xacc s.pcnt.toNat b, pcnt := s.pcnt + 1 } ∨
    runFrame { s with pbuf := m, xacc := xaccUpdatePayload s.xacc s.pcnt.toNat b, pcnt := 0 } = .next t := by
  unfold payCapture at h
  split at h
  · cases h
  · next m _ =>
    dsimp only at h
    split at h
    · exact ⟨m, .inl (by cases h; rfl)⟩
    · exact ⟨m, .inr h⟩

theorem payCapture_scansOn {b : Byte} {s t : State} (h : payCapture b s = .next t) : ScansOn s t := by
  obtain ⟨m, rfl | hrun⟩ := payCapture_next h
  · exact .of_phase_eq rfl rfl
  · exact (runFrame_scansOn hrun).of_captured

/-! ### A turn of SOURCE (R34) -/

/-- Of PARSER's events `Closed` alone enters Idle (R278). -/
theorem parserEvent_mode {e : SrcEvent} {s t : State} (hs : s.phase ≠ .idle) (h : parserEvent e s = .next t) :
    SameMode s t ∨ (e = .closed ∧ IdleEntered s t ∧ t.idleByClosed = true) := by
  cases e with
  | byte b =>
    rw [parserEvent] at h
    cases hp : s.phase with
    | idle => exact absurd hp hs
    | header => exact .inl ((hdrCapture_scansOn ((byteArrives_header b hp).symm.trans h)).sameMode hs)
    | payload => exact .inl ((payCapture_scansOn ((byteArrives_payload b hp).symm.trans h)).sameMode hs)
  | timeout => cases h; exact .inl ((raiseErr_scansOn _ s).sameMode hs)
  | ioFail => cases h; exact .inl ((raiseErr_scansOn _ s).sameMode hs)
  | closed => cases h; exact .inr ⟨rfl, ⟨hs, rfl, rfl, rfl⟩, rfl⟩

theorem sourceOffer_mode {s t : State} (h : sourceOffer s = .next t) :
    SameMode s t ∨ (IdleEntered s t ∧ (∃ r, s.rx = .closed :: r) ∧ t.idleByClosed = true) := by
  rcases sourceOffer_cases s with ⟨he, _⟩ | ⟨e, r, hrx, hen, he⟩
  · cases he.symm.trans h; exact .inl (.refl _)
  · obtain ⟨_, hphase, _⟩ := (sourceEnabled_iff s).mp hen
    rcases parserEvent_mode (s := { s with rx := r }) hphase (he.symm.trans h) with hm | ⟨rfl, hin, hc⟩
    · exact .inl hm.of_env
    · exact .inr ⟨hin.of_env, ⟨r, hrx⟩, hc⟩

/-! ### `Start` (R248) -/

theorem acceptStart_mode (s : State) : SameMode s (acceptStart s) ∨ IdleLeft s (acceptStart s) := by
  rcases acceptStart_cases s with ⟨hp, ho, he⟩ | ⟨_, he⟩ <;> rw [he]
  · exact .inr ⟨hp, ho, rfl, rfl, rfl, rfl, rfl⟩
  · exact .inl (.refl s)

theorem acceptStart_host (s : State) : (acceptStart s).host = s.host := by
  unfold acceptStart; split <;> rfl

theorem controlStart_mode (s : State) : SameMode s (controlStart s) ∨ IdleLeft s (controlStart s) := by
  rcases controlStart_cases s with ⟨_, _, he⟩ | ⟨_, he⟩ <;> rw [he]
  · exact (acceptStart_mode (flushRx s)).imp .of_env .of_env
  · exact acceptStart_mode s

/-! ### The host's read: `Start` is given where a start is in progress (R245) -/

section NoStart

variable {s t : State} (hc : s.host.call ≠ some .startScan)
include hc

theorem execResponse_sameBlock_of_noStart {i : Instr} {f : RspFields}
    (hi : i = .rspScanack f ∨ i = .rspDevinfo f ∨ i = .rspHealth f)
    (h : exec i s = .next t) : SameBlock s t := by
  rcases hi with rfl | rfl | rfl
  · cases (show exec (.rspScanack f) s = _ from if_neg hc).symm.trans h
    exact finishCall_sameBlock _ _
  · cases h; exact otherResponse_sameBlock _ _
  · cases h; exact otherResponse_sameBlock _ _

theorem responseComplete_sameBlock_of_noStart {bytes : List Byte} (h : responseComplete bytes s = .next t) :
    SameBlock s t := by
  unfold responseComplete at h
  split at h
  · next i rest hd =>
    obtain ⟨⟨f, hi⟩, _⟩ := decodeResponse_ok hd
    exact execResponse_sameBlock_of_noStart hc hi h
  · split at h <;> cases h
    · exact otherResponse_sameBlock _ _
    · exact responseFailed_sameBlock _

theorem hostByte_sameBlock_of_noStart {b : Byte} (h : hostByte b s = .next t) : SameBlock s t := by
  unfold hostByte at h
  split at h
  · cases h; exact .refl s
  · split at h
    · cases h; exact payloadByte_sameBlock _ _ _
    · split at h
      · cases h; exact .refl s
      · split at h
        · cases h; exact .env s s.rx s.line s.sched _
        · exact .trans (.env s s.rx s.line s.sched _)
            (responseComplete_sameBlock_of_noStart (s := { s with host := { s.host with rspBuf := [] } }) hc h)

theorem hostRead_sameBlock_of_noStart (h : hostRead s = .next t) : SameBlock s t := by
  unfold hostRead at h
  split at h
  · split at h
    · cases h; exact .refl s
    · next b r _ =>
      exact .trans (.env s r s.line s.sched s.host) (hostByte_sameBlock_of_noStart (s := { s with rx := r }) hc h)
    all_goals
      next r _ =>
      cases h; exact .trans (.env s r s.line s.sched s.host) (responseFailed_sameBlock _)
  · cases h; exact .refl s

end NoStart

/-- A start was in progress and has succeeded (R245). -/
def StartNegotiated (s t : State) : Prop :=
  s.host.call = some .startScan ∧ t.host.call = none ∧ t.host.result = some .started

theorem hostRead_mode {s t : State} (h : hostRead s = .next t) :
    SameMode s t ∨ (IdleLeft s t ∧ StartNegotiated s t) := by
  by_cases hc : s.host.call = some .startScan
  · obtain ⟨u, he, hu⟩ := hostRead_cases s
    cases he.symm.trans h
    rcases hu with rfl | ⟨_, _, r, _, _, hb | ⟨_, c, rfl⟩⟩
    · exact .inl (.refl _)
    · exact .inl hb.sameMode
    · have hhost := acceptStart_host (finishCall .started { s with rx := r, host := c })
      have hm := acceptStart_mode (finishCall .started { s with rx := r, host := c })
      exact hm.imp (.of_env (s := s)) fun hl => ⟨.of_env (s := s) hl, hc, by rw [hhost]; rfl, by rw [hhost]; rfl⟩
  · exact .inl (hostRead_sameBlock_of_noStart hc h).sameMode

/-! ### The other turns -/

theorem acceptStopReq_sameMode (s : State) : SameMode s (acceptStopReq s) := by
  unfold acceptStopReq; split <;> exact ⟨.rfl, rfl⟩

theorem callStopScan_sameMode (s : State) : SameMode s (callStopScan s) :=
  (acceptStopReq_sameMode (setCall .stopScan s)).of_env

theorem arriveNext_sameMode (s : State) : SameMode s (arriveNext s) := by
  unfold arriveNext; split <;> exact ⟨.rfl, rfl⟩

theorem takeItem_sameMode (s : State) : SameMode s (takeItem s) := by
  unfold takeItem; split <;> exact ⟨.rfl, rfl⟩

theorem hostSend_sameMode {s t : State} (h : hostSend s = .next t) : SameMode s t := by
  rcases hostSend_cases s with ⟨u, he, hb, _⟩ | ⟨_, _, he⟩ <;> cases he.symm.trans h
  exact hb.sameMode

theorem hostSendFails_sameMode {s t : State} (h : hostSendFails s = .next t) : SameMode s t := by
  rcases hostSendFails_cases s with ⟨u, he, hb, _⟩ | ⟨_, _, he⟩ <;> cases he.symm.trans h
  exact hb.sameMode

/-! ### The step -/

/-- Whose turn gives `Start`: CONTROL's, or the host's at the end of a good negotiation (R248, log entry 14). -/
def StartCause (s t : State) : Prop :=
  (∃ ts, s.sched = .start :: ts) ∨ (∃ ts, s.sched = .hostRead :: ts ∧ StartNegotiated s t)

/-- What ends a scan, and the record it leaves: the stop step, or `Closed` (R251, R278). -/
def EndCause (s t : State) : Prop :=
  (stopEnabled s = true ∧ t.idleByClosed = false) ∨ ((∃ r, s.rx = .closed :: r) ∧ t.idleByClosed = true)

/-- What a step can do to the mode. -/
def ModeStep (s t : State) : Prop := SameMode s t ∨ (IdleLeft s t ∧ StartCause s t) ∨ (IdleEntered s t ∧ EndCause s t)

/-- A turn runs in `s` without that turn. -/
theorem runTurn_mode {s t : State} {a : Turn} {ts : List Turn} (hs : s.sched = a :: ts)
    (h : runTurn a { s with sched := ts } = .next t) : ModeStep s t := by
  cases a with
  | arrive => cases h; exact .inl (arriveNext_sameMode _).of_env
  | stopObeyed => cases h; exact .inl ⟨.rfl, rfl⟩
  | source => exact (sourceOffer_mode h).imp .of_env fun ⟨hin, hc⟩ => .inr ⟨hin.of_env, .inr hc⟩
  | start => cases h; exact (controlStart_mode _).imp .of_env fun hl => .inl ⟨hl.of_env, .inl ⟨ts, hs⟩⟩
  | stopReq => cases h; exact .inl (acceptStopReq_sameMode _).of_env
  | take => cases h; exact .inl (takeItem_sameMode _).of_env
  | stopScan => cases h; exact .inl (callStopScan_sameMode _).of_env
  | hostSend => exact .inl (hostSend_sameMode h).of_env
  | hostSendFails => exact .inl (hostSendFails_sameMode h).of_env
  | hostRead => exact (hostRead_mode h).imp .of_env fun ⟨hl, hn⟩ => .inl ⟨hl.of_env, .inr ⟨ts, hs, hn⟩⟩

theorem step_mode {s t : State} (h : step s = .next t) : ModeStep s t := by
  rcases step_cases s with ⟨hst, he⟩ | ⟨_, _, he⟩ | ⟨_, a, ts, hs, he⟩
  · obtain ⟨_, hphase, _⟩ := (stopEnabled_iff s).mp hst
    cases he.symm.trans h
    exact .inr (.inr ⟨⟨by simp [hphase], rfl, rfl, rfl⟩, .inl ⟨hst, rfl⟩⟩)
  · cases he.symm.trans h; exact .inl (.refl _)
  · exact runTurn_mode hs (he.symm.trans h)

/-- Settles O54: each of the three outcomes of `step_mode` excludes the premises that the other two meet. -/
theorem modesAreLeftAndEnteredOnlyAsListed : Obligations.ModesAreLeftAndEnteredOnlyAsListed := by
  intro s t h
  rcases step_mode h with ⟨hphase, hrec⟩ | ⟨hl, hcause⟩ | ⟨hin, hcause⟩
  · exact ⟨fun hp hn => absurd (hphase.mpr hp) hn, fun hn hp => absurd (hphase.mp hp) hn, fun _ => hrec⟩
  · exact ⟨fun _ _ => ⟨hl.empty, hl.phase, hl.hcnt, hl.pcnt, hl.stopPending, hcause⟩, fun hn => absurd hl.idle hn,
      fun _ => hl.idleByClosed⟩
  · exact ⟨fun hp => absurd hp hin.scanning, fun _ _ => ⟨hin.out, hin.stopPending, hcause⟩,
      fun hkept => hkept.elim (absurd · hin.scanning) (absurd hin.phase)⟩

end Sys2Proof.Machine

/-! ## The checksum (R171 to R178): xor16 lane by lane, what changed bytes do to it, and XACC as its running form -/

namespace Sys2Proof.Machine

/-! ### Lanes as little-endian words (R172) -/

theorem lane_even (b : Byte) : lane false b = le16 b 0 := by
  apply BitVec.eq_of_toNat_eq
  rw [le16_toNat]
  simp [lane]
  omega

theorem lane_odd (b : Byte) : lane true b = le16 0 b := by
  apply BitVec.eq_of_toNat_eq
  rw [le16_toNat]
  simp [lane, Nat.shiftLeft_eq]
  omega

theorem loByte_lane (odd : Bool) (b : Byte) : loByte (lane odd b) = if odd then 0 else b := by
  cases odd
  · rw [lane_even, loByte_le16]; rfl
  · rw [lane_odd, loByte_le16]; rfl

theorem hiByte_lane (odd : Bool) (b : Byte) : hiByte (lane odd b) = if odd then b else 0 := by
  cases odd
  · rw [lane_even, hiByte_le16]; rfl
  · rw [lane_odd, hiByte_le16]; rfl

theorem loByte_xor (v w : Word16) : loByte (v ^^^ w) = loByte v ^^^ loByte w := BitVec.extractLsb'_xor ..
theorem hiByte_xor (v w : Word16) : hiByte (v ^^^ w) = hiByte v ^^^ hiByte w := BitVec.extractLsb'_xor ..

theorem le16_xor (a b c d : Byte) : le16 a b ^^^ le16 c d = le16 (a ^^^ c) (b ^^^ d) := BitVec.xor_append

theorem lane_xor (odd : Bool) (a b : Byte) : lane odd (a ^^^ b) = lane odd a ^^^ lane odd b := by
  cases odd
  · simp [lane_even, le16_xor]
  · simp [lane_odd, le16_xor]

@[simp] theorem lane_zero (odd : Bool) : lane odd 0 = 0 := by
  cases odd <;> rfl

/-- An even byte and the odd one after it fill the two lanes of one word (R172). -/
theorem lane_even_xor_lane_odd (lo hi : Byte) : lane false lo ^^^ lane true hi = le16 lo hi := by
  simp [lane_even, lane_odd, le16_xor]

/-- A pair of bytes at the front is one word of the exclusive-or (R172). -/
theorem xor16_cons_cons (lo hi : Byte) (c : List Byte) : xor16 (lo :: hi :: c) = le16 lo hi ^^^ xor16 c := by
  rw [← lane_even_xor_lane_odd, BitVec.xor_assoc]; rfl

/-- One lane of `xor16`: a byte `f` of the word that keeps exclusive-ors, takes up the bytes at the positions of parity `r`
and none of the others. -/
theorem xor16_lane {f : Word16 → Byte} {r : Nat} (hxor : ∀ v w, f (v ^^^ w) = f v ^^^ f w)
    (hlane : ∀ n b, f (lane (n % 2 == 1) b) = if n % 2 == r then b else 0) (c : List Byte) :
    f (xor16 c) = (c.zipIdx.filter (fun x => x.2 % 2 == r)).foldl (fun a x => a ^^^ x.1) 0 := by
  induction c using List.reverseRecOn with
  | nil => exact (hxor 0 0).trans BitVec.xor_self
  | append_singleton c b ih =>
    rw [xor16_snoc, hxor, hlane, ih, List.zipIdx_append, List.filter_append, List.foldl_append]
    by_cases hr : c.length % 2 == r <;> simp [hr]

/-! ### A changed byte (R178) -/

/-- A changed byte changes `xor16` by the changed bits, in the lane of its position. -/
theorem xorFrom_set (odd : Bool) (l : List Byte) (k : Nat) (b : Byte) (hk : k < l.length) :
    xorFrom odd (l.set k b) = xorFrom odd l ^^^ lane (odd ^^ (k % 2 == 1)) (l[k] ^^^ b) := by
  induction l generalizing odd k with
  | nil => cases hk
  | cons a l ih =>
    cases k with
    | zero =>
      have hb : lane odd b = lane odd a ^^^ lane odd (a ^^^ b) := by
        rw [← lane_xor, ← BitVec.xor_assoc, BitVec.xor_self, BitVec.zero_xor]
      rw [List.set_cons_zero, xorFrom_cons, xorFrom_cons, hb, BitVec.xor_assoc, BitVec.xor_assoc,
        BitVec.xor_comm (lane odd (a ^^^ b)), List.getElem_cons_zero]
      simp
    | succ k =>
      rw [List.set_cons_succ, xorFrom_cons, ih _ _ (Nat.lt_of_succ_lt_succ hk), parity_succ, xorFrom_cons, BitVec.xor_assoc,
        List.getElem_cons_succ]

theorem xor16_set (l : List Byte) (k : Nat) (b : Byte) (hk : k < l.length) :
    xor16 (l.set k b) = xor16 l ^^^ lane (k % 2 == 1) (l[k] ^^^ b) := by
  rw [xor16, xorFrom_set false l k b hk, Bool.false_xor, ← xor16]

/-- The same bits changed at two positions of equal parity cancel (R178 (c)). -/
theorem xor16_set_set {l : List Byte} {i j : Nat} {a b : Byte} (hi : i < l.length) (hj : j < l.length) (hij : i ≠ j)
    (hpar : i % 2 = j % 2) (hbits : l[i] ^^^ a = l[j] ^^^ b) : xor16 ((l.set i a).set j b) = xor16 l := by
  rw [xor16_set _ j b (by rwa [List.length_set]), List.getElem_set_ne hij, xor16_set l i a hi, hpar, hbits, BitVec.xor_assoc,
    BitVec.xor_self, BitVec.xor_zero]

/-! ### The running form (R174, R175) -/

/-- Header bytes 1 to 7, whatever XACC holds (R174). -/
theorem xaccUpdateHeader_accumulates (x : Word16) {k : Nat} (b : Byte) (h0 : 0 < k) (h8 : k < 8) :
    xaccUpdateHeader x k b = x ^^^ lane (k % 2 == 1) b := by
  rw [xaccUpdateHeader, if_neg (by omega), if_neg (by omega)]

/-- The header bytes leave `xor16` of the first eight of them, whatever XACC held before. -/
theorem foldl_xaccUpdateHeader (x : Word16) (h : List Byte) (hne : h ≠ []) :
    h.zipIdx.foldl (fun a c => xaccUpdateHeader a c.2 c.1) x = xor16 (h.take 8) := by
  induction h using List.reverseRecOn with
  | nil => exact absurd rfl hne
  | append_singleton h b ih =>
    rw [List.zipIdx_append, List.foldl_append]
    simp only [List.zipIdx_singleton, Nat.zero_add, List.foldl_cons, List.foldl_nil]
    by_cases hnil : h = []
    · subst hnil; exact xaccUpdateHeader_zero _ b
    · rw [ih hnil]
      by_cases h8 : h.length < 8
      · have hpos := List.length_pos_of_ne_nil hnil
        rw [List.take_of_length_le (by omega), List.take_of_length_le (by simp; omega)]
        exact xaccUpdateHeader_mid h b hpos h8
      · rw [xaccUpdateHeader_checksum _ b (by omega), List.take_append_of_le_length (by omega)]

/-- The payload bytes are added behind an even number of covered bytes. -/
theorem foldl_xaccUpdatePayload (c p : List Byte) (hc : c.length % 2 = 0) :
    p.zipIdx.foldl (fun a x => xaccUpdatePayload a x.2 x.1) (xor16 c) = xor16 (c ++ p) := by
  induction p using List.reverseRecOn with
  | nil => simp
  | append_singleton p b ih =>
    rw [List.zipIdx_append, List.foldl_append, ih]
    simpa using xaccUpdatePayload_snoc c p b hc

/-- A frame that is its header alone: the checksum field is all that is cut out (R171). -/
theorem covered_header {h : List Byte} (hl : h.length = 10) : covered h = h.take 8 := by
  simpa using covered_append (p := []) hl

/-! ### The statements -/

/-- Settles O9: which lane a position belongs to is its parity. -/
theorem xaccUpdateByPosition : Obligations.XaccUpdateByPosition := by
  intro x k j b
  refine ⟨?_, xaccUpdateHeader_checksum x b, fun h0 h8 hk => ?_, fun h0 h8 hk => ?_, fun hj => ?_, fun hj => ?_⟩
  · rw [xaccUpdateHeader_zero, xor16, xorFrom_cons, xorFrom_nil]; exact BitVec.xor_zero
  · rw [xaccUpdateHeader_accumulates x b h0 h8, hk]; rfl
  · rw [xaccUpdateHeader_accumulates x b h0 h8, hk]; rfl
  · rw [xaccUpdatePayload, hj]; rfl
  · rw [xaccUpdatePayload, hj]; rfl

/-- Settles O10: the eight covered header bytes are even in number, so that a payload byte's lane is that of its position. -/
theorem runningXorEndsAtXor16 : Obligations.RunningXorEndsAtXor16 := by
  intro x h p hl
  rw [foldl_xaccUpdateHeader x h (List.ne_nil_of_length_pos (by omega)), foldl_xaccUpdatePayload _ p (by simp [hl]),
    covered_append hl]

/-- Settles O11: each byte of the word is one lane, and a pair of bytes is one word. -/
theorem xor16IsTheXorOfTheLanes : Obligations.Xor16IsTheXorOfTheLanes := by
  refine ⟨rfl, fun c => ⟨xor16_lane loByte_xor ?_ c, xor16_lane hiByte_xor (fun _ => hiByte_lane _) c⟩, xor16_cons_cons,
    fun b c hc => ?_⟩
  · intro n b
    rw [loByte_lane]
    rcases Nat.mod_two_eq_zero_or_one n with hn | hn <;> simp [hn]
  · rw [xor16_snoc, hc, ← lane_even]; rfl

/-- Settles O12: a lane shows every bit of its byte, so that `xor16` changes by a word other than 0. -/
theorem changedCoveredByteIsDetected : Obligations.ChangedCoveredByteIsDetected := by
  refine ⟨fun l k b hk hb heq => hb ?_, fun f cs cs' hgood hne => ?_⟩
  · have hlane : lane (k % 2 == 1) (l[k] ^^^ b) = 0 := xor_left_eq_self_iff.mp ((xor16_set l k b hk).symm.trans heq)
    have hbits : l[k] ^^^ b = 0 := lane_injective _ (hlane.trans (lane_zero _).symm)
    exact (BitVec.xor_eq_zero_iff.mp hbits).symm
  · rw [checksumGood, beq_iff_eq] at hgood
    rw [checksumGood, hgood, beq_eq_false_iff_ne]
    exact hne.symm

/-- Settles O13: an exchange changes the bits in which the two bytes differ, in both. -/
theorem equalParityChangesAreNotDetected : Obligations.EqualParityChangesAreNotDetected := by
  intro l i j d hi hj hij hpar
  refine ⟨xor16_set_set hi hj hij hpar (BitVec.xor_comm ..), xor16_set_set hi hj hij hpar ?_⟩
  rw [← BitVec.xor_assoc, ← BitVec.xor_assoc, BitVec.xor_self, BitVec.xor_self]

/-- Settles O14: behind an even number of bytes the field's two bytes are the word of the checksum itself. -/
theorem appendedChecksumSumsToZero : Obligations.AppendedChecksumSumsToZero := by
  intro c cs hc
  have hfield : xor16 [loByte cs, hiByte cs] = cs := by
    rw [xor16_cons_cons, le16_loByte_hiByte]; exact BitVec.xor_zero
  have happ : xor16 (c ++ [loByte cs, hiByte cs]) = xor16 c ^^^ cs := by
    rw [xor16_append, hc]
    exact congrArg (xor16 c ^^^ ·) hfield
  rw [happ]
  exact BitVec.xor_eq_zero_iff

/-- Settles O51: R33 has XACC over the bytes captured so far, and each update adds its byte to them. -/
theorem xaccAtCompletionIsXor16 : Obligations.XaccAtCompletionIsXor16 := by
  intro s b hi
  refine ⟨fun hphase h9 => ?_, fun hphase p hw => ?_⟩
  · have hx : s.xacc = xor16 (s.hdr.toList.take 8) := by
      have := hi.headerXacc hphase (by rw [h9]; decide)
      rwa [h9] at this
    have hcov : covered (s.hdr.set 9 b).toList = s.hdr.toList.take 8 := by
      rw [covered_header (by simp), Vector.toList_set, List.take_set_of_le (by decide)]
    rw [xaccUpdateHeader_checksum _ b (by decide), hx, hcov]
  · obtain ⟨q, hq, hx⟩ := hi.payloadXacc hphase
    obtain rfl : q = p := Option.some.inj (hq.symm.trans hw)
    rw [covered_append (by simp), hx, ← writtenBytes_length hw]
    exact xaccUpdatePayload_snoc _ q b (by rw [length_take_hdr _ (by decide)])

end Sys2Proof.Machine

/-! ## The sample decoder (R186 to R193): its two fields as slices of the sample's bytes, and the inverse map -/

namespace Sys2Proof.Machine

/-! ### Slices and concatenations as integers -/

/-- The low part fills what the shift leaves free, so no carry occurs (R187). -/
theorem toNat_append_eq_add {n m : Nat} (x : BitVec n) (y : BitVec m) : (x ++ y).toNat = x.toNat <<< m + y.toNat := by
  rw [BitVec.toNat_append, Nat.shiftLeft_add_eq_or_of_lt y.isLt]

theorem toNat_extract_low {n : Nat} (m : Nat) (x : BitVec n) : (x.extractLsb' 0 m).toNat = x.toNat % 2 ^ m := by
  rw [BitVec.extractLsb'_toNat, Nat.shiftRight_zero]

/-- A slice that reaches the top needs no mask. -/
theorem toNat_extract_high {n m : Nat} (x : BitVec (n + m)) : (x.extractLsb' m n).toNat = x.toNat >>> m := by
  rw [BitVec.extractLsb'_toNat, Nat.shiftRight_eq_div_pow]
  exact Nat.mod_eq_of_lt (Nat.div_lt_of_lt_mul (by rw [← pow_add, Nat.add_comm m n]; exact x.isLt))

/-! ### The two fields as slices (R186, R187) -/

/-- R186 in bit terms. -/
theorem sampleDecode_intensity_eq_append (r : RawSample) : (sampleDecode r).1 = r.b1.extractLsb' 0 2 ++ r.b0 := by
  apply BitVec.eq_of_toNat_eq
  rw [sampleDecode_intensity, toNat_append_eq_add, toNat_extract_low, Nat.shiftLeft_eq, Nat.add_comm,
    ← Nat.and_two_pow_sub_one_eq_mod]

/-- R187 in bit terms. -/
theorem sampleDecode_distance_eq_append (r : RawSample) : (sampleDecode r).2 = r.b2 ++ r.b1.extractLsb' 2 6 := by
  apply BitVec.eq_of_toNat_eq
  rw [sampleDecode_distance, toNat_append_eq_add, toNat_extract_high (n := 6) (m := 2)]

/-! ### The sample's 24-bit little-endian word (R54) -/

section Word24

variable (b0 b1 b2 : Byte)

/-- The low ten bits lie across the lower byte boundary. -/
theorem word24_extract_low10 : (b2 ++ b1 ++ b0).extractLsb' 0 10 = b1.extractLsb' 0 2 ++ b0 := by
  have hb1 : (b2 ++ b1 ++ b0).extractLsb' 8 2 = b1.extractLsb' 0 2 := by
    rw [BitVec.extractLsb'_append_eq_of_le (by decide), BitVec.extractLsb'_append_eq_of_add_le (by decide)]
  calc (b2 ++ b1 ++ b0).extractLsb' 0 10
      = (b2 ++ b1 ++ b0).extractLsb' 8 2 ++ (b2 ++ b1 ++ b0).extractLsb' 0 8 :=
        (BitVec.extractLsb'_append_extractLsb'_eq_extractLsb' (len₁ := 8) (len₂ := 2) rfl).symm
    _ = b1.extractLsb' 0 2 ++ b0 := by rw [hb1, extract_low]

/-- The high fourteen bits lie across the upper byte boundary. -/
theorem word24_extract_high14 : (b2 ++ b1 ++ b0).extractLsb' 10 14 = b2 ++ b1.extractLsb' 2 6 := by
  have hb1 : (b2 ++ b1 ++ b0).extractLsb' 10 6 = b1.extractLsb' 2 6 := by
    rw [BitVec.extractLsb'_append_eq_of_le (by decide), BitVec.extractLsb'_append_eq_of_add_le (by decide)]
  have hb2 : (b2 ++ b1 ++ b0).extractLsb' 16 8 = b2 := by
    rw [BitVec.extractLsb'_append_eq_of_le (by decide)]; exact extract_high b2 b1
  calc (b2 ++ b1 ++ b0).extractLsb' 10 14
      = (b2 ++ b1 ++ b0).extractLsb' 16 8 ++ (b2 ++ b1 ++ b0).extractLsb' 10 6 :=
        (BitVec.extractLsb'_append_extractLsb'_eq_extractLsb' (len₁ := 6) (len₂ := 8) rfl).symm
    _ = b2 ++ b1.extractLsb' 2 6 := by rw [hb1, hb2]

end Word24

/-- Settles O7: the bit terms of R186 and R187 are the slices of the sample's word, and in them no carry occurs. -/
theorem sampleFieldsByFormulasAndBits : Obligations.SampleFieldsByFormulasAndBits := by
  intro r
  have hq := sampleDecode_intensity_eq_append r
  have hd := sampleDecode_distance_eq_append r
  have hor : (sampleDecode r).2.toNat = (r.b2.toNat <<< 6) ||| (r.b1.toNat >>> 2) := by
    rw [hd, BitVec.toNat_append, toNat_extract_high (n := 6) (m := 2)]
  have hword : sampleDecode r =
      ((r.b2 ++ r.b1 ++ r.b0).extractLsb' 0 10, (r.b2 ++ r.b1 ++ r.b0).extractLsb' 10 14) := by
    rw [word24_extract_low10, word24_extract_high14, ← hq, ← hd]
  exact ⟨sampleDecode_intensity r, hq, sampleDecode_distance r, hor, hd, hword⟩

/-! ### The inverse map (R191, R193) -/

theorem ofNat_eq_of_toNat_eq {w n : Nat} {x : BitVec w} (h : x.toNat = n) : BitVec.ofNat w n = x := by
  rw [← h, BitVec.ofNat_toNat, BitVec.setWidth_eq]

/-- R193 in bit terms: the first and the last byte hold eight bits of one field each, the middle one the two rests. -/
theorem sampleEncode_eq_slices (q : BitVec 10) (d : BitVec 14) :
    sampleEncode q d = ⟨q.extractLsb' 0 8, d.extractLsb' 0 6 ++ q.extractLsb' 8 2, d.extractLsb' 6 8⟩ := by
  have h1 : (d.extractLsb' 0 6 ++ q.extractLsb' 8 2).toNat = (d.toNat % 2 ^ 6) <<< 2 + q.toNat / 2 ^ 8 := by
    rw [toNat_append_eq_add, toNat_extract_low, toNat_extract_high (n := 2) (m := 8), Nat.shiftRight_eq_div_pow]
  rw [sampleEncode, RawSample.mk.injEq]
  exact ⟨ofNat_eq_of_toNat_eq (toNat_extract_low 8 q), ofNat_eq_of_toNat_eq h1,
    ofNat_eq_of_toNat_eq (toNat_extract_high (n := 8) (m := 6) d)⟩

/-- Each field is put together again from its two slices. -/
theorem sampleDecode_sampleEncode (q : BitVec 10) (d : BitVec 14) : sampleDecode (sampleEncode q d) = (q, d) := by
  have hq : (sampleDecode (sampleEncode q d)).1 = q := by
    rw [sampleDecode_intensity_eq_append, sampleEncode_eq_slices, extract_low]
    exact append_extract (n := 2) (m := 8) q
  have hd : (sampleDecode (sampleEncode q d)).2 = d := by
    rw [sampleDecode_distance_eq_append, sampleEncode_eq_slices, extract_high]
    exact append_extract (n := 8) (m := 6) d
  exact Prod.ext hq hd

/-- Each byte is put together again, the middle one from its slices in the two fields. -/
theorem sampleEncode_sampleDecode (r : RawSample) : sampleEncode (sampleDecode r).1 (sampleDecode r).2 = r := by
  have hb1 : r.b1.extractLsb' 2 6 ++ r.b1.extractLsb' 0 2 = r.b1 := append_extract (n := 6) (m := 2) r.b1
  rw [sampleEncode_eq_slices, sampleDecode_intensity_eq_append, sampleDecode_distance_eq_append]
  simp only [extract_low, extract_high, hb1]

/-- Settles O8: R193's masks, shifts and or are the slices read as integers. -/
theorem sampleMapHasTheStatedInverse : Obligations.SampleMapHasTheStatedInverse := by
  intro q d r
  refine ⟨?b0, ?b1, ?b2, sampleDecode_sampleEncode q d, sampleEncode_sampleDecode r⟩
  case b0 => rw [sampleEncode_eq_slices, toNat_extract_low, ← Nat.and_two_pow_sub_one_eq_mod]
  case b1 =>
    rw [sampleEncode_eq_slices, BitVec.toNat_append, toNat_extract_low, toNat_extract_high (n := 2) (m := 8),
      ← Nat.and_two_pow_sub_one_eq_mod]
  case b2 => rw [sampleEncode_eq_slices, toNat_extract_high (n := 8) (m := 6)]

end Sys2Proof.Machine

/-! ## The angle calculator (R201 to R209): the emitted angles, their ends, and the exact correction function -/

namespace Sys2Proof.Machine

/-! ### The emitted angles (R206, R207) -/

/-- Settles O15: expression and formula agree operation by operation. -/
theorem emittedAnglesAreTheFormulas : Obligations.EmittedAnglesAreTheFormulas :=
  fun _ hok s e d => map_eval_angles hok s e d

/-- Settles O16: normalising is the last operation of every emitted angle. -/
theorem emittedAnglesAreNormalised : Obligations.EmittedAnglesAreNormalised :=
  fun s e d => ⟨angles_length s e d, angles_inRange s e d⟩

/-! ### The ends of the interpolation (R204, R208) -/

/-- Normalising takes off whole turns (R14). -/
theorem exists_rmod360_eq_sub (x : ℝ) : ∃ k : ℤ, rmod360 x = x - 360 * k := ⟨⌊x / 360⌋, rmod360_eq x⟩

/-- The last of the samples i, i+1, … is interpolated with the index of the last distance. -/
theorem interpolateReal_getLast? (corr : Corr) (fsa span : ℝ) (n i : Nat) (d : BitVec 14) (ds : List (BitVec 14)) :
    (interpolateReal corr fsa span n i (d :: ds)).getLast? =
      some (rmod360 (fsa + span / n * ((i + ds.length : Nat) : ℝ) + corr ((d :: ds).getLast (List.cons_ne_nil d ds)))) := by
  induction ds generalizing i d with
  | nil => rfl
  | cons d' ds ih =>
    have hidx : i + (d' :: ds).length = i + 1 + ds.length := by rw [List.length_cons]; omega
    rw [hidx, List.getLast_cons_cons, ← ih (i + 1) d']
    rfl

/-- Sample 0 takes nothing of the span, and its own correction on top of FSA's (R203, R204). -/
theorem anglesReal_head? (corr : Corr) (s e : ℝ) (d d' : BitVec 14) (ds : List (BitVec 14)) :
    (anglesReal corr s e (d :: d' :: ds)).head? = some (rmod360 (s + 2 * corr d)) := by
  have hraw : ∀ span n : ℝ, s + corr d + span / n * ((0 : Nat) : ℝ) + corr d = s + 2 * corr d := fun span n => by
    rw [Nat.cast_zero]; ring
  simp only [anglesReal, anglesOfSpan, interpolateReal, List.head?_cons, hraw]

/-- Sample N-1 takes the whole span, which leads from FSA to LSA up to whole turns, and its own correction on top of
LSA's (R203, R204). -/
theorem anglesReal_getLast? (corr : Corr) (s e : ℝ) (d d' : BitVec 14) (ds : List (BitVec 14)) :
    ∃ k : ℤ, (anglesReal corr s e (d :: d' :: ds)).getLast? =
      some (rmod360 (e + 2 * corr ((d :: d' :: ds).getLast (List.cons_ne_nil _ _)) - 360 * k)) := by
  obtain ⟨k, hspan⟩ := exists_rmod360_eq_sub (rawSpan corr s e (d :: d' :: ds))
  have hsteps : ((ds.length + 1 : Nat) : ℝ) ≠ 0 := Nat.cast_ne_zero.mpr ds.length.succ_ne_zero
  refine ⟨k, ?_⟩
  rw [anglesReal, anglesOfSpan, interpolateReal_getLast?, Nat.zero_add, List.length_cons, div_mul_cancel₀ _ hsteps,
    spanReal_eq_rmod360_rawSpan, hspan, rawSpan, List.getLast_cons_cons]
  congr 2
  ring

/-- Settles O17: both ends of the interpolation are angles already corrected once. -/
theorem endSamplesAreCorrectedTwice : Obligations.EndSamplesAreCorrectedTwice := by
  intro corr hok s e d a b d0 dl hlen ha hb hd0 hdl
  have ha' : (anglesReal corr s e d).head? = some (a.eval corr) := by
    rw [← map_eval_angles hok, List.head?_map, ha, Option.map_some]
  have hb' : (anglesReal corr s e d).getLast? = some (b.eval corr) := by
    rw [← map_eval_angles hok, List.getLast?_map, hb, Option.map_some]
  match d, hlen with
  | x :: y :: ds, _ =>
    obtain rfl : x = d0 := Option.some.inj hd0
    obtain rfl : (x :: y :: ds).getLast (List.cons_ne_nil _ _) = dl :=
      Option.some.inj ((List.getLast?_eq_some_getLast _).symm.trans hdl)
    rw [anglesReal_head?, Option.some.injEq] at ha'
    obtain ⟨turns, hlast⟩ := anglesReal_getLast? corr s e x y ds
    rw [hlast, Option.some.injEq] at hb'
    refine ⟨ha' ▸ exists_rmod360_eq_sub _, ?_⟩
    obtain ⟨k, hk⟩ := exists_rmod360_eq_sub
      (e + 2 * corr ((x :: y :: ds).getLast (List.cons_ne_nil _ _)) - 360 * turns)
    exact ⟨turns + k, by rw [← hb', hk]; push_cast; ring⟩

/-! ### The exact correction function (R201, R202) -/

/-- R201 with its fraction split: the distance occurs once, as its inverse. -/
theorem corrExact_eq_arctan {d : BitVec 14} (hd : 1 ≤ d.toNat) :
    corrExact d = 180 / Real.pi * Real.arctan (21.8 * ((d.toNat : ℝ)⁻¹ - 155.3⁻¹)) := by
  have hne : d ≠ 0 := fun h => by rw [h] at hd; exact absurd hd (by decide)
  have hd0 : (d.toNat : ℝ) ≠ 0 := Nat.cast_ne_zero.mpr (by omega)
  have hA : (Config.corrA : ℝ) = 21.8 := by rw [Config.corrA, Rat.mkRat_eq_div]; norm_num
  have hB : (Config.corrB : ℝ) = 155.3 := by rw [Config.corrB, Rat.mkRat_eq_div]; norm_num
  rw [corrExact, if_neg hne, hA, hB]
  congr 2
  field_simp

theorem degPerRad_pos : 0 < 180 / Real.pi := div_pos (by norm_num) Real.pi_pos

/-- An arctangent in degrees is within a quarter turn of 0, whatever its argument. -/
theorem abs_degrees_arctan_lt (x : ℝ) : |180 / Real.pi * Real.arctan x| < 90 := by
  have hquarter : 180 / Real.pi * (Real.pi / 2) = 90 := by field_simp; norm_num
  have hx : |Real.arctan x| < Real.pi / 2 := abs_lt.mpr (Real.arctan_mem_Ioo x)
  rw [abs_mul, abs_of_pos degPerRad_pos, ← hquarter]
  exact mul_lt_mul_of_pos_left hx degPerRad_pos

theorem abs_corrExact_lt {d : BitVec 14} (hd : 1 ≤ d.toNat) : |corrExact d| < 90 :=
  corrExact_eq_arctan hd ▸ abs_degrees_arctan_lt _

/-- The correction's sign is that of `CORR_B - d`. -/
theorem corrExact_pos {d : BitVec 14} (hd : 1 ≤ d.toNat) (h : d.toNat ≤ 155) : 0 < corrExact d := by
  have hd0 : (0 : ℝ) < d.toNat := Nat.cast_pos.mpr hd
  have hlt : (d.toNat : ℝ) < 155.3 := (Nat.cast_le.mpr h).trans_lt (by norm_num)
  rw [corrExact_eq_arctan hd]
  exact mul_pos degPerRad_pos
    (Real.arctan_pos.mpr (mul_pos (by norm_num) (sub_pos.mpr (inv_strictAnti₀ hd0 hlt))))

theorem corrExact_neg {d : BitVec 14} (h : 156 ≤ d.toNat) : corrExact d < 0 := by
  have hlt : (155.3 : ℝ) < d.toNat := lt_of_lt_of_le (by norm_num) (Nat.cast_le.mpr h)
  rw [corrExact_eq_arctan (by omega)]
  exact mul_neg_of_pos_of_neg degPerRad_pos
    (Real.arctan_lt_zero.mpr (mul_neg_of_pos_of_neg (by norm_num) (sub_neg.mpr (inv_strictAnti₀ (by norm_num) hlt))))

theorem corrExact_strictAnti {d d' : BitVec 14} (hd : 1 ≤ d.toNat) (h : d.toNat < d'.toNat) :
    corrExact d' < corrExact d := by
  have hinv : (d'.toNat : ℝ)⁻¹ < (d.toNat : ℝ)⁻¹ := inv_strictAnti₀ (Nat.cast_pos.mpr hd) (Nat.cast_lt.mpr h)
  rw [corrExact_eq_arctan hd, corrExact_eq_arctan (hd.trans h.le)]
  refine mul_lt_mul_of_pos_left (Real.arctan_strictMono ?_) degPerRad_pos
  exact mul_lt_mul_of_pos_left (sub_lt_sub_right hinv _) (by norm_num)

/-- Settles O18: the arctangent's argument falls as the distance grows, through 0 at CORR_B. -/
theorem exactCorrectionSignAndOrder : Obligations.ExactCorrectionSignAndOrder :=
  ⟨corrExact_ok, fun _ hd => ⟨abs_corrExact_lt hd, corrExact_pos hd, corrExact_neg, fun _ => corrExact_strictAnti hd⟩⟩

end Sys2Proof.Machine

/-! ## The host's commands and the control steps (R233 to R239, R248 to R252): what each sends, and what it leaves alone -/

namespace Sys2Proof.Machine

/-! ### Requests and stop duties, by mode (R246, R252) -/

section Modes

variable {s : State}

theorem beginCall_of_idle (c : HostCall) (h : s.phase = .idle) : beginCall c s = setCall c s := if_pos h

theorem beginCall_of_scanning (c : HostCall) (h : s.phase ≠ .idle) : beginCall c s = s := if_neg h

theorem stopDuties_of_due (r : CallResult) (drain : Bool) (h : stopDutiesDue s = true) :
    stopDuties r drain s =
      { s with rx := s.rx.filter (fun e => !e.isByte), stopOwed := false, draining := drain || s.draining,
               host := { s.host with call := none, rspBuf := [], rsp := none, payload := [], result := some r } } := by
  rw [stopDuties, if_pos h]
  rfl

theorem stopDuties_of_not_due (r : CallResult) (drain : Bool) (h : stopDutiesDue s = false) : stopDuties r drain s = s :=
  if_neg (Bool.eq_false_iff.mp h)

/-- No stop duty is due while the block scans, nor after `Closed` (R252, R278). -/
theorem stopDutiesDue_eq_false (h : s.phase ≠ .idle ∨ s.idleByClosed = true) : stopDutiesDue s = false := by
  refine Bool.eq_false_iff.mpr fun hd => ?_
  obtain ⟨hp, hc⟩ := (stopDutiesDue_iff s).mp hd
  exact h.elim (· hp) fun hc' => Bool.false_ne_true (hc.symm.trans hc')

/-- Where the duties are due, owing them is the record of the stop step (R252). -/
theorem stopDutiesOwed_of_due (h : stopDutiesDue s = true) : stopDutiesOwed s = s.stopOwed := by
  rw [stopDutiesOwed, h, Bool.true_and]

theorem commandFailed_stop_of_due (h : stopDutiesDue s = true) :
    commandFailed .cmdStop s = .next (stopDuties .ioError false s) := by
  rw [commandFailed, if_pos ⟨rfl, h⟩]

end Modes

/-! ### What the host's next sending is (R252, R256) -/

section Sending

variable {act : Instr → State → Host.Outcome State Fault Refusal} {s : State}

/-- For `stopScan()` or after a stop step it is CMD.STOP, whatever stands on the command line (R252). -/
theorem withCommand_stop (hstop : s.host.call = some .stopScan ∨ s.stopOwed = true) (hdue : stopDutiesDue s = true) :
    withCommand act s = act .cmdStop s := by
  have howed : s.host.call = some .stopScan ∨ stopDutiesOwed s = true := by rwa [stopDutiesOwed_of_due hdue]
  rw [withCommand, if_pos howed, if_pos hdue]

/-- After `Closed` the call of `stopScan()` ends (R278). -/
theorem withCommand_stopScan_closed (hcall : s.host.call = some .stopScan) (hidle : s.phase = .idle)
    (hclosed : s.idleByClosed = true) : withCommand act s = .next (endStopScan s) := by
  have hdue := stopDutiesDue_eq_false (.inr hclosed)
  rw [withCommand, if_pos (.inl hcall), if_neg (Bool.eq_false_iff.mp hdue), if_pos hidle]

/-- While the block scans `stopScan()` waits (R256). -/
theorem withCommand_stopScan_scanning (hcall : s.host.call = some .stopScan) (hscan : s.phase ≠ .idle) :
    withCommand act s = .next s := by
  have hdue := stopDutiesDue_eq_false (.inl hscan)
  rw [withCommand, if_pos (.inl hcall), if_neg (Bool.eq_false_iff.mp hdue), if_neg hscan]

/-- Else it is the next command of the line (R86, R233). -/
theorem withCommand_line {b0 b1 : Byte} {c : List Byte} {i : Instr} {rest : List Byte}
    (hcall : s.host.call ≠ some .stopScan) (howed : stopDutiesOwed s = false) (hcmds : s.host.cmds = b0 :: b1 :: c)
    (hd : decode .command [b0, b1] = .ok (i, rest)) :
    withCommand act s = act i { s with host := { s.host with cmds := c } } := by
  simp [withCommand, hcall, howed, hcmds, hd]

end Sending

/-! ### The five commands -/

/-- Settles O25: in Idle the host begins to wait, elsewhere it does not. -/
theorem cmdStartCompletes : Obligations.CmdStartCompletes := by
  intro s
  by_cases h : s.phase = .idle
  · rw [if_pos h]
    exact congrArg Host.Outcome.next (beginCall_of_idle .startScan (s := setSensor true (transmit Config.opStart s)) h)
  · rw [if_neg h]
    exact congrArg Host.Outcome.next (beginCall_of_scanning .startScan (s := setSensor true (transmit Config.opStart s)) h)

/-- A query is its two bytes, and in Idle the host begins to wait for the response (R236, R237). -/
theorem beginCall_transmit (c : HostCall) (op : Byte) (s : State) :
    beginCall c (transmit op s) =
      if s.phase = .idle then
        { s with tx := s.tx ++ [0xA5, op],
                 host := { s.host with call := some c, rspBuf := [], rsp := none, payload := [], result := none } }
      else { s with tx := s.tx ++ [0xA5, op] } := by
  by_cases h : s.phase = .idle
  · rw [if_pos h]; exact beginCall_of_idle c (s := transmit op s) h
  · rw [if_neg h]; exact beginCall_of_scanning c (s := transmit op s) h

/-- Settles O27: both queries are `beginCall_transmit`. -/
theorem cmdQueriesComplete : Obligations.CmdQueriesComplete := fun s =>
  ⟨congrArg Host.Outcome.next (beginCall_transmit .deviceInfo 0x90 s),
    congrArg Host.Outcome.next (beginCall_transmit .healthStatus 0x92 s)⟩

/-- Settles O28: the mode is the free value at the counter (log entry 9). -/
theorem cmdResetCompletes : Obligations.CmdResetCompletes := fun s => ⟨Config.sensorScanAfterReset s.freeIdx, rfl⟩

/-- Settles O26: the duties follow exactly where they are due, after a sending that fails too; a call of `stopScan()` gives
`StopReq`. -/
theorem cmdStopCompletes : Obligations.CmdStopCompletes := by
  intro s
  refine ⟨fun hnot => ?_, fun hidle hclosed => ?_, fun ts hst hs => ?_, fun ts hidle hclosed hstop hs => ?_⟩
  · exact congrArg Host.Outcome.next (stopDuties_of_not_due .stopped true
      (s := setSensor false (transmit Config.opStop s)) (stopDutiesDue_eq_false hnot))
  · refine ⟨s.rx.filter fun e => !e.isByte, bytesDiscarded_filter s.rx, ?_⟩
    have hdue : stopDutiesDue (setSensor false (transmit Config.opStop s)) = true :=
      (stopDutiesDue_iff _).mpr ⟨hidle, hclosed⟩
    rw [exec, execCmdStop, stopDuties_of_due _ _ hdue]
    rfl
  · rw [step_turn hst hs, runTurn]
    rcases callStopScan_cases { s with sched := ts } with ⟨hp, he⟩ | ⟨hp, he⟩
    · rw [he, if_pos hp]; rfl
    · rw [he, if_neg hp]; rfl
  · have hdue : stopDutiesDue { s with sched := ts } = true := (stopDutiesDue_iff _).mpr ⟨hidle, hclosed⟩
    refine ⟨s.rx.filter fun e => !e.isByte, bytesDiscarded_filter s.rx, ?_⟩
    calc step s = withCommand commandFailed { s with sched := ts } := step_turn (stopEnabled_of_idle hidle) hs
      _ = commandFailed .cmdStop { s with sched := ts } := withCommand_stop hstop hdue
      _ = .next (stopDuties .ioError false { s with sched := ts }) := commandFailed_stop_of_due hdue
      _ = _ := by rw [stopDuties_of_due _ _ hdue]; rfl

theorem command_of_place {i : Instr} (h : i.place = .command) :
    i = .cmdStart ∨ i = .cmdStop ∨ i = .cmdDevinfo ∨ i = .cmdHealth ∨ i = .cmdReset := by
  cases i <;> simp_all [Instr.place]

/-- Settles O57: each of the five leaves the block and the turns as they are. -/
theorem commandsLeaveTheBlockUntouched : Obligations.CommandsLeaveTheBlockUntouched := by
  intro s t i hi h
  obtain ⟨u, he, hb, hl⟩ := execCommand_sameBlock (command_of_place hi) s
  cases he.symm.trans h
  exact ⟨hb.phase, hb.hcnt, hb.pcnt, hb.hdr, fun a => by rw [hb.pbuf], hb.xacc, hb.stopPending, hb.out, hb.sink, hl.sched,
    hb.idleByClosed⟩

/-! ### `Start` and `StopReq` (R248, R250) -/

/-- A `Start` of CONTROL flushes nothing where no duties are owed, or where it is ignored (R252). -/
theorem controlStart_of_not_flushing {s : State} (h : stopDutiesOwed s = false ∨ s.out ≠ none) :
    controlStart s = acceptStart s := by
  rcases controlStart_cases s with ⟨howed, hout, _⟩ | ⟨_, he⟩
  · exact (h.elim (fun hn => Bool.false_ne_true (hn.symm.trans howed)) (· hout)).elim
  · exact he

/-- Settles O43: `acceptStart` is R248 as it stands, and a turn of CONTROL that flushes nothing is `acceptStart`. -/
theorem startIsAcceptedOnlyInIdle : Obligations.StartIsAcceptedOnlyInIdle := by
  intro s
  refine ⟨rfl, fun ts hst hs hno => ?_⟩
  rw [step_turn hst hs, runTurn, controlStart_of_not_flushing (s := { s with sched := ts }) hno]

theorem acceptStopReq_of_idle {s : State} (h : s.phase = .idle) : acceptStopReq s = s := if_pos h

theorem acceptStopReq_of_scanning {s : State} (h : s.phase ≠ .idle) : acceptStopReq s = { s with stopPending := true } :=
  if_neg h

/-- Settles O44: `StopReq` looks at PHASE alone. -/
theorem stopReqIsLatched : Obligations.StopReqIsLatched := by
  intro s
  refine ⟨fun hscan => acceptStopReq_of_scanning ?_, acceptStopReq_of_idle, fun ts hst hs => step_turn hst hs⟩
  rcases hscan with hp | hp <;> simp [hp]

end Sys2Proof.Machine

/-! ## Response headers (R240 to R249): `parse_rsp`, what each header does to the request in progress, and the bytes of a
response read one a step -/

namespace Sys2Proof.Machine

/-! ### `parse_rsp` by formulas (R240) -/

theorem sizeField_eq_ofNat (b : Byte) : sizeField b = BitVec.ofNat 6 (b.toNat % 64) := by
  apply BitVec.eq_of_toNat_eq
  rw [sizeField_toNat, BitVec.toNat_ofNat, Nat.mod_mod]
  exact Nat.and_two_pow_sub_one_eq_mod b.toNat 6

theorem topField_eq_ofNat (b : Byte) : topField b = BitVec.ofNat 2 (b.toNat / 64) := by
  apply BitVec.eq_of_toNat_eq
  rw [topField_toNat, BitVec.toNat_ofNat, Nat.shiftRight_eq_div_pow]
  exact (Nat.mod_eq_of_lt (by have := b.isLt; omega)).symm

/-- Mode Continuous is in the two top bits of offset 5 (R87, R242). -/
theorem topField_eq_one_iff (b : Byte) : topField b = 1 ↔ b.toNat / 64 = 1 := by
  rw [← BitVec.toNat_inj, topField_toNat, Nat.shiftRight_eq_div_pow]
  rfl

theorem parseRsp_preamble (r2 r3 r4 r5 r6 : Byte) :
    parseRsp [Config.preB0, Config.preB1, r2, r3, r4, r5, r6] =
      some { payloadSize := sizeField r2, responseMode := topField r5, typeCode := r6 } := rfl

theorem parseRsp_badPreamble {r0 r1 : Byte} (r2 r3 r4 r5 r6 : Byte) (h : ¬ (r0 = Config.preB0 ∧ r1 = Config.preB1)) :
    parseRsp [r0, r1, r2, r3, r4, r5, r6] = none := by
  rw [parseRsp, if_pos (not_and_or.mp h)]

/-- `parse_rsp` reads an encoded response header whatever its type code is (R87, R240). -/
theorem parseRsp_encodeResponse (t : Byte) (f : RspFields) : parseRsp (encodeResponse t f) = some (rspHeaderOf t f) := by
  rw [encodeResponse, rspHeaderOf]
  refine (parseRsp_preamble _ _ _ _ _).trans ?_
  rw [sizeField_append, topField_append]

/-- Settles O5: a good preamble lets the two fields be read, and every encoded header has one. -/
theorem parseRspByFormulas : Obligations.ParseRspByFormulas := by
  refine ⟨fun r0 r1 r2 r3 r4 r5 r6 => ?_, fun f =>
    ⟨parseRsp_encodeResponse _ f, parseRsp_encodeResponse _ f, parseRsp_encodeResponse _ f⟩⟩
  by_cases hp : r0 = Config.preB0 ∧ r1 = Config.preB1
  · obtain ⟨rfl, rfl⟩ := hp
    rw [if_pos ⟨rfl, rfl⟩, parseRsp_preamble, sizeField_eq_ofNat, topField_eq_ofNat]
  · rw [parseRsp_badPreamble _ _ _ _ _ hp]
    exact (if_neg hp).symm

/-- The decoder refuses a response header without its preamble (R240). -/
theorem decodeResponse_badPreamble {r0 r1 : Byte} (r2 r3 r4 r5 r6 : Byte) (rest : List Byte)
    (h : ¬ (r0 = Config.preB0 ∧ r1 = Config.preB1)) :
    decodeResponse (r0 :: r1 :: r2 :: r3 :: r4 :: r5 :: r6 :: rest) = .error .badPreamble := by
  rw [decodeResponse, if_pos (mt (le16_eq_preamble r0 r1).mp h)]

/-! ### What a header does, by the request in progress (R242 to R249) -/

section ByRequest

variable {s : State}

theorem exec_rspScanack_continuous {f : RspFields} (hcall : s.host.call = some .startScan) (hmode : f.responseMode = 1) :
    exec (.rspScanack f) s = .next (negotiated s) := by
  rw [exec, execRspScanack, if_pos hcall]
  exact if_pos hmode

theorem exec_rspScanack_otherMode {f : RspFields} (hcall : s.host.call = some .startScan) (hmode : f.responseMode ≠ 1) :
    exec (.rspScanack f) s = .next (negotiationFailed s) := by
  rw [exec, execRspScanack, if_pos hcall]
  exact if_neg hmode

theorem exec_rspScanack_noStart (f : RspFields) (hcall : s.host.call ≠ some .startScan) :
    exec (.rspScanack f) s = .next (finishCall (.response (rspHeaderOf Config.typeScanack f) []) s) := by
  rw [exec, execRspScanack, if_neg hcall]

theorem otherResponse_start (hdr : RspHeader) (hcall : s.host.call = some .startScan) :
    otherResponse hdr s = negotiationFailed s := if_pos hcall

theorem otherResponse_noStart (hdr : RspHeader) (hcall : s.host.call ≠ some .startScan) :
    otherResponse hdr s = expectPayload hdr s := if_neg hcall

theorem responseFailed_start (hcall : s.host.call = some .startScan) : responseFailed s = negotiationFailed s := by
  simp [responseFailed, hcall]

/-- `Start` is accepted in Idle with OUT empty (R248). -/
theorem negotiated_of_accepted (h : s.phase = .idle ∧ s.out = none) :
    negotiated s = clearStopPending (toBoundary (finishCall .started s)) := if_pos h

/-- Elsewhere it is ignored, and success is surfaced all the same (log entry 14). -/
theorem negotiated_of_ignored (h : ¬ (s.phase = .idle ∧ s.out = none)) : negotiated s = finishCall .started s := if_neg h

/-- Settles O29: `Start` is accepted or ignored (R248). -/
theorem rspScanackStartsTheBlock : Obligations.RspScanackStartsTheBlock := by
  intro f s hcall hmode
  rw [exec_rspScanack_continuous hcall hmode]
  by_cases h : s.phase = .idle ∧ s.out = none
  · rw [negotiated_of_accepted h, if_pos h]; rfl
  · rw [negotiated_of_ignored h, if_neg h]; rfl

/-- Settles O30: the failure in another mode, and the generic reading where no start is in progress. -/
theorem rspScanackElsewhere : Obligations.RspScanackElsewhere := fun f _ =>
  ⟨exec_rspScanack_otherMode, exec_rspScanack_noStart f⟩

/-- A header of type `t` that no start wants, as one record (R240, R249). -/
theorem otherResponse_rspHeaderOf (t : Byte) (f : RspFields) (s : State) :
    otherResponse (rspHeaderOf t f) s =
      if s.host.call = some .startScan then
        { s with host := { s.host with call := none, rspBuf := [], rsp := none, payload := [],
                                       result := some .protocolNegotiationError } }
      else if f.payloadSize = 0 then
        { s with host := { s.host with call := none, rspBuf := [], rsp := none, payload := [],
                                       result := some (.response ⟨0, f.responseMode, t⟩ []) } }
      else
        { s with host := { s.host with rspBuf := [], rsp := some ⟨f.payloadSize, f.responseMode, t⟩, payload := [] } } := by
  by_cases hcall : s.host.call = some .startScan
  · rw [otherResponse_start _ hcall, if_pos hcall]; rfl
  · rw [otherResponse_noStart _ hcall, if_neg hcall, expectPayload]
    by_cases hsize : f.payloadSize = 0
    · rw [if_pos hsize, if_pos (show (rspHeaderOf t f).payloadSize = 0 from hsize), rspHeaderOf, hsize]; rfl
    · rw [if_neg hsize, if_neg (show (rspHeaderOf t f).payloadSize ≠ 0 from hsize)]; rfl

/-! ### A whole response header (R245) -/

theorem responseComplete_of_ok {bytes rest : List Byte} {i : Instr} (hd : decodeResponse bytes = .ok (i, rest)) :
    responseComplete bytes s = exec i s := by
  simp only [responseComplete, decode, hd]

theorem responseComplete_of_unlisted {bytes : List Byte} {e : DecodeError} {hdr : RspHeader}
    (hd : decodeResponse bytes = .error e) (hp : parseRsp bytes = some hdr) :
    responseComplete bytes s = .next (otherResponse hdr s) := by
  simp only [responseComplete, decode, hd, hp]

theorem responseComplete_of_unreadable {bytes : List Byte} {e : DecodeError}
    (hd : decodeResponse bytes = .error e) (hp : parseRsp bytes = none) :
    responseComplete bytes s = .next (responseFailed s) := by
  simp only [responseComplete, decode, hd, hp]

/-- After a good preamble a type code other than the scan acknowledgement's fails a start, listed or not (R249). -/
theorem responseComplete_start_otherType (r2 r3 r4 r5 : Byte) {r6 : Byte} (hcall : s.host.call = some .startScan)
    (hack : r6 ≠ Config.typeScanack) :
    responseComplete [Config.preB0, Config.preB1, r2, r3, r4, r5, r6] s = .next (negotiationFailed s) := by
  have hd := decodeResponse_preamble r2 r3 r4 r5 r6 []
  rw [if_neg hack] at hd
  split at hd
  · rw [responseComplete_of_ok hd, exec, execRspDevinfo, otherResponse_start _ hcall]
  · split at hd
    · rw [responseComplete_of_ok hd, exec, execRspHealth, otherResponse_start _ hcall]
    · rw [responseComplete_of_unlisted hd (parseRsp_preamble r2 r3 r4 r5 r6), otherResponse_start _ hcall]

/-- A scan acknowledgement decides a start by its mode (R242, R245). -/
theorem responseComplete_start_scanack (r2 r3 r4 r5 : Byte) (hcall : s.host.call = some .startScan) :
    responseComplete [Config.preB0, Config.preB1, r2, r3, r4, r5, Config.typeScanack] s =
      .next (if topField r5 = 1 then negotiated s else negotiationFailed s) := by
  have hd := decodeResponse_preamble r2 r3 r4 r5 Config.typeScanack []
  rw [if_pos rfl] at hd
  rw [responseComplete_of_ok hd]
  by_cases hmode : topField r5 = 1
  · rw [if_pos hmode]; exact exec_rspScanack_continuous hcall hmode
  · rw [if_neg hmode]; exact exec_rspScanack_otherMode hcall hmode

/-- Seven bytes decide a start in progress (R245): `Start` on a scan acknowledgement in mode Continuous, and failure on
anything else. -/
theorem responseComplete_start (r0 r1 r2 r3 r4 r5 r6 : Byte) (hcall : s.host.call = some .startScan) :
    responseComplete [r0, r1, r2, r3, r4, r5, r6] s =
      .next (if r0 = 0xA5 ∧ r1 = 0x5A ∧ r5.toNat / 64 = 1 ∧ r6 = 0x81 then negotiated s else negotiationFailed s) := by
  by_cases hp : r0 = Config.preB0 ∧ r1 = Config.preB1
  · obtain ⟨rfl, rfl⟩ := hp
    by_cases hack : r6 = Config.typeScanack
    · subst hack
      have hiff : (Config.preB0 = 0xA5 ∧ Config.preB1 = 0x5A ∧ r5.toNat / 64 = 1 ∧ Config.typeScanack = 0x81) ↔
          topField r5 = 1 := by
        rw [topField_eq_one_iff]
        exact ⟨fun ⟨_, _, hmode, _⟩ => hmode, fun hmode => ⟨rfl, rfl, hmode, rfl⟩⟩
      simp only [responseComplete_start_scanack r2 r3 r4 r5 hcall, hiff]
    · rw [responseComplete_start_otherType r2 r3 r4 r5 hcall hack, if_neg fun ⟨_, _, _, h⟩ => hack h]
  · rw [if_neg fun ⟨h0, h1, _⟩ => hp ⟨h0, h1⟩,
      responseComplete_of_unreadable (decodeResponse_badPreamble r2 r3 r4 r5 r6 [] hp)
        (parseRsp_badPreamble r2 r3 r4 r5 r6 hp), responseFailed_start hcall]

end ByRequest

/-! ### A byte read by the host (R246) -/

section HostByte

variable {s : State} {b : Byte}

theorem hostByte_of_owed (h : stopDutiesOwed s = true) : hostByte b s = .next s := by
  rw [hostByte, if_pos h]

theorem hostByte_payload {hdr : RspHeader} (howed : stopDutiesOwed s = false) (hrsp : s.host.rsp = some hdr) :
    hostByte b s = .next (payloadByte hdr b s) := by
  simp [hostByte, howed, hrsp]

/-- The host reads a response header: a request other than `stopScan()` is in progress, no payload is being read, and no
stop duties come first (R246, R252). -/
structure AwaitsHeader (s : State) : Prop where
  notOwed : stopDutiesOwed s = false
  rsp : s.host.rsp = none
  call : ¬ (s.host.call = none ∨ s.host.call = some .stopScan)

theorem AwaitsHeader.hostByte_more (h : AwaitsHeader s) (hlen : s.host.rspBuf.length < 6) :
    hostByte b s = .next { s with host := { s.host with rspBuf := s.host.rspBuf ++ [b] } } := by
  obtain ⟨howed, hrsp, hcall⟩ := h
  have hmore : s.host.rspBuf.length + 1 < Config.rspLen := Nat.succ_lt_succ hlen
  simp only [hostByte, howed, hrsp, if_neg hcall, if_pos hmore, Bool.false_eq_true, if_false]

theorem AwaitsHeader.hostByte_last (h : AwaitsHeader s) (hlen : s.host.rspBuf.length = 6) :
    hostByte b s = responseComplete (s.host.rspBuf ++ [b]) { s with host := { s.host with rspBuf := [] } } := by
  obtain ⟨howed, hrsp, hcall⟩ := h
  have hlast : ¬ s.host.rspBuf.length + 1 < Config.rspLen := by rw [hlen]; decide
  simp only [hostByte, howed, hrsp, if_neg hcall, if_neg hlast, Bool.false_eq_true, if_false]

/-- A byte of the payload but the last is kept (R240). -/
theorem payloadByte_more {hdr : RspHeader} (h : s.host.payload.length + 1 < hdr.payloadSize.toNat) :
    payloadByte hdr b s = { s with host := { s.host with payload := s.host.payload ++ [b] } } := by
  simp only [payloadByte, List.length_append, List.length_singleton, if_pos h]

/-- The last byte of the payload ends the request (R240). -/
theorem payloadByte_last {hdr : RspHeader} (h : s.host.payload.length + 1 = hdr.payloadSize.toNat) :
    payloadByte hdr b s = finishCall (.response hdr (s.host.payload ++ [b])) s := by
  simp only [payloadByte, List.length_append, List.length_singleton, if_neg (Nat.not_lt.mpr h.ge)]

end HostByte

/-! ### Turns of the host as reader (R246) -/

section Reading

variable {s : State} {ts : List Turn} {r : List SrcEvent}

/-- In Idle a turn of the host as reader takes the byte on offer (R246). -/
theorem step_hostRead_byte {b : Byte} (hs : s.sched = .hostRead :: ts) (hrx : s.rx = .byte b :: r) (hidle : s.phase = .idle) :
    step s = hostByte b { s with sched := ts, rx := r } := by
  rw [step_turn (stopEnabled_of_idle hidle) hs]
  simp [runTurn, hostRead, hidle, hrx]

/-- In Idle a turn of the host as reader takes an event that is no byte, and the read ends with it (R245, log entry 22). -/
theorem step_hostRead_ends {e : SrcEvent} (hs : s.sched = .hostRead :: ts) (hrx : s.rx = e :: r) (hidle : s.phase = .idle)
    (he : e = .timeout ∨ e = .ioFail ∨ e = .closed) : step s = .next (responseFailed { s with sched := ts, rx := r }) := by
  rw [step_turn (stopEnabled_of_idle hidle) hs]
  rcases he with rfl | rfl | rfl <;> simp [runTurn, hostRead, hidle, hrx]

theorem step_feed_hostRead (b : Byte) (bs : List Byte) (hidle : s.phase = .idle) :
    step (feed .hostRead (b :: bs) s) = hostByte b (feed .hostRead bs s) :=
  step_hostRead_byte (s := feed .hostRead (b :: bs) s) rfl rfl hidle

end Reading

/-- A run over offered bytes, packaged: where each of the first `n` bytes leads, in one step, from the state `u c` that the
bytes `c` before it have led to, to the state `u (c ++ [b])`, the bytes `p` lead to `u p`. -/
theorem steps_feed {t : Turn} {u : List Byte → State} {n : Nat}
    (hstep : ∀ c b bs, c.length < n → step (feed t (b :: bs) (u c)) = .next (feed t bs (u (c ++ [b]))))
    (p bs : List Byte) (hp : p.length ≤ n) : steps p.length (feed t (p ++ bs) (u [])) = .next (feed t bs (u p)) := by
  induction p using List.reverseRecOn generalizing bs with
  | nil => rfl
  | append_singleton c b ih =>
    rw [List.length_append, List.length_singleton] at hp ⊢
    rw [List.append_assoc, List.singleton_append]
    exact steps_succ_of_steps (ih (b :: bs) (Nat.le_of_succ_le hp)) (hstep c b bs hp)

/-! ### The payload that follows a header (R240) -/

/-- The host with the bytes `c` of a payload read. -/
def withPayload (s : State) (c : List Byte) : State := { s with host := { s.host with payload := c } }

theorem withPayload_nil {s : State} (h : s.host.payload = []) : withPayload s [] = s := by
  rw [withPayload, ← h]

section Payload

variable {s : State} {hdr : RspHeader} (hidle : s.phase = .idle) (howed : stopDutiesOwed s = false)
  (hrsp : s.host.rsp = some hdr)
include hidle howed hrsp

theorem step_payload_more (c : List Byte) (b : Byte) (bs : List Byte) (hc : c.length + 1 < hdr.payloadSize.toNat) :
    step (feed .hostRead (b :: bs) (withPayload s c)) = .next (feed .hostRead bs (withPayload s (c ++ [b]))) := by
  rw [step_feed_hostRead (s := withPayload s c) b bs hidle,
    hostByte_payload (s := feed .hostRead bs (withPayload s c)) howed hrsp,
    payloadByte_more (s := feed .hostRead bs (withPayload s c)) hc]
  rfl

theorem step_payload_last (c : List Byte) (b : Byte) (hc : c.length + 1 = hdr.payloadSize.toNat) :
    step (feed .hostRead [b] (withPayload s c)) = .next (finishCall (.response hdr (c ++ [b])) s) := by
  rw [step_feed_hostRead (s := withPayload s c) b [] hidle,
    hostByte_payload (s := feed .hostRead [] (withPayload s c)) howed hrsp,
    payloadByte_last (s := feed .hostRead [] (withPayload s c)) hc]
  rfl

/-- The announced bytes, read one a step, end the request with exactly them (R240). -/
theorem steps_payload {p : List Byte} (hnew : s.host.payload = []) (hne : p ≠ [])
    (hlen : p.length = hdr.payloadSize.toNat) :
    steps p.length (feed .hostRead p s) = .next (finishCall (.response hdr p) s) := by
  obtain ⟨c, b, rfl⟩ := (List.eq_nil_or_concat' p).resolve_left hne
  rw [List.length_append, List.length_singleton] at hlen ⊢
  have hmore := steps_feed (u := withPayload s) (n := c.length)
    (fun d x bs hd => step_payload_more hidle howed hrsp d x bs (by omega)) c [b] le_rfl
  rw [withPayload_nil hnew] at hmore
  exact steps_succ_of_steps hmore (step_payload_last hidle howed hrsp c b hlen)

end Payload

/-- Settles O31: both headers are `otherResponse_rspHeaderOf`, and the payload is read by `steps_payload`. -/
theorem rspQueriesComplete : Obligations.RspQueriesComplete := fun f s =>
  ⟨congrArg Host.Outcome.next (otherResponse_rspHeaderOf 0x04 f s),
    congrArg Host.Outcome.next (otherResponse_rspHeaderOf 0x06 f s),
    fun _ _ hidle howed hrsp hnew hne hlen => steps_payload hidle howed hrsp hnew hne hlen⟩

end Sys2Proof.Machine

/-! ## The host's turns (R240 to R256): which unit a turn of the host runs, and how the seven bytes decide a start -/

namespace Sys2Proof.Machine

/-- With `stopScan()` in progress both turns of the sending host are the same after `Closed` and while the block scans: the
device is not written to (R256, R278). -/
theorem step_hostSend_either {s t : State} {ts : List Turn} (hst : stopEnabled s = false)
    (hs : s.sched = .hostSend :: ts ∨ s.sched = .hostSendFails :: ts)
    (h : ∀ act, withCommand act { s with sched := ts } = .next t) : step s = .next t :=
  hs.elim (fun hs => (step_turn hst hs).trans (h exec)) fun hs => (step_turn hst hs).trans (h commandFailed)

/-- What `stopScan()` returns after `Closed` is Ok or IoError (log entry 18). -/
theorem endStopScan_result (s : State) : ∃ c, (c = .stopped ∨ c = .ioError) ∧ endStopScan s = nextFree (finishCall c s) := by
  rw [endStopScan]
  split
  · exact ⟨_, .inl rfl, rfl⟩
  · exact ⟨_, .inr rfl, rfl⟩

/-- Settles O38, a turn at a time: what the host's next sending is, what it does with a byte, the two turns of the
environment and of CONTROL. -/
theorem stepRunsTheHostsUnits : Obligations.StepRunsTheHostsUnits := by
  intro s ts i hst
  refine ⟨fun b0 b1 c hs hcall howed hcmds hd => ?_, fun hs hstop hidle hclosed => ?_, fun hs hcall hidle hclosed => ?_,
    fun hs hcall hscan => ?_, fun b r hs hrx hidle hcall hcall' howed hrsp hlen hd => ?_, fun b r hs hrx howed => ?_,
    fun hs => step_turn hst hs, fun hs howed hout => ?_⟩
  · exact (step_turn hst hs).trans (withCommand_line (s := { s with sched := ts }) hcall howed hcmds hd)
  · exact (step_turn hst hs).trans
      (withCommand_stop (s := { s with sched := ts }) hstop ((stopDutiesDue_iff _).mpr ⟨hidle, hclosed⟩))
  · obtain ⟨c, hc, he⟩ := endStopScan_result { s with sched := ts }
    refine ⟨c, hc, step_hostSend_either hst hs fun act => ?_⟩
    rw [withCommand_stopScan_closed (s := { s with sched := ts }) hcall hidle hclosed, he]
    rfl
  · exact step_hostSend_either hst hs fun _ => withCommand_stopScan_scanning (s := { s with sched := ts }) hcall hscan
  · have hawaits : AwaitsHeader { s with sched := ts, rx := r } := ⟨howed, hrsp, fun h => h.elim hcall hcall'⟩
    rw [step_hostRead_byte hs hrx hidle, hawaits.hostByte_last hlen]
    exact responseComplete_of_ok hd
  · obtain ⟨hidle, _, _⟩ := (stopDutiesOwed_iff s).mp howed
    rw [step_hostRead_byte hs hrx hidle]
    exact hostByte_of_owed (s := { s with sched := ts, rx := r }) howed
  · refine ⟨s.rx.filter fun e => !e.isByte, bytesDiscarded_filter s.rx, ?_⟩
    rw [step_turn hst hs, runTurn, controlStart, if_pos ⟨howed, hout⟩]
    rfl

/-! ### The negotiation of a start (R245, R249) -/

/-- The host with the bytes `c` of a response header read. -/
def withHeaderBytes (s : State) (c : List Byte) : State := { s with host := { s.host with rspBuf := c } }

theorem withHeaderBytes_nil {s : State} (h : s.host.rspBuf = []) : withHeaderBytes s [] = s := by
  rw [withHeaderBytes, ← h]

/-- An event that is no byte ends the header read and fails the start, whatever has been read (R245). -/
theorem step_header_ends {s : State} (hidle : s.phase = .idle) (hcall : s.host.call = some .startScan) (c : List Byte)
    {e : SrcEvent} (he : e = .timeout ∨ e = .ioFail ∨ e = .closed) :
    step { withHeaderBytes s c with rx := e :: s.rx, sched := .hostRead :: s.sched } = .next (negotiationFailed s) :=
  calc step { withHeaderBytes s c with rx := e :: s.rx, sched := .hostRead :: s.sched }
      = .next (responseFailed (withHeaderBytes s c)) := step_hostRead_ends rfl rfl (by exact hidle) he
    _ = .next (negotiationFailed (withHeaderBytes s c)) := by rw [responseFailed_start (s := withHeaderBytes s c) hcall]

section Negotiation

variable {s : State} (hidle : s.phase = .idle) (hawaits : AwaitsHeader s)
include hidle hawaits

theorem step_header_more (c : List Byte) (b : Byte) (bs : List Byte) (hc : c.length < 6) :
    step (feed .hostRead (b :: bs) (withHeaderBytes s c)) = .next (feed .hostRead bs (withHeaderBytes s (c ++ [b]))) := by
  have hmore : AwaitsHeader (feed .hostRead bs (withHeaderBytes s c)) := ⟨hawaits.notOwed, hawaits.rsp, hawaits.call⟩
  rw [step_feed_hostRead (s := withHeaderBytes s c) b bs hidle, hmore.hostByte_more hc]
  rfl

/-- Fewer than seven bytes of a response header are kept, whatever is offered after them (R245). -/
theorem steps_header {p : List Byte} (bs : List Byte) (hnew : s.host.rspBuf = []) (hp : p.length ≤ 6) :
    steps p.length (feed .hostRead (p ++ bs) s) = .next (feed .hostRead bs (withHeaderBytes s p)) := by
  have h := steps_feed (u := withHeaderBytes s) (fun c b bs hc => step_header_more hidle hawaits c b bs hc) p bs hp
  rwa [withHeaderBytes_nil hnew] at h

theorem step_header_last (c : List Byte) (b : Byte) (hc : c.length = 6) :
    step (feed .hostRead [b] (withHeaderBytes s c)) = responseComplete (c ++ [b]) (withHeaderBytes s []) := by
  have hlast : AwaitsHeader (feed .hostRead [] (withHeaderBytes s c)) := ⟨hawaits.notOwed, hawaits.rsp, hawaits.call⟩
  rw [step_feed_hostRead (s := withHeaderBytes s c) b [] hidle, hlast.hostByte_last hc]
  rfl

variable (hcall : s.host.call = some .startScan) (hnew : s.host.rspBuf = [])
include hcall hnew

/-- Seven bytes decide the start (R245). -/
theorem steps_negotiation (r0 r1 r2 r3 r4 r5 r6 : Byte) :
    steps 7 (feed .hostRead [r0, r1, r2, r3, r4, r5, r6] s) =
      .next (if r0 = 0xA5 ∧ r1 = 0x5A ∧ r5.toNat / 64 = 1 ∧ r6 = 0x81 then negotiated s else negotiationFailed s) := by
  have hsix := steps_header hidle hawaits (p := [r0, r1, r2, r3, r4, r5]) [r6] hnew le_rfl
  have hlast := step_header_last hidle hawaits [r0, r1, r2, r3, r4, r5] r6 rfl
  rw [withHeaderBytes_nil hnew] at hlast
  exact steps_succ_of_steps hsix (hlast.trans (responseComplete_start r0 r1 r2 r3 r4 r5 r6 hcall))

/-- A Timeout, a failure or the end of the stream before the seventh byte fails the start, and is consumed (R245). -/
theorem steps_shortResponse {p : List Byte} {e : SrcEvent} (hp : p.length < 7)
    (he : e = .timeout ∨ e = .ioFail ∨ e = .closed) :
    steps (p.length + 1) (feed .hostRead p { s with rx := e :: s.rx, sched := .hostRead :: s.sched }) =
      .next (negotiationFailed s) := by
  have hread := steps_header (s := { s with rx := e :: s.rx, sched := .hostRead :: s.sched }) hidle
    ⟨hawaits.notOwed, hawaits.rsp, hawaits.call⟩ (p := p) [] hnew (Nat.le_of_lt_succ hp)
  rw [List.append_nil] at hread
  exact steps_succ_of_steps hread (step_header_ends hidle hcall p he)

end Negotiation

/-- Settles O60: a short response is `steps_shortResponse`; of seven bytes `steps_negotiation` tells the good ones, on which
the block, Idle with OUT empty, accepts `Start`. -/
theorem negotiationDecidesTheStart : Obligations.NegotiationDecidesTheStart := by
  intro s hidle hout howed hcall hnew hrsp
  have hawaits : AwaitsHeader s := ⟨howed, hrsp, by simp [hcall]⟩
  refine ⟨fun rsp e hlen he => ?_, fun rsp hlen => ?_⟩
  · exact ⟨_, steps_shortResponse hidle hawaits hcall hnew hlen he, rfl, rfl, rfl, hout, hidle, rfl, rfl⟩
  · match rsp, hlen with
    | [r0, r1, r2, r3, r4, r5, r6], _ =>
      refine ⟨_, steps_negotiation hidle hawaits hcall hnew r0 r1 r2 r3 r4 r5 r6, ?_⟩
      by_cases hgood : r0 = 0xA5 ∧ r1 = 0x5A ∧ r5.toNat / 64 = 1 ∧ r6 = 0x81
      · obtain ⟨h0, h1, h5, h6⟩ := hgood
        rw [if_pos ⟨h0, h1, h5, h6⟩, negotiated_of_accepted ⟨hidle, hout⟩]
        exact ⟨rfl, rfl, rfl, hout, rfl, .inl ⟨h0, h1, h5, h6, rfl, rfl, rfl, rfl, rfl⟩⟩
      · rw [if_neg hgood]
        exact ⟨rfl, rfl, rfl, hout, rfl, .inr ⟨hgood, hidle, rfl⟩⟩

end Sys2Proof.Machine

/-! ## A pending stop (R251, R255): the frame in progress may still write its item, at a boundary, and nothing after it does -/

namespace Sys2Proof.Machine

/-- With a stop pending a frame boundary is where the stop step is due as soon as OUT is empty (R251). -/
theorem stopEnabled_when_taken {s : State} (hphase : s.phase = .header) (hhcnt : s.hcnt = 0) (hstop : s.stopPending = true) :
    stopEnabled { s with out := none } = true :=
  (stopEnabled_iff _).mpr ⟨rfl, hphase, hhcnt, hstop⟩

/-! ### PARSER's events: an item is written at the boundary only -/

/-- The stop is pending as before, and an item stands in OUT only at a frame boundary. -/
structure WritesAtBoundary (s t : State) : Prop where
  stopPending : t.stopPending = s.stopPending
  written : t.out ≠ none → t.phase = .header ∧ t.hcnt = 0

/-- What has been captured, and the received events, say nothing of the stop. -/
theorem WritesAtBoundary.of_captured {s t : State} {v : Vector Byte 10} {m : Memory} {x : Word16} {k : BitVec 4}
    {j : BitVec 10} {r : List SrcEvent}
    (h : WritesAtBoundary { s with hdr := v, pbuf := m, xacc := x, hcnt := k, pcnt := j, rx := r } t) :
    WritesAtBoundary s t := ⟨h.stopPending, h.written⟩

/-- Nothing is written. -/
theorem WritesAtBoundary.of_out_none {s t : State} (hstop : t.stopPending = s.stopPending) (hout : t.out = none) :
    WritesAtBoundary s t := ⟨hstop, fun h => absurd hout h⟩

theorem raiseErr_writesAtBoundary (e : Err) (s : State) : WritesAtBoundary s (raiseErr e s) := ⟨rfl, fun _ => ⟨rfl, rfl⟩⟩

/-- A HeadingMarker leaves the position as the header's last byte has made it (R150). -/
theorem execScanHm_writesAtBoundary {h : ScanHeader} {s t : State} (hphase : s.phase = .header) (hhcnt : s.hcnt = 0)
    (ht : exec (.scanHm h) s = .next t) : WritesAtBoundary s t := by
  cases (execScanHm_eq s h).symm.trans ht
  split
  · exact ⟨rfl, fun _ => ⟨hphase, hhcnt⟩⟩
  · exact raiseErr_writesAtBoundary _ s

theorem execScanPc_writesAtBoundary {h : ScanHeader} {ss : List RawSample} {s t : State}
    (ht : exec (.scanPc h ss) s = .next t) : WritesAtBoundary s t := by
  cases (execScanPc_eq s h ss).symm.trans ht
  split
  · exact raiseErr_writesAtBoundary _ s
  · split
    · exact ⟨rfl, fun _ => ⟨rfl, rfl⟩⟩
    · exact raiseErr_writesAtBoundary _ s

theorem headerComplete_writesAtBoundary {s t : State} (hphase : s.phase = .header) (hhcnt : s.hcnt = 0) (hout : s.out = none)
    (h : headerComplete s = .next t) : WritesAtBoundary s t := by
  rcases headerComplete_cases s with ⟨_, he⟩ | ⟨_, _, he⟩ | ⟨_, _, _, he⟩ | ⟨_, _, _, he⟩ <;> have hn := he.symm.trans h
  · cases hn; exact raiseErr_writesAtBoundary _ s
  · exact execScanHm_writesAtBoundary hphase hhcnt hn
  · cases hn; exact raiseErr_writesAtBoundary _ s
  · cases hn; exact .of_out_none rfl hout

theorem hdrCapture_writesAtBoundary {b : Byte} {s t : State} (hi : Inv s) (hphase : s.phase = .header) (hout : s.out = none)
    (h : hdrCapture b s = .next t) : WritesAtBoundary s t := by
  obtain ⟨_, hhcnt⟩ := hi.header hphase
  rcases hdrCapture_cases b s hhcnt with ⟨_, _, he⟩ | ⟨_, he⟩
  · cases he.symm.trans h; exact .of_out_none rfl hout
  · exact (headerComplete_writesAtBoundary (s := { s with hdr := s.hdr.set 9 b, hcnt := 0 }) hphase rfl hout
      (he.symm.trans h)).of_captured

theorem payCapture_writesAtBoundary {b : Byte} {s t : State} (hi : Inv s) (hphase : s.phase = .payload) (hout : s.out = none)
    (h : payCapture b s = .next t) : WritesAtBoundary s t := by
  obtain ⟨_, hpre, htype, _, hlt⟩ := hi.payload hphase
  obtain ⟨p, hw, _⟩ := hi.payloadXacc hphase
  obtain ⟨_, _, ⟨_, he⟩ | ⟨_, _, _, _, he⟩⟩ := payCapture_cases b s hw hpre htype hlt
  · cases he.symm.trans h; exact .of_out_none rfl hout
  · have hw := execScanPc_writesAtBoundary (he.symm.trans h)
    exact ⟨hw.stopPending, hw.written⟩

/-- Every event but `Closed` leaves the stop pending (R276, R277). -/
theorem parserEvent_writesAtBoundary {e : SrcEvent} {s t : State} (hi : Inv s) (hphase : s.phase ≠ .idle)
    (hout : s.out = none) (he : e ≠ .closed) (h : parserEvent e s = .next t) : WritesAtBoundary s t := by
  cases e with
  | byte b =>
    rw [parserEvent] at h
    cases hp : s.phase with
    | idle => exact absurd hp hphase
    | header => exact hdrCapture_writesAtBoundary hi hp hout ((byteArrives_header b hp).symm.trans h)
    | payload => exact payCapture_writesAtBoundary hi hp hout ((byteArrives_payload b hp).symm.trans h)
  | timeout => cases h; exact raiseErr_writesAtBoundary _ s
  | ioFail => cases h; exact raiseErr_writesAtBoundary _ s
  | closed => exact absurd rfl he

/-! ### What a step can do while a stop is pending -/

/-- The block stands where it stood, the stop is still pending, and the item in OUT is kept or taken. -/
structure StaysStopping (s t : State) : Prop where
  phase : t.phase = s.phase
  hcnt : t.hcnt = s.hcnt
  stopPending : t.stopPending = true
  out : t.out = s.out ∨ t.out = none

/-- The frame in progress goes on: an event was taken with OUT empty, and an item that is written stands at a boundary. -/
structure FrameGoesOn (s t : State) : Prop where
  out : s.out = none
  scanning : t.phase ≠ .idle
  stopPending : t.stopPending = true
  written : t.out ≠ none → t.phase = .header ∧ t.hcnt = 0

/-- The stream has ended (R251, R278). -/
structure StreamEnded (t : State) : Prop where
  phase : t.phase = .idle
  out : t.out = some .endOfStream

/-- What a step can do while a stop is pending. -/
def StoppingStep (s t : State) : Prop := StaysStopping s t ∨ FrameGoesOn s t ∨ StreamEnded t

section Turns

variable {s t : State}

theorem StaysStopping.refl (hstop : s.stopPending = true) : StaysStopping s s := ⟨rfl, rfl, hstop, .inl rfl⟩

theorem SameBlock.staysStopping (h : SameBlock s t) (hstop : s.stopPending = true) : StaysStopping s t :=
  ⟨h.phase, h.hcnt, h.stopPending.trans hstop, .inl h.out⟩

/-- The turns to come do not belong to the block. -/
theorem StoppingStep.of_sched {q : List Turn} (h : StoppingStep { s with sched := q } t) : StoppingStep s t :=
  h.imp (fun hs => ⟨hs.phase, hs.hcnt, hs.stopPending, hs.out⟩) <|
    .imp_left fun hf => ⟨hf.out, hf.scanning, hf.stopPending, hf.written⟩

/-- A second `StopReq` changes nothing (R250). -/
theorem acceptStopReq_staysStopping (hscan : s.phase ≠ .idle) : StaysStopping s (acceptStopReq s) := by
  rw [acceptStopReq_of_scanning hscan]
  exact ⟨rfl, rfl, rfl, .inl rfl⟩

variable (hstop : s.stopPending = true)
include hstop

theorem sourceOffer_stopping (hi : Inv s) (h : sourceOffer s = .next t) : StoppingStep s t := by
  rcases sourceOffer_cases s with ⟨he, _⟩ | ⟨e, r, hrx, hen, he⟩
  · cases he.symm.trans h; exact .inl (.refl hstop)
  · obtain ⟨hout, hphase, _⟩ := (sourceEnabled_iff s).mp hen
    have hi' : Inv { s with rx := r } :=
      (SameBlock.env s r s.line s.sched s.host).sameRead.inv (Drained.tail hrx hi.drained) hi
    have hev : parserEvent e { s with rx := r } = .next t := he.symm.trans h
    by_cases hc : e = .closed
    · subst hc; cases hev; exact .inr (.inr ⟨rfl, rfl⟩)
    · rcases parserEvent_mode (s := { s with rx := r }) hphase hev with hm | ⟨hc', _⟩
      · have hw := (parserEvent_writesAtBoundary hi' hphase hout hc hev).of_captured (s := s)
        exact .inr (.inl ⟨hout, mt hm.phase.mp hphase, hw.stopPending.trans hstop, hw.written⟩)
      · exact absurd hc' hc

theorem arriveNext_staysStopping : StaysStopping s (arriveNext s) := by
  unfold arriveNext; split <;> exact ⟨rfl, rfl, hstop, .inl rfl⟩

theorem takeItem_staysStopping : StaysStopping s (takeItem s) := by
  cases ho : s.out with
  | none => rw [takeItem_none ho]; exact .refl hstop
  | some it => rw [takeItem_some ho]; exact ⟨rfl, rfl, hstop, .inr rfl⟩

variable (hscan : s.phase ≠ .idle)
include hscan

/-- `Start` is ignored while the block scans (R248). -/
theorem controlStart_staysStopping : StaysStopping s (controlStart s) := by
  have howed : stopDutiesOwed s = false := by rw [stopDutiesOwed, stopDutiesDue_eq_false (.inl hscan), Bool.false_and]
  rw [controlStart_of_not_flushing (.inl howed), acceptStart, if_neg fun h => hscan h.1]
  exact .refl hstop

/-- The host reads nothing while the block scans (R247). -/
theorem hostRead_staysStopping (h : hostRead s = .next t) : StaysStopping s t := by
  rw [hostRead, if_neg hscan] at h
  cases h
  exact .refl hstop

/-- Of the turns SOURCE's alone goes on with the frame. -/
theorem runTurn_stopping {a : Turn} (hi : Inv s) (h : runTurn a s = .next t) : StoppingStep s t := by
  cases a with
  | arrive => cases h; exact .inl (arriveNext_staysStopping hstop)
  | stopObeyed => cases h; exact .inl ⟨rfl, rfl, hstop, .inl rfl⟩
  | source => exact sourceOffer_stopping hstop hi h
  | start => cases h; exact .inl (controlStart_staysStopping hstop hscan)
  | stopReq => cases h; exact .inl (acceptStopReq_staysStopping hscan)
  | take => cases h; exact .inl (takeItem_staysStopping hstop)
  | stopScan =>
    cases h
    have hs := acceptStopReq_staysStopping (s := setCall .stopScan s) hscan
    exact .inl ⟨hs.phase, hs.hcnt, hs.stopPending, hs.out⟩
  | hostSend =>
    rcases hostSend_cases s with ⟨_, he, hb, _⟩ | ⟨_, _, he⟩ <;> cases he.symm.trans h
    exact .inl (hb.staysStopping hstop)
  | hostSendFails =>
    rcases hostSendFails_cases s with ⟨_, he, hb, _⟩ | ⟨_, _, he⟩ <;> cases he.symm.trans h
    exact .inl (hb.staysStopping hstop)
  | hostRead => exact .inl (hostRead_staysStopping hstop hscan h)

/-- The stop step ends the stream; any other step runs where it is not due. -/
theorem step_stopping (hi : Inv s) (h : step s = .next t) :
    StreamEnded t ∨ (stopEnabled s = false ∧ StoppingStep s t) := by
  rcases step_cases s with ⟨_, he⟩ | ⟨hst, _, he⟩ | ⟨hst, a, ts, _, he⟩
  · cases he.symm.trans h; exact .inl ⟨rfl, rfl⟩
  · cases he.symm.trans h; exact .inr ⟨hst, .inl (.refl hstop)⟩
  · have hi' : Inv { s with sched := ts } := (SameBlock.env s s.rx s.line ts s.host).sameRead.inv hi.drained hi
    exact .inr ⟨hst, (runTurn_stopping (s := { s with sched := ts }) hstop hscan hi' (he.symm.trans h)).of_sched⟩

end Turns

/-- Settles O56: where the stop step is not due, a boundary has OUT full, so that a block that stays there writes nothing, and
a frame that goes on did not stand at one. -/
theorem stopPendingAllowsOneMoreItem : Obligations.StopPendingAllowsOneMoreItem := by
  intro s t hi hscan hstop h
  rcases step_stopping hstop hscan hi h with ⟨hp, ho⟩ | ⟨hst, hcase⟩
  · exact .inr ⟨hp, ho⟩
  have hfull : s.phase = .header → s.hcnt = 0 → s.out ≠ none := fun hp hh ho =>
    Bool.false_ne_true (hst.symm.trans ((stopEnabled_iff s).mpr ⟨ho, hp, hh, hstop⟩))
  rcases hcase with hs | hf | ⟨hp, ho⟩
  · refine .inl ⟨by rwa [hs.phase], hs.stopPending, fun it hnone hit => ?_, fun hp hh => ?_⟩
    · exact absurd hit (by rcases hs.out with ho | ho <;> simp [ho, hnone])
    · have hp' := hs.phase.trans hp
      have hh' := hs.hcnt.trans hh
      exact ⟨hfull hp hh, hs.out, hp', hh', stopEnabled_when_taken hp' hh' hs.stopPending⟩
  · refine .inl ⟨hf.scanning, hf.stopPending, fun it _ hit => ?_, fun hp hh => absurd hf.out (hfull hp hh)⟩
    obtain ⟨hp, hh⟩ := hf.written (by simp [hit])
    exact ⟨hp, hh, stopEnabled_when_taken hp hh hf.stopPending⟩
  · exact .inr ⟨hp, ho⟩

end Sys2Proof.Machine

/-! ## The stream's failure and its end (R277, R278): a read ends at the frame boundary, or in IDLE -/

namespace Sys2Proof.Machine

section Offered

variable {s : State} {ts : List Turn} {r : List SrcEvent} {p : Phase}

/-- `IoFail` on offer in a read is consumed and raises IoError (R277, R280). -/
theorem step_ioFail (hoffer : Offers s .ioFail ts r) (hready : Ready s p) (hp : p ≠ .idle) :
    step s = .next (raiseErr .ioError { s with sched := ts, rx := r }) := by
  rw [step_of_offers hoffer hready hp, parserEvent]

/-- `Closed` on offer in a read is consumed and ends the stream (R278). -/
theorem step_closed (hoffer : Offers s .closed ts r) (hready : Ready s p) (hp : p ≠ .idle) :
    step s = .next (endStream { s with sched := ts, rx := r }) := by
  rw [step_of_offers hoffer hready hp, parserEvent]

end Offered

/-- Settles O41: neither event depends on the read in progress, so that each step is one operation of the block, which
`raiseErr_eq` and `endStream_eq` give in one record. -/
theorem ioFailAndClosed : Obligations.IoFailAndClosed := by
  intro s ts r p hp hready
  refine ⟨fun hoffer => ?_, fun hoffer => ?_⟩
  · rw [step_ioFail hoffer hready hp, raiseErr_eq]
  · rw [step_closed hoffer hready hp, endStream_eq]

end Sys2Proof.Machine
